-- ==== Sys2Proof/Word.lean ====
section
/-! DEFINITION. The word types of KBFC: bytes, 16-bit registers and command words, 10-bit bus addresses. -/

namespace Sys2Proof

/-- A byte of a buffer, a length register or half a command word (`10_state.md` R22, R25). -/
abbrev Byte := BitVec 8

/-- A 16-bit register or a command word (`10_state.md` R20, `30_encoding.md` R70). -/
abbrev Half := BitVec 16

/-- A bus address, 0x000 to 0x3FF (`20_memory.md` R50). -/
abbrev BusAddr := BitVec 10

end Sys2Proof
end

