-- ==== Sys2Proof/Config.lean ====
section
/-! DEFINITION. The identity of the hardware (`00_scope.md` R2), the implementation parameters of R8, and the two
free values of the model. -/

namespace Sys2Proof.Config

/-- The origin the model records (R2). -/
def origin : String := "riverloopsec/killerbee#sub000"

/-- The edition of the source document the model records (R2). -/
def documentEdition : String := "v7"

/-- The operation set, with its version number: the 24 commands of `30_encoding.md` R72 (R2). -/
def operationSet : String := "KBFC-1"

/-- `MAX_FRAME`: capacity of FRAME, AUX, AAD and OUT (R8, R9). -/
abbrev maxFrame : Nat := 127

/-- `MAX_INJECT`: the largest frame FCS_APPEND accepts (R8, `46_fcs.md` R194). -/
abbrev maxInject : Nat := 125

/-- `KEY_CAP`: capacity of KEY (R8). -/
abbrev keyCap : Nat := 32

/-- `NSLOT`: the number of field slots (R8). -/
abbrev nslot : Nat := 17

/-- `MIN_MAC`: the smallest frame MAC_HDRLEN accepts (R8, `41_mac_codec.md` R101). -/
abbrev minMac : Nat := 9

/-- `NONCE_LEN`: the length of a nonce, and the capacity of NONCE (R8). -/
abbrev nonceLen : Nat := 13

/-- `KEY_LEN`: the one key length that is accepted (R8). -/
abbrev keyLen : Nat := 16

/-- `M_FRAME`: the MIC length of SEC_DECRYPT and SEC_ENCRYPT (R8). -/
abbrev frameMic : Nat := 8

/-- `MIN_SEC_PAYLOAD`: the shortest MAC payload SEC_DECRYPT accepts (R8). -/
abbrev minSecPayload : Nat := 15

/-- `PREAMBLE_LEN`: the length of the security preamble (R8). -/
abbrev preambleLen : Nat := 6

/-- `LEVEL_ENC_MIC64`: the one security level that is implemented (R8). -/
abbrev levelEncMic64 : Byte := 0x06#8

/-- The number of bytes of the bus address space: addresses have 10 bits (`20_memory.md` R50). -/
abbrev busBytes : Nat := 1024

/-- What a bus read of an unspecified buffer byte returns: any value (`93_implementation_defined.md` U1).
The arguments are the number of the host action that reads (`State.accesses`) and the address, so that each
read of each byte has a value of its own. No proof can see which. (Assumption log 5.) -/
opaque unspecifiedByte : Nat → Nat → Byte

/-- Whether the second byte of a 2-byte bus access at 0x3FF is the byte at 0x000; otherwise it is no byte of the
address map. The argument is the number of the host action. No proof can see which. (Assumption log 7.) -/
opaque pairWraps : Nat → Bool

end Sys2Proof.Config
end

