-- ==== Sys2Proof/Syntax.lean ====
section
/-! DEFINITION. The 24 commands of `30_encoding.md` R72, one constructor per row of the opcode table. -/

namespace Sys2Proof

/-- A command. The argument of the four commands that take one is ARG as it stands in the command word, any
8-bit value (`30_encoding.md` R71); which values are legal is `Instr.wf`. -/
inductive Instr where
  | nop
  | reset
  /-- NARROW s: `s` is a slot index. -/
  | narrow (s : Byte)
  | movof
  | movoa
  /-- SPLICE n: `n` is a byte count. -/
  | splice (n : Byte)
  | macHdrlen
  | macPaylen
  | macChop
  | macNonce
  | nwkHdrlen
  | nwkPaylen
  | nwkChop
  | apsHdrlen
  | apsPaylen
  | apsChop
  | aesEnc
  /-- CCM_ENC M: `m` is a MIC length. -/
  | ccmEnc (m : Byte)
  /-- CCM_DEC M: `m` is a MIC length. -/
  | ccmDec (m : Byte)
  | secDecrypt
  | secEncrypt
  | fcsCalc
  | fcsCheck
  | fcsAppend
  deriving DecidableEq, Repr

end Sys2Proof
end

