-- ==== Sys2Proof/Decode.lean ====
section
/-! DEFINITION. The command decoder and, after it, the encoder (`30_encoding.md` R70 to R74).

A row of the opcode table selects its command when `word & mask = match`: the mask is 0x00FF for the four
commands that take an argument and 0xFFFF for the others. Whether an argument is in its legal range is the
first check of the command's own rule (R92, R95, R176, R177), so the decoder passes ARG on as it stands
(assumption log 9). -/

namespace Sys2Proof

/-- Why a command word is no command (`30_encoding.md` R74). Both end with the status `IllegalCommand`. -/
inductive DecodeError where
  /-- OPC is not in the opcode map. -/
  | reservedOpcode (opc : Byte)
  /-- ARG is not 0 on a command that takes no argument. -/
  | argumentNotZero (opc arg : Byte)
  /-- Fewer than the two bytes of a command word. -/
  | truncated
  deriving DecidableEq, Repr

/-- OPC, bits 7:0 of a command word (R70). -/
def opcOf (w : Half) : Byte := w.extractLsb' 0 8

/-- ARG, bits 15:8 of a command word (R70). -/
def argOf (w : Half) : Byte := w.extractLsb' 8 8

/-- The command word with the given OPC and ARG (R70). -/
def commandWord (opc arg : Byte) : Half := arg ++ opc

/-- A command that takes no argument: ARG must be 0 (R70, R74). -/
def withoutArg (opc arg : Byte) (i : Instr) : Except DecodeError Instr :=
  if arg = 0#8 then .ok i else .error (.argumentNotZero opc arg)

/-- The opcode map of R72, on the two bytes of a command word. -/
def decodeFields (opc arg : Byte) : Except DecodeError Instr :=
  match opc with
  | 0x00#8 => withoutArg opc arg .nop
  | 0x01#8 => withoutArg opc arg .reset
  | 0x08#8 => .ok (.narrow arg)
  | 0x09#8 => withoutArg opc arg .movof
  | 0x0A#8 => withoutArg opc arg .movoa
  | 0x0B#8 => .ok (.splice arg)
  | 0x10#8 => withoutArg opc arg .macHdrlen
  | 0x11#8 => withoutArg opc arg .macPaylen
  | 0x12#8 => withoutArg opc arg .macChop
  | 0x13#8 => withoutArg opc arg .macNonce
  | 0x20#8 => withoutArg opc arg .nwkHdrlen
  | 0x21#8 => withoutArg opc arg .nwkPaylen
  | 0x22#8 => withoutArg opc arg .nwkChop
  | 0x30#8 => withoutArg opc arg .apsHdrlen
  | 0x31#8 => withoutArg opc arg .apsPaylen
  | 0x32#8 => withoutArg opc arg .apsChop
  | 0x40#8 => withoutArg opc arg .aesEnc
  | 0x50#8 => .ok (.ccmEnc arg)
  | 0x51#8 => .ok (.ccmDec arg)
  | 0x52#8 => withoutArg opc arg .secDecrypt
  | 0x53#8 => withoutArg opc arg .secEncrypt
  | 0x60#8 => withoutArg opc arg .fcsCalc
  | 0x61#8 => withoutArg opc arg .fcsCheck
  | 0x62#8 => withoutArg opc arg .fcsAppend
  | _ => .error (.reservedOpcode opc)

/-- Decodes a command word. -/
def decode (w : Half) : Except DecodeError Instr := decodeFields (opcOf w) (argOf w)

/-- Decodes a command from the bytes the bus delivers, the byte at 0x000 first (`20_memory.md` R53), and
returns the bytes after it. -/
def decodeBytes : List Byte → Except DecodeError (Instr × List Byte)
  | opc :: arg :: rest => (decodeFields opc arg).map fun i => (i, rest)
  | _ => .error .truncated

/-- The bytes of an instruction of `nbits` bits, numbered as the opcode table numbers them, padded with zeros
to the one instruction length: byte 0 is bits 7:0, byte 1 is bits 15:8. -/
def tableBytes (nbits w : Nat) : List Byte :=
  [BitVec.ofNat 8 (w % 2 ^ nbits), BitVec.ofNat 8 (w % 2 ^ nbits / 256)]

/-- The instruction the decoder reads from an instruction whose bits are `w`; `none` where it refuses. -/
def decodeTableWord (nbits w : Nat) : Option Instr :=
  match decodeBytes (tableBytes nbits w) with
  | .ok (i, _) => some i
  | .error _ => none

/-- OPC of a command (R72). -/
def Instr.opcode : Instr → Byte
  | .nop => 0x00#8
  | .reset => 0x01#8
  | .narrow _ => 0x08#8
  | .movof => 0x09#8
  | .movoa => 0x0A#8
  | .splice _ => 0x0B#8
  | .macHdrlen => 0x10#8
  | .macPaylen => 0x11#8
  | .macChop => 0x12#8
  | .macNonce => 0x13#8
  | .nwkHdrlen => 0x20#8
  | .nwkPaylen => 0x21#8
  | .nwkChop => 0x22#8
  | .apsHdrlen => 0x30#8
  | .apsPaylen => 0x31#8
  | .apsChop => 0x32#8
  | .aesEnc => 0x40#8
  | .ccmEnc _ => 0x50#8
  | .ccmDec _ => 0x51#8
  | .secDecrypt => 0x52#8
  | .secEncrypt => 0x53#8
  | .fcsCalc => 0x60#8
  | .fcsCheck => 0x61#8
  | .fcsAppend => 0x62#8

/-- ARG of a command: its argument, or 0 (R70, R71). -/
def Instr.argument : Instr → Byte
  | .narrow s => s
  | .splice n => n
  | .ccmEnc m => m
  | .ccmDec m => m
  | .nop | .reset | .movof | .movoa | .macHdrlen | .macPaylen | .macChop | .macNonce
  | .nwkHdrlen | .nwkPaylen | .nwkChop | .apsHdrlen | .apsPaylen | .apsChop
  | .aesEnc | .secDecrypt | .secEncrypt | .fcsCalc | .fcsCheck | .fcsAppend => 0#8

/-- The command word of a command (R70): every command is one word. -/
def encode (i : Instr) : Half := commandWord i.opcode i.argument

end Sys2Proof
end

