-- ==== Sys2Proof/Machine/Bytes.lean ====
section
/-! DEFINITION. The notation of `00_scope.md` R10 and R11 on byte sequences: a list whose head is byte 0. -/

namespace Sys2Proof.Machine

/-- `b[i]`. Every rule that uses it has checked `i < len(b)`. -/
def byteAt (b : List Byte) (i : Nat) : Byte := b.getD i 0#8

/-- `b[i..j)`. -/
def slice (b : List Byte) (i j : Nat) : List Byte := (b.drop i).take (j - i)

/-- `zeros(n)`. -/
def zeros (n : Nat) : List Byte := List.replicate n 0#8

/-- `pad16(b)`: the fewest zero bytes that make the length a multiple of 16. -/
def pad16 (b : List Byte) : List Byte := b ++ zeros ((16 - b.length % 16) % 16)

/-- `le16(b, i) = b[i] + 256 * b[i+1]`. -/
def le16 (b : List Byte) (i : Nat) : Half := byteAt b (i + 1) ++ byteAt b i

/-- `be16(v)`: two bytes, most significant first, for `v < 65536`. -/
def be16 (v : Nat) : List Byte := [BitVec.ofNat 8 (v / 256), BitVec.ofNat 8 v]

/-- `xor(a, b)` for equal lengths. -/
def xorBytes (a b : List Byte) : List Byte := List.zipWith (· ^^^ ·) a b

/-- Bits 7:0 of a 16-bit number. -/
def lowByte (v : Half) : Byte := v.extractLsb' 0 8

/-- Bits 15:8 of a 16-bit number. -/
def highByte (v : Half) : Byte := v.extractLsb' 8 8

end Sys2Proof.Machine
end

