-- ==== Sys2Proof/Machine/State.lean ====
section
/-! DEFINITION. The state of one KBFC instance (`10_state.md` R20) as plain data, its reset value (R41), and
the reasons a step can stop. -/

namespace Sys2Proof.Machine

/-- The six byte buffers (R20). -/
inductive Buf where
  | frame
  | aux
  | aad
  | key
  | nonce
  | out
  deriving DecidableEq, Repr

/-- A field slot: the byte range `FRAME[off..off+len)`; an absent field is `(0, 0)` (R29). -/
structure Slot where
  off : Byte
  len : Byte
  deriving DecidableEq, Repr

/-- The pair `(0, 0)` of an absent field (R29). -/
abbrev Slot.empty : Slot := ⟨0#8, 0#8⟩

/-- What the host can do to the block: bus accesses of one or two bytes (`20_memory.md` R50) and power-on
(`70_reset_and_hazards.md` R230). A 16-bit datum goes to `addr` and `addr + 1`, bits 7:0 first (R53). -/
inductive HostAction where
  | read8 (addr : BusAddr)
  | read16 (addr : BusAddr)
  | write8 (addr : BusAddr) (data : Byte)
  | write16 (addr : BusAddr) (data : Half)
  | powerOn
  deriving DecidableEq, Repr

/-- The bytes behind the six buffers, keyed by bus address (`20_memory.md` R52), addresses strictly rising. An
unlisted address holds no defined value (R23, R41; assumption log 4). -/
abbrev Memory := List Host.Cell

/-- The tuple of R20 and, last, three fields of the model's own. -/
structure State where
  /-- FRAME_mem, AUX_mem, AAD_mem, KEY_mem, NONCE_mem and OUT_mem (R22, R28, `20_memory.md` R52). -/
  mem : Memory
  /-- FRAME_LEN (R25). -/
  frameLen : Byte
  /-- AUX_LEN (R25). -/
  auxLen : Byte
  /-- AAD_LEN (R25). -/
  aadLen : Byte
  /-- KEY_LEN (R25, R27). -/
  keyLen : Byte
  /-- NONCE_LEN (R25). -/
  nonceLen : Byte
  /-- OUT_LEN (R28). -/
  outLen : Byte
  /-- CFG: bit 0 is FCS_PRESENT (R35). -/
  cfg : Half
  /-- SLOT[0..16] (R29). -/
  slots : Vector Slot Config.nslot
  /-- RESULT (R30). -/
  result : Half
  /-- STATUS: CODE 3:0, DONE 4, CRC_OK 5, AUTH_OK 6 (R32). -/
  status : Half
  /-- CMD_LO, the held low byte of a command word (R36). -/
  cmdLo : Byte
  /-- The model's own: the host's actions that have not taken place yet, in order of issue (`20_memory.md`
  R63; assumption log 1). -/
  pending : List HostAction
  /-- The model's own: the bytes the last `MemRead` returned to the host (`20_memory.md` R50; assumption
  log 8). -/
  reply : List Byte
  /-- The model's own: how many host actions have taken place. It only numbers free values (assumption
  log 5). -/
  accesses : Nat
  deriving DecidableEq, Repr

/-- Why the machine stops with a fault: it never does. A command that meets an error ends with a status code, which
is a next state (`60_exceptions.md` R200), and every bus access takes place (`20_memory.md` R60). There is no
constructor, so no step of the model can fault. -/
inductive Fault where
  deriving DecidableEq, Repr

/-- Why a step has no meaning. -/
inductive Refusal where
  /-- Raised by the dispatch for a command without a meaning; no command of this model is one. Safe. -/
  | notModelled (mnemonic : String)
  /-- Raised by a command whose operand includes a byte that nothing has written since reset: "a model treats
  this as a refusal" (`10_state.md` R23, `93_implementation_defined.md` U1). Safe: such a run has no meaning
  in the spec (assumption log 3). -/
  | undefinedOperand (buffer : Buf)
  deriving DecidableEq, Repr

/-- The machine right after reset (R41): all lengths, CFG, RESULT, STATUS, the slots and CMD_LO are 0 and no
buffer byte holds a defined value. The model's own fields are empty (assumption logs 1, 5, 8). -/
def State.reset : State where
  mem := []
  frameLen := 0#8
  auxLen := 0#8
  aadLen := 0#8
  keyLen := 0#8
  nonceLen := 0#8
  outLen := 0#8
  cfg := 0x0000#16
  slots := Vector.replicate Config.nslot Slot.empty
  result := 0x0000#16
  status := 0x0000#16
  cmdLo := 0x00#8
  pending := []
  reply := []
  accesses := 0

end Sys2Proof.Machine
end

