-- ==== Sys2Proof/Machine/Flags.lean ====
section
/-! DEFINITION. Status codes (`60_exceptions.md` R201) and the fields of STATUS and CFG (`10_state.md` R32 to
R35). -/

namespace Sys2Proof.Machine

/-- The eight statuses other than `Ok` that a command can end with (R201; codes 6 to 9 and 13 to 15 are never
produced, R203). -/
inductive ErrorStatus where
  | tooShort
  | badPayloadLength
  | unsupportedSecurityLevel
  | badKeyLength
  | authenticationFailure
  | illegalCommand
  | frameTooLong
  | noNonce
  deriving DecidableEq, Repr

/-- The number of a status (R201). -/
def ErrorStatus.code : ErrorStatus → BitVec 4
  | .tooShort => 0x1#4
  | .badPayloadLength => 0x2#4
  | .unsupportedSecurityLevel => 0x3#4
  | .badKeyLength => 0x4#4
  | .authenticationFailure => 0x5#4
  | .illegalCommand => 0xA#4
  | .frameTooLong => 0xB#4
  | .noNonce => 0xC#4

/-- CODE of `Ok` (R201). -/
def okCode : BitVec 4 := 0x0#4

/-- The STATUS word after a command: the given fields, DONE = 1, bits 15:7 zero (R32). -/
def statusWord (code : BitVec 4) (crcOk authOk : Bool) : Half :=
  (0#9 ++ BitVec.ofBool authOk ++ BitVec.ofBool crcOk ++ 1#1 ++ code : BitVec 16)

/-- STATUS.CODE, bits 3:0 (R32). -/
def State.code (s : State) : BitVec 4 := s.status.extractLsb' 0 4

/-- STATUS.DONE, bit 4 (R32). -/
def State.done (s : State) : Bool := s.status.getLsbD 4

/-- STATUS.CRC_OK, bit 5 (R32, R33). -/
def State.crcOk (s : State) : Bool := s.status.getLsbD 5

/-- STATUS.AUTH_OK, bit 6 (R32, R34). -/
def State.authOk (s : State) : Bool := s.status.getLsbD 6

/-- CFG.FCS_PRESENT, bit 0 of CFG (R35). -/
def fcsPresent (cfg : Half) : Bool := cfg.getLsbD 0

/-- The CFG word with the given FCS_PRESENT: bits 15:1 are 0 (R35). -/
def cfgWord (present : Bool) : Half := (0#15 ++ BitVec.ofBool present : BitVec 16)

end Sys2Proof.Machine
end

