-- ==== Sys2Proof/Machine/Memory.lean ====
section
/-! DEFINITION. Memory operations: one byte read, written or made undefined, and runs of bytes, all in one
canonical form; and where each buffer lies on the address map (`20_memory.md` R52). -/

namespace Sys2Proof.Machine

/-- The first address of a buffer's array (R52). -/
def Buf.base : Buf → Nat
  | .nonce => 0x010
  | .key => 0x020
  | .frame => 0x080
  | .aux => 0x100
  | .aad => 0x180
  | .out => 0x200

/-- A buffer's capacity in bytes (R52, `00_scope.md` R8). -/
def Buf.cap : Buf → Nat
  | .nonce => Config.nonceLen
  | .key => Config.keyCap
  | .frame => Config.maxFrame
  | .aux => Config.maxFrame
  | .aad => Config.maxFrame
  | .out => Config.maxFrame

/-- All six buffers, by rising address. -/
def Buf.all : List Buf := [.nonce, .key, .frame, .aux, .aad, .out]

/-- The address lies in the buffer's array. -/
def Buf.holds (b : Buf) (a : Nat) : Bool := b.base ≤ a && a < b.base + b.cap

/-- The address lies in some buffer's array: the only addresses at which memory lists a byte. -/
def bufferAddress (a : Nat) : Bool := Buf.all.any fun b => b.holds a

/-- The byte at an address; `none` when it holds no defined value (`10_state.md` R23). -/
def Memory.read : Memory → Nat → Option Byte
  | [], _ => none
  | (x, v) :: m, a => if x = a then some v else Memory.read m a

/-- Writes one byte, keeping addresses strictly rising. -/
def Memory.write : Memory → Nat → Byte → Memory
  | [], a, b => [(a, b)]
  | (x, v) :: m, a, b =>
    if a < x then (a, b) :: (x, v) :: m
    else if x = a then (a, b) :: m
    else (x, v) :: Memory.write m a b

/-- Writes bytes at rising addresses from `a`. -/
def Memory.writeAll : Memory → Nat → List Byte → Memory
  | m, _, [] => m
  | m, a, b :: bs => Memory.writeAll (Memory.write m a b) (a + 1) bs

/-- Leaves the `n` bytes from `a` without a defined value. -/
def Memory.erase (m : Memory) (a n : Nat) : Memory :=
  m.filter fun c => !(a ≤ c.1 && c.1 < a + n)

/-- The `n` bytes from `a`; `none` when one of them holds no defined value. -/
def Memory.readAll (m : Memory) : Nat → Nat → Option (List Byte)
  | _, 0 => some []
  | a, n + 1 =>
    match Memory.read m a, Memory.readAll m (a + 1) n with
    | some b, some bs => some (b :: bs)
    | _, _ => none

/-- Every address of a memory is above `a`, and addresses strictly rise. -/
def Memory.risesAbove : Nat → Memory → Bool
  | _, [] => true
  | a, (x, _) :: m => a < x && Memory.risesAbove x m

/-- The canonical form: addresses strictly rising (none is 0, which is CMD), each in a buffer's array. An
unlisted address has no value, so no listed byte can equal what an unlisted address reads as. -/
def Memory.wf (m : Memory) : Bool :=
  Memory.risesAbove 0 m && m.all fun c => bufferAddress c.1

end Sys2Proof.Machine
end

