-- ==== Sys2Proof/Machine/Ops.lean ====
section
/-! DEFINITION. The operations every command is made of: reading a buffer, replacing a buffer, writing the
result record (`10_state.md` R39), ending with an error status (`60_exceptions.md` R207), and reset
(`70_reset_and_hazards.md` R230). -/

namespace Sys2Proof.Machine

/-- What a meaning answers. -/
abbrev Result := Host.Outcome State Fault Refusal

/-- Goes on from a next state; a refusal stays. -/
def Result.andThen (r : Result) (k : State → Result) : Result :=
  match r with
  | .next s => k s
  | .fault f => .fault f
  | .refused f => .refused f

/-! ### Buffers -/

/-- The length register of a buffer (`10_state.md` R22). -/
def State.len (s : State) : Buf → Byte
  | .frame => s.frameLen
  | .aux => s.auxLen
  | .aad => s.aadLen
  | .key => s.keyLen
  | .nonce => s.nonceLen
  | .out => s.outLen

/-- Replaces the length register of a buffer. -/
def State.setLen (s : State) (b : Buf) (n : Byte) : State :=
  match b with
  | .frame => { s with frameLen := n }
  | .aux => { s with auxLen := n }
  | .aad => { s with aadLen := n }
  | .key => { s with keyLen := n }
  | .nonce => { s with nonceLen := n }
  | .out => { s with outLen := n }

/-- The length register exceeds the capacity (R25). -/
def State.overCapacity (s : State) (b : Buf) : Bool := b.cap < (s.len b).toNat

/-- The value of a buffer, `B = B_mem[0..B_LEN)` (R22); `none` when a byte of it holds no defined value (R23)
or the length register exceeds the capacity. -/
def State.value (s : State) (b : Buf) : Option (List Byte) :=
  if s.overCapacity b then none else s.mem.readAll b.base (s.len b).toNat

/-- Replaces a buffer whole: `B_mem[0..n) <- bytes ; B_LEN <- n` (`40_system_move.md` R92 to R94). The bytes
of the array at index `n` and above stay (assumption log 10). -/
def State.setBuffer (s : State) (b : Buf) (bytes : List Byte) : State :=
  { s with mem := s.mem.writeAll b.base bytes }.setLen b (BitVec.ofNat 8 bytes.length)

/-! ### The result record -/

/-- A byte range of FRAME, in unbounded naturals (`30_encoding.md` R80). -/
structure Range where
  off : Nat
  len : Nat
  deriving DecidableEq, Repr

/-- The range of an absent field (`10_state.md` R29). -/
abbrev Range.absent : Range := ⟨0, 0⟩

/-- A range as a slot holds it. Every range a codec reports lies within FRAME, so both numbers fit (R80). -/
def Range.toSlot (r : Range) : Slot := ⟨BitVec.ofNat 8 r.off, BitVec.ofNat 8 r.len⟩

/-- The slots that hold the given fields in order, `(0, 0)` in those left over (R29). -/
def slotsOf (fields : List Range) : Vector Slot Config.nslot :=
  Vector.ofFn fun k => (fields.getD k.val Range.absent).toSlot

/-- Writes the whole result record `{STATUS, RESULT, SLOT[0..16], OUT}` (R39). The bytes of OUT_mem at OUT_LEN
and above have no defined value afterwards (`20_memory.md` R52; assumption log 6). -/
def State.setRecord (s : State) (status result : Half) (slots : Vector Slot Config.nslot)
    (out : List Byte) : State :=
  { s with
    status := status
    result := result
    slots := slots
    outLen := BitVec.ofNat 8 out.length
    mem := (s.mem.erase Buf.out.base Buf.out.cap).writeAll Buf.out.base out }

/-- What a command that ends `Ok` leaves behind; what a rule does not name is cleared (R39). -/
structure Effect where
  /-- RESULT. -/
  result : Nat := 0
  /-- The fields of the slots, from SLOT[0] on. -/
  fields : List Range := []
  /-- OUT. -/
  out : List Byte := []
  /-- STATUS.CRC_OK. -/
  crcOk : Bool := false
  /-- STATUS.AUTH_OK. -/
  authOk : Bool := false
  /-- The operand buffer the command replaces, and its new value. -/
  replaces : Option (Buf × List Byte) := none
  deriving DecidableEq, Repr

/-- What the body of a command computes: an effect, or the error status it ends with. -/
abbrev Ending := Except ErrorStatus Effect

/-- Replaces the operand buffer an effect names. -/
def Effect.replaceBuffer (e : Effect) (s : State) : State :=
  match e.replaces with
  | some (b, bytes) => s.setBuffer b bytes
  | none => s

/-- A command ends with the status `Ok`: its operand buffer is replaced and the record written (R39). -/
def complete (e : Effect) (s : State) : State :=
  (e.replaceBuffer s).setRecord (statusWord okCode e.crcOk e.authOk) (BitVec.ofNat 16 e.result)
    (slotsOf e.fields) e.out

/-- `raise X`: a command ends with an error status and the cleared record of `60_exceptions.md` R207; nothing
else changes (R208). This is all the exception entry the machine has: no control is transferred (R200, R209)
and there is no return (R210). -/
def raise (e : ErrorStatus) (s : State) : State :=
  s.setRecord (statusWord e.code false false) 0x0000#16 (slotsOf []) []

/-- Ends a command as its body says. -/
def finish (r : Ending) (s : State) : State :=
  match r with
  | .ok e => complete e s
  | .error e => raise e s

/-! ### Reset -/

/-- The reset state of `10_state.md` R41, for power-on and the RESET command alike (R230). The model's own
fields are the host's side of the bus and stay (assumption log 1). -/
def State.resetBlock (s : State) : State :=
  { State.reset with pending := s.pending, reply := s.reply, accesses := s.accesses }

end Sys2Proof.Machine
end

