-- ==== Sys2Proof/Machine/Operands.lean ====
section
/-! DEFINITION. How a command reads its operands: the checks of `60_exceptions.md` R205 before its own, and
the effective frame of `00_scope.md` R14. -/

namespace Sys2Proof.Machine

/-- The operand buffers whose length registers R205 tests. OUT is a result buffer: its length is never above
127 (R202). -/
def Buf.hasCapacityCheck : Buf → Bool
  | .frame | .aux | .aad | .key | .nonce => true
  | .out => false

/-- R205, priority 2: some buffer the command reads has a length register above its capacity. -/
def State.anyOverCapacity (s : State) (bs : List Buf) : Bool :=
  bs.any fun b => b.hasCapacityCheck && s.overCapacity b

/-- The first of the buffers whose value includes a byte without a defined value (`10_state.md` R23). -/
def State.firstUndefined (s : State) (bs : List Buf) : Option Buf :=
  bs.find? fun b => (s.value b).isNone

/-- The bytes of a buffer, for a command that has found its value defined. -/
def State.bytes (s : State) (b : Buf) : List Byte := (s.value b).getD []

/-- Runs a command that reads the buffers `bs` (`30_encoding.md` R73). `FrameTooLong` for a length register
above capacity comes first (R205, priority 2); then an operand that includes an unwritten byte is refused
(`10_state.md` R23; assumption log 3); then the body's own checks, on the state before the command (R39). -/
def withOperands (bs : List Buf) (s : State) (body : Ending) : Result :=
  if s.anyOverCapacity bs then .next (raise .frameTooLong s)
  else match s.firstUndefined bs with
    | some b => .refused (.undefinedOperand b)
    | none => .next (finish body s)

/-- `EF` of `00_scope.md` R14, from CFG and the value of FRAME; `TooShort` is R205, priority 3. -/
def effectiveFrame (cfg : Half) (frame : List Byte) : Except ErrorStatus (List Byte) :=
  if fcsPresent cfg then
    if frame.length < 2 then .error .tooShort else .ok (slice frame 0 (frame.length - 2))
  else .ok frame

/-- Runs a command whose one operand is EF. -/
def withFrame (s : State) (body : List Byte → Ending) : Result :=
  withOperands [.frame] s (effectiveFrame s.cfg (s.bytes .frame) >>= body)

/-- A command refused by its command word alone: R205, priority 1. -/
def illegal (s : State) : Result := .next (raise .illegalCommand s)

end Sys2Proof.Machine
end

