-- ==== Sys2Proof/Machine/Aes.lean ====
section
/-! DEFINITION. AES-128 encryption of one block (`44_aes.md` R150 to R158) and the command AES_ENC (R160).

The cipher's state is its 16 bytes in the order of the block: `s[r][c]` is byte `4c + r` (R151). A key word is
a list of its four bytes. -/

namespace Sys2Proof.Machine

/-! ### Field arithmetic and S-box -/

/-- `xtime(b)` (R152). -/
def xtime (b : Byte) : Byte := (b <<< 1) ^^^ (if b.getLsbD 7 then 0x1B#8 else 0#8)

/-- `mul2(b)` (R152). -/
def mul2 (b : Byte) : Byte := xtime b

/-- `mul3(b)` (R152). -/
def mul3 (b : Byte) : Byte := xtime b ^^^ b

/-- The S-box table of R153: row `b[7:4]`, column `b[3:0]`. -/
def sboxTable : List (List Byte) :=
  [[0x63, 0x7c, 0x77, 0x7b, 0xf2, 0x6b, 0x6f, 0xc5, 0x30, 0x01, 0x67, 0x2b, 0xfe, 0xd7, 0xab, 0x76],
   [0xca, 0x82, 0xc9, 0x7d, 0xfa, 0x59, 0x47, 0xf0, 0xad, 0xd4, 0xa2, 0xaf, 0x9c, 0xa4, 0x72, 0xc0],
   [0xb7, 0xfd, 0x93, 0x26, 0x36, 0x3f, 0xf7, 0xcc, 0x34, 0xa5, 0xe5, 0xf1, 0x71, 0xd8, 0x31, 0x15],
   [0x04, 0xc7, 0x23, 0xc3, 0x18, 0x96, 0x05, 0x9a, 0x07, 0x12, 0x80, 0xe2, 0xeb, 0x27, 0xb2, 0x75],
   [0x09, 0x83, 0x2c, 0x1a, 0x1b, 0x6e, 0x5a, 0xa0, 0x52, 0x3b, 0xd6, 0xb3, 0x29, 0xe3, 0x2f, 0x84],
   [0x53, 0xd1, 0x00, 0xed, 0x20, 0xfc, 0xb1, 0x5b, 0x6a, 0xcb, 0xbe, 0x39, 0x4a, 0x4c, 0x58, 0xcf],
   [0xd0, 0xef, 0xaa, 0xfb, 0x43, 0x4d, 0x33, 0x85, 0x45, 0xf9, 0x02, 0x7f, 0x50, 0x3c, 0x9f, 0xa8],
   [0x51, 0xa3, 0x40, 0x8f, 0x92, 0x9d, 0x38, 0xf5, 0xbc, 0xb6, 0xda, 0x21, 0x10, 0xff, 0xf3, 0xd2],
   [0xcd, 0x0c, 0x13, 0xec, 0x5f, 0x97, 0x44, 0x17, 0xc4, 0xa7, 0x7e, 0x3d, 0x64, 0x5d, 0x19, 0x73],
   [0x60, 0x81, 0x4f, 0xdc, 0x22, 0x2a, 0x90, 0x88, 0x46, 0xee, 0xb8, 0x14, 0xde, 0x5e, 0x0b, 0xdb],
   [0xe0, 0x32, 0x3a, 0x0a, 0x49, 0x06, 0x24, 0x5c, 0xc2, 0xd3, 0xac, 0x62, 0x91, 0x95, 0xe4, 0x79],
   [0xe7, 0xc8, 0x37, 0x6d, 0x8d, 0xd5, 0x4e, 0xa9, 0x6c, 0x56, 0xf4, 0xea, 0x65, 0x7a, 0xae, 0x08],
   [0xba, 0x78, 0x25, 0x2e, 0x1c, 0xa6, 0xb4, 0xc6, 0xe8, 0xdd, 0x74, 0x1f, 0x4b, 0xbd, 0x8b, 0x8a],
   [0x70, 0x3e, 0xb5, 0x66, 0x48, 0x03, 0xf6, 0x0e, 0x61, 0x35, 0x57, 0xb9, 0x86, 0xc1, 0x1d, 0x9e],
   [0xe1, 0xf8, 0x98, 0x11, 0x69, 0xd9, 0x8e, 0x94, 0x9b, 0x1e, 0x87, 0xe9, 0xce, 0x55, 0x28, 0xdf],
   [0x8c, 0xa1, 0x89, 0x0d, 0xbf, 0xe6, 0x42, 0x68, 0x41, 0x99, 0x2d, 0x0f, 0xb0, 0x54, 0xbb, 0x16]]

/-- `SBOX[b]` (R153). -/
def sbox (b : Byte) : Byte := (sboxTable.getD (b.toNat / 16) []).getD (b.toNat % 16) 0#8

/-! ### Key expansion (R154) -/

/-- `RotWord`. -/
def rotWord (w : List Byte) : List Byte := w.drop 1 ++ w.take 1

/-- `SubWord`. -/
def subWord (w : List Byte) : List Byte := w.map sbox

/-- `rc_i`: `rc_1 = 1`, `rc_(i+1) = xtime(rc_i)`. -/
def rcByte : Nat → Byte
  | 0 => 0x01#8
  | 1 => 0x01#8
  | i + 2 => xtime (rcByte (i + 1))

/-- `Rcon[i]`. -/
def rcon (i : Nat) : List Byte := [rcByte i, 0#8, 0#8, 0#8]

/-- One turn of the loop of R154: appends `w[j]` to `w[0..j)`. -/
def expandStep (w : List (List Byte)) (j : Nat) : List (List Byte) :=
  let prev := w.getD (j - 1) []
  let t := if j % 4 = 0 then xorBytes (subWord (rotWord prev)) (rcon (j / 4)) else prev
  w ++ [xorBytes (w.getD (j - 4) []) t]

/-- The four key words of R151. -/
def keyWords (key : List Byte) : List (List Byte) :=
  [slice key 0 4, slice key 4 8, slice key 8 12, slice key 12 16]

/-- `w[0..44)`. -/
def expandKey (key : List Byte) : List (List Byte) := (List.range' 4 40).foldl expandStep (keyWords key)

/-- Round key `k`, 16 bytes. -/
def roundKey (w : List (List Byte)) (k : Nat) : List Byte :=
  w.getD (4 * k) [] ++ w.getD (4 * k + 1) [] ++ w.getD (4 * k + 2) [] ++ w.getD (4 * k + 3) []

/-! ### Round functions -/

/-- `AddRoundKey(s, k)` (R155). -/
def addRoundKey (w : List (List Byte)) (k : Nat) (s : List Byte) : List Byte := xorBytes s (roundKey w k)

/-- `SubBytes(s)` (R156). -/
def subBytes (s : List Byte) : List Byte := s.map sbox

/-- `ShiftRows(s)` (R156): `s'[r][c] = s[r][(c + r) mod 4]`. -/
def shiftRows (s : List Byte) : List Byte :=
  (List.range 16).map fun i => byteAt s (4 * ((i / 4 + i % 4) % 4) + i % 4)

/-- `MixColumns(s)`, column by column (R157). -/
def mixColumns : List Byte → List Byte
  | a0 :: a1 :: a2 :: a3 :: rest =>
    (mul2 a0 ^^^ mul3 a1 ^^^ a2 ^^^ a3) :: (a0 ^^^ mul2 a1 ^^^ mul3 a2 ^^^ a3)
      :: (a0 ^^^ a1 ^^^ mul2 a2 ^^^ mul3 a3) :: (mul3 a0 ^^^ a1 ^^^ a2 ^^^ mul2 a3) :: mixColumns rest
  | s => s

/-- One of the rounds 1 to 9 (R158). -/
def aesRound (w : List (List Byte)) (s : List Byte) (k : Nat) : List Byte :=
  addRoundKey w k (mixColumns (shiftRows (subBytes s)))

/-- Round 10, which has no MixColumns (R158). -/
def aesLastRound (w : List (List Byte)) (s : List Byte) : List Byte :=
  addRoundKey w 10 (shiftRows (subBytes s))

/-- `aes_enc(key, block)` (R158). Irreducible, so that no tactic evaluates the cipher unasked: `unfold` opens it. -/
@[irreducible] def aesEnc (key block : List Byte) : List Byte :=
  let w := expandKey key
  aesLastRound w ((List.range' 1 9).foldl (aesRound w) (addRoundKey w 0 block))

/-! ### Command -/

/-- The body of AES_ENC (R160). -/
def aesEncBody (key aux : List Byte) : Ending :=
  if key.length ≠ Config.keyLen then .error .badKeyLength
  else if aux.length ≠ 16 then .error .badPayloadLength
  else .ok { out := aesEnc key aux }

/-- AES_ENC (R160). -/
def execAesEnc (s : State) : Result :=
  withOperands [.key, .aux] s (aesEncBody (s.bytes .key) (s.bytes .aux))

end Sys2Proof.Machine
end

