-- ==== Sys2Proof/Machine/Mac.lean ====
section
/-! DEFINITION. The 802.15.4 MAC codec (`41_mac_codec.md`): the pure functions of R100 to R109 and the commands
MAC_HDRLEN, MAC_PAYLEN, MAC_CHOP and MAC_NONCE (R110 to R113). -/

namespace Sys2Proof.Machine

/-! ### Frame control field (R100) -/

/-- `fcf = le16(f, 0)`. -/
def macFcf (f : List Byte) : Half := le16 f 0

/-- `ftype`, bits 2:0: 0 beacon, 1 data, 2 ack, 3 command, 4 to 7 reserved. -/
def fcfType (fcf : Half) : BitVec 3 := fcf.extractLsb' 0 3

/-- `sec`, bit 3. -/
def fcfSec (fcf : Half) : Bool := fcf.getLsbD 3

/-- `intra`, bit 6. -/
def fcfIntra (fcf : Half) : Bool := fcf.getLsbD 6

/-- `dam`, bits 11:10. -/
def fcfDam (fcf : Half) : BitVec 2 := fcf.extractLsb' 10 2

/-- `sam`, bits 15:14. -/
def fcfSam (fcf : Half) : BitVec 2 := fcf.extractLsb' 14 2

/-! ### Header and payload length -/

/-- `mac_hdrlen(f)`: the header length from the FCF bits alone (R101). Modes none and reserved count as
short. -/
def macHdrlen (f : List Byte) : Except ErrorStatus Nat :=
  if f.length < Config.minMac then .error .tooShort
  else
    let fcf := macFcf f
    .ok (9 + (if fcfDam fcf = 3#2 then 6 else 0) + (if fcfSam fcf = 3#2 then 6 else 0)
      + (if fcfIntra fcf then 0 else 2))

/-- `mac_payloadlen(f)` (R102). -/
def macPayloadlen (f : List Byte) : Except ErrorStatus Nat := do
  let h ← macHdrlen f
  if f.length < h then .error .tooShort else .ok (f.length - h)

/-! ### Addressing fields (R104) -/

/-- The width of an address of the given mode: none and reserved are absent, short is 2, extended is 8. -/
def addrWidth (mode : BitVec 2) : Nat := if mode = 2#2 then 2 else if mode = 3#2 then 8 else 0

/-- The width of `dst_pan`. -/
def dstPanWidth (fcf : Half) : Nat := if addrWidth (fcfDam fcf) = 0 then 0 else 2

/-- The width of `src_pan`. -/
def srcPanWidth (fcf : Half) : Nat := if addrWidth (fcfSam fcf) = 0 || fcfIntra fcf then 0 else 2

/-- The range of a field of width `w` at `off`; a field of width 0 is absent. -/
def rangeAt (off w : Nat) : Range := if w = 0 then Range.absent else ⟨off, w⟩

/-- The ranges of the four addressing fields and the offset of the first byte after them. -/
structure MacAddr where
  dstPan : Range
  dstAddr : Range
  srcPan : Range
  srcAddr : Range
  off : Nat
  deriving DecidableEq, Repr

/-- `mac_addr(f)`; its last component is `mhr_len(f)`. -/
def macAddr (f : List Byte) : Except ErrorStatus MacAddr :=
  if f.length < 3 then .error .tooShort
  else
    let fcf := macFcf f
    let o1 := 3
    let o2 := o1 + dstPanWidth fcf
    let o3 := o2 + addrWidth (fcfDam fcf)
    let o4 := o3 + srcPanWidth fcf
    let off := o4 + addrWidth (fcfSam fcf)
    if f.length < off then .error .tooShort
    else .ok {
      dstPan := rangeAt o1 (dstPanWidth fcf)
      dstAddr := rangeAt o2 (addrWidth (fcfDam fcf))
      srcPan := rangeAt o3 (srcPanWidth fcf)
      srcAddr := rangeAt o4 (addrWidth (fcfSam fcf))
      off := off }

/-! ### chop (R105 to R107) -/

/-- What a chop returns: the fields of SLOT[0], SLOT[1], …, and the offset at which the payload starts. -/
structure Chop where
  fields : List Range
  off : Nat
  deriving DecidableEq, Repr

/-- `BW`: the widths of the nine beacon fields (R107). -/
def beaconWidths : List Nat := [2, 1, 1, 1, 1, 1, 8, 3, 1]

/-- The beacon fields of the given widths from `off`, in order while they fit whole into `len` bytes; the first
that does not fit and all after it are absent (R105, R107). -/
def beaconFields (len : Nat) : Nat → List Nat → List Range × Nat
  | off, [] => ([], off)
  | off, w :: ws =>
    if off + w ≤ len then
      let (rs, e) := beaconFields len (off + w) ws
      (⟨off, w⟩ :: rs, e)
    else (List.replicate (ws.length + 1) Range.absent, off)

/-- The range of everything from `off`, absent when nothing is left: the payload slot of the three chops. -/
def restOf (f : List Byte) (off : Nat) : Range :=
  if off < f.length then ⟨off, f.length - off⟩ else Range.absent

/-- SLOT[6..14] of a chop that starts the beacon sub-structure at `off`, and the offset after it: nothing is
taken unless `ftype = 0` (R105). -/
def beaconPart (f : List Byte) (off : Nat) : List Range × Nat :=
  if fcfType (macFcf f) = 0#3 then beaconFields f.length off beaconWidths
  else (List.replicate 9 Range.absent, off)

/-- `mac_chop(f)` (R105), with the slots of R106; SLOT[15], the unnamed tenth beacon field, is always
absent. -/
def macChop (f : List Byte) : Except ErrorStatus Chop := do
  let a ← macAddr f
  let (beacon, off) := beaconPart f a.off
  .ok {
    fields := [⟨0, 2⟩, ⟨2, 1⟩, a.dstPan, a.dstAddr, a.srcPan, a.srcAddr] ++ beacon
      ++ [Range.absent, restOf f off]
    off := off }

/-! ### Nonce (R108, R109) -/

/-- `mac_nonce(f)`: the 13-byte nonce, or the empty sequence where it is absent (R109). -/
def macNonce (f : List Byte) : Except ErrorStatus (List Byte) :=
  if f.length < 3 then .error .tooShort
  else if !fcfSec (macFcf f) then .ok []
  else do
    let a ← macAddr f
    if a.srcAddr.len ≠ 8 || f.length - a.off < 5 then .ok []
    else .ok ((slice f a.srcAddr.off (a.srcAddr.off + 8)).reverse
      ++ (slice f (a.off + 1) (a.off + 5)).reverse ++ slice f a.off (a.off + 1))

/-! ### Commands -/

/-- A scalar result (R110, R111). -/
def scalarEffect (n : Nat) : Effect := { result := n }

/-- A chop result (R112). -/
def chopEffect (c : Chop) : Effect := { result := c.off, fields := c.fields }

/-- MAC_HDRLEN (R110). -/
def execMacHdrlen (s : State) : Result := withFrame s fun f => (macHdrlen f).map scalarEffect

/-- MAC_PAYLEN (R111). -/
def execMacPaylen (s : State) : Result := withFrame s fun f => (macPayloadlen f).map scalarEffect

/-- MAC_CHOP (R112). -/
def execMacChop (s : State) : Result := withFrame s fun f => (macChop f).map chopEffect

/-- MAC_NONCE (R113). -/
def execMacNonce (s : State) : Result := withFrame s fun f => (macNonce f).map fun n => { out := n }

end Sys2Proof.Machine
end

