-- ==== Sys2Proof/Machine/Nwk.lean ====
section
/-! DEFINITION. The ZigBee NWK codec (`42_nwk_codec.md`): the pure functions of R120 to R125 and the commands
NWK_HDRLEN, NWK_PAYLEN and NWK_CHOP (R127 to R129). -/

namespace Sys2Proof.Machine

/-! ### Frame control (R120) -/

/-- `nfc = le16(f, 0)`. -/
def nwkNfc (f : List Byte) : Half := le16 f 0

/-- `mc`, bit 8: the multicast control field is present. -/
def nfcMulticast (nfc : Half) : Bool := nfc.getLsbD 8

/-- `sr`, bit 10: the source-route subframe is present. -/
def nfcSourceRoute (nfc : Half) : Bool := nfc.getLsbD 10

/-- `xd`, bit 11: the extended destination is present. -/
def nfcExtDest (nfc : Half) : Bool := nfc.getLsbD 11

/-- `xs`, bit 12: the extended source is present. -/
def nfcExtSource (nfc : Half) : Bool := nfc.getLsbD 12

/-! ### Functions -/

/-- The local helper `take` of R123 and R140, for a field announced by `present`: its range and the offset
after it. A field that is not announced is absent and takes no bytes; an announced field that does not fit is
`TooShort`; an announced field of no bytes is reported as absent (R122). -/
def takeField (f : List Byte) (present : Bool) (off w : Nat) : Except ErrorStatus (Range × Nat) :=
  if present then
    if f.length < off + w then .error .tooShort else .ok (rangeAt off w, off + w)
  else .ok (Range.absent, off)

/-- `nwk_chop(f)` (R123), with the slots of R124. -/
def nwkChop (f : List Byte) : Except ErrorStatus Chop :=
  if f.length < 8 then .error .tooShort
  else do
    let nfc := nwkNfc f
    let sr := nfcSourceRoute nfc
    let (extDest, off) ← takeField f (nfcExtDest nfc) 8 8
    let (extSource, off) ← takeField f (nfcExtSource nfc) off 8
    let (multicast, off) ← takeField f (nfcMulticast nfc) off 1
    let (count, off) ← takeField f sr off 1
    let (index, off) ← takeField f sr off 1
    let (relays, off) ← takeField f sr off (2 * (byteAt f count.off).toNat)
    .ok {
      fields := [⟨0, 2⟩, ⟨2, 2⟩, ⟨4, 2⟩, ⟨6, 1⟩, ⟨7, 1⟩, extDest, extSource, multicast, count, index,
        relays, restOf f off]
      off := off }

/-- `nwk_hdrlen(f)`: the offset the chop finds (R125). -/
def nwkHdrlen (f : List Byte) : Except ErrorStatus Nat := (nwkChop f).map Chop.off

/-- `nwk_payloadlen(f)` (R125). -/
def nwkPayloadlen (f : List Byte) : Except ErrorStatus Nat := (nwkHdrlen f).map fun h => f.length - h

/-! ### Commands -/

/-- NWK_HDRLEN (R127). -/
def execNwkHdrlen (s : State) : Result := withFrame s fun f => (nwkHdrlen f).map scalarEffect

/-- NWK_PAYLEN (R128). -/
def execNwkPaylen (s : State) : Result := withFrame s fun f => (nwkPayloadlen f).map scalarEffect

/-- NWK_CHOP (R129). -/
def execNwkChop (s : State) : Result := withFrame s fun f => (nwkChop f).map chopEffect

end Sys2Proof.Machine
end

