-- ==== Sys2Proof/Machine/Aps.lean ====
section
/-! DEFINITION. The ZigBee APS codec (`43_aps_codec.md`): the pure functions of R135 to R141 and the commands
APS_HDRLEN, APS_PAYLEN and APS_CHOP (R143 to R145). -/

namespace Sys2Proof.Machine

/-! ### Frame control (R135) -/

/-- `atype`, bits 1:0. -/
def afcType (afc : Byte) : BitVec 2 := afc.extractLsb' 0 2

/-- `dm`, bits 3:2: 0 unicast, 1 indirect, 2 broadcast, 3 group (R142). -/
def afcDelivery (afc : Byte) : BitVec 2 := afc.extractLsb' 2 2

/-- `b4`, bit 4. -/
def afcB4 (afc : Byte) : Bool := afc.getLsbD 4

/-- `ext`, bit 7: the extended header is present. -/
def afcExt (afc : Byte) : Bool := afc.getLsbD 7

/-! ### Field presence (R136, R138) -/

/-- `t`: the frame type with the reserved value 3 read as Data (R146). -/
def apsType (afc : Byte) : BitVec 2 := if afcType afc = 3#2 then 0#2 else afcType afc

/-- `addr`: a Data frame, or an Ack in the format that carries addressing. -/
def apsHasAddr (afc : Byte) : Bool := apsType afc = 0#2 || (apsType afc = 2#2 && !afcB4 afc)

/-- The destination endpoint is present. -/
def apsHasDst (afc : Byte) : Bool :=
  apsHasAddr afc && (afcDelivery afc = 0#2 || afcDelivery afc = 2#2 || (afcDelivery afc = 1#2 && !afcB4 afc))

/-- The group address is present. -/
def apsHasGroup (afc : Byte) : Bool := apsHasAddr afc && afcDelivery afc = 3#2

/-- The source endpoint is present. -/
def apsHasSrc (afc : Byte) : Bool := apsHasAddr afc && (afcDelivery afc ≠ 1#2 || afcB4 afc)

/-- The extended frame control announces a block number (R138). -/
def xfcFragmented (xfc : Byte) : Bool := xfc.extractLsb' 0 2 ≠ 0#2

/-! ### Functions -/

/-- `aps_chop(f)` (R140), with the slots of R139. -/
def apsChop (f : List Byte) : Except ErrorStatus Chop :=
  if f.length < 1 then .error .tooShort
  else do
    let afc := byteAt f 0
    let (dst, off) ← takeField f (apsHasDst afc) 1 1
    let (group, off) ← takeField f (apsHasGroup afc) off 2
    let (cluster, off) ← takeField f (apsHasAddr afc) off 2
    let (profile, off) ← takeField f (apsHasAddr afc) off 2
    let (src, off) ← takeField f (apsHasSrc afc) off 1
    let (counter, off) ← takeField f true off 1
    let (xfc, off) ← takeField f (afcExt afc) off 1
    let (block, off) ← takeField f (afcExt afc && xfcFragmented (byteAt f xfc.off)) off 1
    .ok {
      fields := [⟨0, 1⟩, dst, group, cluster, profile, src, counter, xfc, block, restOf f off]
      off := off }

/-- `aps_hdrlen(f)`: the offset the chop finds (R141). -/
def apsHdrlen (f : List Byte) : Except ErrorStatus Nat := (apsChop f).map Chop.off

/-- `aps_payloadlen(f)` (R141). -/
def apsPayloadlen (f : List Byte) : Except ErrorStatus Nat := (apsHdrlen f).map fun h => f.length - h

/-! ### Commands -/

/-- APS_HDRLEN (R143). -/
def execApsHdrlen (s : State) : Result := withFrame s fun f => (apsHdrlen f).map scalarEffect

/-- APS_PAYLEN (R144). -/
def execApsPaylen (s : State) : Result := withFrame s fun f => (apsPayloadlen f).map scalarEffect

/-- APS_CHOP (R145). -/
def execApsChop (s : State) : Result := withFrame s fun f => (apsChop f).map chopEffect

end Sys2Proof.Machine
end

