-- ==== Sys2Proof/WellFormed.lean ====
section
/-! DEFINITION. Which arguments are legal (`30_encoding.md` R71, R74). -/

namespace Sys2Proof

/-- A legal slot index, 0 to 16 (R71). -/
def legalSlot (s : Byte) : Bool := s.toNat < Config.nslot

/-- A legal SPLICE byte count, 0 to 127; that it is at most the length of FRAME is SPLICE's own check (R71). -/
def legalCount (n : Byte) : Bool := n.toNat ≤ Config.maxFrame

/-- A legal MIC length, 4, 8 or 16 (R71). -/
def legalMic (m : Byte) : Bool := m = 4#8 || m = 8#8 || m = 16#8

/-- The command's argument is one that `30_encoding.md` R74 allows. -/
def Instr.wf : Instr → Bool
  | .nop => true
  | .reset => true
  | .narrow s => legalSlot s
  | .movof => true
  | .movoa => true
  | .splice n => legalCount n
  | .macHdrlen => true
  | .macPaylen => true
  | .macChop => true
  | .macNonce => true
  | .nwkHdrlen => true
  | .nwkPaylen => true
  | .nwkChop => true
  | .apsHdrlen => true
  | .apsPaylen => true
  | .apsChop => true
  | .aesEnc => true
  | .ccmEnc m => legalMic m
  | .ccmDec m => legalMic m
  | .secDecrypt => true
  | .secEncrypt => true
  | .fcsCalc => true
  | .fcsCheck => true
  | .fcsAppend => true

end Sys2Proof
end

