-- ==== Sys2Proof/Machine/Ccm.lean ====
section
/-! DEFINITION. The CCM* core (`45_ccm_security.md` R165 to R175) and the commands CCM_ENC and CCM_DEC (R176,
R177). -/

namespace Sys2Proof.Machine

/-! ### Blocks -/

/-- The counter block `A(N, i)` (R168): the flags byte is `L - 1`. -/
def counterBlock (nonce : List Byte) (i : Nat) : List Byte := [0x01#8] ++ nonce ++ be16 i

/-- `bflags` of R169. -/
def b0Flags (aadLen mic : Nat) : Byte :=
  BitVec.ofNat 8 ((if 0 < aadLen then 0x40 else 0) + 8 * ((mic - 2) / 2) + 1)

/-- The first authentication block `B0(N, a, m, M)` (R169). -/
def b0Block (nonce aad msg : List Byte) (mic : Nat) : List Byte :=
  [b0Flags aad.length mic] ++ nonce ++ be16 msg.length

/-- `ablocks(a)` (R170). -/
def aadBlocks (aad : List Byte) : List Byte :=
  if aad.length = 0 then [] else pad16 (be16 aad.length ++ aad)

/-- `mblocks(m)` (R171). -/
def messageBlocks (msg : List Byte) : List Byte := pad16 msg

/-- The authentication blocks `B` of R172, one after another. -/
def authBlocks (nonce aad msg : List Byte) (mic : Nat) : List Byte :=
  b0Block nonce aad msg mic ++ aadBlocks aad ++ messageBlocks msg

/-! ### CBC-MAC and counter mode -/

/-- One step of CBC-MAC on block `i` of `b` (R172). -/
def cbcStep (key b x : List Byte) (i : Nat) : List Byte :=
  aesEnc key (xorBytes x (slice b (16 * i) (16 * i + 16)))

/-- `cbc_mac(K, N, a, m, M)` (R172). -/
def cbcMac (key nonce aad msg : List Byte) (mic : Nat) : List Byte :=
  let b := authBlocks nonce aad msg mic
  ((List.range (b.length / 16)).foldl (cbcStep key b) (zeros 16)).take mic

/-- The keystream `E(K, A(N, 1)) ++ … ++ E(K, A(N, n))` (R173). -/
def keystream (key nonce : List Byte) (n : Nat) : List Byte :=
  (List.range' 1 n).flatMap fun i => aesEnc key (counterBlock nonce i)

/-- `ctr(K, N, d)` (R173). -/
def ctr (key nonce d : List Byte) : List Byte :=
  xorBytes d ((keystream key nonce ((d.length + 15) / 16)).take d.length)

/-- `S0(K, N)` (R173). -/
def s0 (key nonce : List Byte) : List Byte := aesEnc key (counterBlock nonce 0)

/-! ### Encryption and decryption -/

/-- `ccm_encrypt(K, N, a, m, M)` (R174): ciphertext and MIC. -/
def ccmEncrypt (key nonce aad msg : List Byte) (mic : Nat) : List Byte :=
  ctr key nonce msg ++ xorBytes (cbcMac key nonce aad msg mic) ((s0 key nonce).take mic)

/-- `ccm_decrypt(K, N, a, c, U)` (R175). -/
def ccmDecrypt (key nonce aad c u : List Byte) : Except ErrorStatus (List Byte) :=
  let m := ctr key nonce c
  if xorBytes ((s0 key nonce).take u.length) u = cbcMac key nonce aad m u.length then .ok m
  else .error .authenticationFailure

/-! ### Commands -/

/-- The body of CCM_ENC (R176). -/
def ccmEncBody (mic : Nat) (key nonce aad aux : List Byte) : Ending :=
  if key.length ≠ Config.keyLen then .error .badKeyLength
  else if nonce.length ≠ Config.nonceLen then .error .noNonce
  else if Config.maxFrame < aux.length + mic then .error .frameTooLong
  else .ok { out := ccmEncrypt key nonce aad aux mic }

/-- The effect of a decryption that returned a plaintext: AUTH_OK is set (R177, R180). -/
def plaintextEffect (p : List Byte) : Effect := { out := p, authOk := true }

/-- The body of CCM_DEC (R177). -/
def ccmDecBody (mic : Nat) (key nonce aad aux : List Byte) : Ending :=
  if key.length ≠ Config.keyLen then .error .badKeyLength
  else if nonce.length ≠ Config.nonceLen then .error .noNonce
  else if aux.length < mic then .error .badPayloadLength
  else
    (ccmDecrypt key nonce aad (slice aux 0 (aux.length - mic)) (slice aux (aux.length - mic) aux.length)).map
      plaintextEffect

/-- CCM_ENC M (R176). -/
def execCcmEnc (m : Byte) (s : State) : Result :=
  if legalMic m then
    withOperands [.key, .nonce, .aad, .aux] s
      (ccmEncBody m.toNat (s.bytes .key) (s.bytes .nonce) (s.bytes .aad) (s.bytes .aux))
  else illegal s

/-- CCM_DEC M (R177). -/
def execCcmDec (m : Byte) (s : State) : Result :=
  if legalMic m then
    withOperands [.key, .nonce, .aad, .aux] s
      (ccmDecBody m.toNat (s.bytes .key) (s.bytes .nonce) (s.bytes .aad) (s.bytes .aux))
  else illegal s

end Sys2Proof.Machine
end

