-- ==== Sys2Proof/Machine/Fcs.lean ====
section
/-! DEFINITION. The frame check sequence (`46_fcs.md` R190, R191) and the commands FCS_CALC, FCS_CHECK and
FCS_APPEND (R192 to R194). -/

namespace Sys2Proof.Machine

/-- `crc = (crc >> 4) ^ (q * 0x1081)` with `q = (crc ^ c) & 0xF` (R191). -/
def crcNibble (crc c : Half) : Half := (crc >>> 4) ^^^ (((crc ^^^ c) &&& 0xF#16) * 0x1081#16)

/-- Both nibbles of a byte, the low one first (R191). -/
def crcByte (crc : Half) (c : Byte) : Half :=
  let v : Half := c.zeroExtend 16
  crcNibble (crcNibble crc v) (v >>> 4)

/-- The CRC over a byte sequence from a start value. -/
def crcFrom (crc : Half) (d : List Byte) : Half := d.foldl crcByte crc

/-- `fcs(d)`: the CRC from start value 0, little-endian (R191, `20_memory.md` R56). -/
def fcs (d : List Byte) : List Byte := [lowByte (crcFrom 0#16 d), highByte (crcFrom 0#16 d)]

/-- The last two bytes of a frame are the FCS of the bytes before them (R193). -/
def fcsMatches (frame : List Byte) : Bool :=
  fcs (slice frame 0 (frame.length - 2)) = slice frame (frame.length - 2) frame.length

/-- The body of FCS_CHECK (R193). -/
def fcsCheckBody (frame : List Byte) : Ending :=
  if frame.length < 2 then .error .tooShort else .ok { crcOk := fcsMatches frame }

/-- The body of FCS_APPEND (R194). -/
def fcsAppendBody (frame : List Byte) : Ending :=
  if Config.maxInject < frame.length then .error .frameTooLong else .ok { out := frame ++ fcs frame }

/-- FCS_CALC (R192). -/
def execFcsCalc (s : State) : Result := withOperands [.frame] s (.ok { out := fcs (s.bytes .frame) })

/-- FCS_CHECK (R193). -/
def execFcsCheck (s : State) : Result := withOperands [.frame] s (fcsCheckBody (s.bytes .frame))

/-- FCS_APPEND (R194). -/
def execFcsAppend (s : State) : Result := withOperands [.frame] s (fcsAppendBody (s.bytes .frame))

end Sys2Proof.Machine
end

