-- ==== Sys2Proof/Machine/Move.lean ====
section
/-! DEFINITION. The data-movement commands NARROW, MOVOF, MOVOA and SPLICE (`40_system_move.md` R92 to R95). -/

namespace Sys2Proof.Machine

/-- SLOT[k]; `(0, 0)` outside 0 to 16, where no rule looks. -/
def State.slot (s : State) (k : Nat) : Slot := (s.slots[k]?).getD Slot.empty

/-- The byte range of FRAME that a slot names becomes the new FRAME (R92). -/
def narrow (slot : Slot) (frame : List Byte) : Ending :=
  if frame.length < slot.off.toNat + slot.len.toNat then .error .tooShort
  else .ok { replaces := some (.frame, slice frame slot.off.toNat (slot.off.toNat + slot.len.toNat)) }

/-- NARROW s (R92). -/
def execNarrow (k : Byte) (s : State) : Result :=
  if legalSlot k then withOperands [.frame] s (narrow (s.slot k.toNat) (s.bytes .frame)) else illegal s

/-- MOVOF (R93): FRAME becomes OUT. -/
def execMovof (s : State) : Result :=
  withOperands [.out] s (.ok { replaces := some (.frame, s.bytes .out) })

/-- MOVOA (R94): AUX becomes OUT. -/
def execMovoa (s : State) : Result :=
  withOperands [.out] s (.ok { replaces := some (.aux, s.bytes .out) })

/-- The first `n` bytes of FRAME and then AUX (R95). -/
def splice (n : Nat) (frame aux : List Byte) : Ending :=
  if frame.length < n then .error .tooShort
  else if Config.maxFrame < n + aux.length then .error .frameTooLong
  else .ok { out := slice frame 0 n ++ aux }

/-- SPLICE n (R95). -/
def execSplice (n : Byte) (s : State) : Result :=
  if legalCount n then withOperands [.frame, .aux] s (splice n.toNat (s.bytes .frame) (s.bytes .aux))
  else illegal s

end Sys2Proof.Machine
end

