-- ==== Sys2Proof/Machine/Sec.lean ====
section
/-! DEFINITION. The frame-level security transform (`45_ccm_security.md` R178, R179) and the commands
SEC_DECRYPT and SEC_ENCRYPT (R180, R181). -/

namespace Sys2Proof.Machine

/-- `sec_parse(f, key_len, need)`: the common checks in their order (R179, `60_exceptions.md` R206). It returns
`H`; the MAC payload is `f[H..)`. -/
def secParse (f : List Byte) (keyLen need : Nat) : Except ErrorStatus Nat :=
  if f.length < Config.minMac then .error .tooShort
  else do
    let a ← macAddr f
    if !fcfSec (macFcf f) then .error .unsupportedSecurityLevel
    else if f.length - a.off = 0 then .error .badPayloadLength
    else if byteAt f a.off ≠ Config.levelEncMic64 then .error .unsupportedSecurityLevel
    else if f.length - a.off < need then .error .badPayloadLength
    else if keyLen ≠ Config.keyLen then .error .badKeyLength
    else .ok a.off

/-- `N = mac_nonce(f)`, which must be a whole nonce (R180, R181). -/
def secNonce (f : List Byte) : Except ErrorStatus (List Byte) := do
  let n ← macNonce f
  if n.length ≠ Config.nonceLen then .error .noNonce else .ok n

/-- The authenticated data `a = f[0 .. H+6)` (R178). -/
def secAad (f : List Byte) (h : Nat) : List Byte := slice f 0 (h + Config.preambleLen)

/-- The body of SEC_DECRYPT on `f = EF` (R180). -/
def secDecryptBody (f key : List Byte) : Ending := do
  let h ← secParse f key.length Config.minSecPayload
  let n ← secNonce f
  let c := slice f (h + Config.preambleLen) (f.length - Config.frameMic)
  let u := slice f (f.length - Config.frameMic) f.length
  (ccmDecrypt key n (secAad f h) c u).map plaintextEffect

/-- The body of SEC_ENCRYPT on `f = EF` (R181). -/
def secEncryptBody (f aux key : List Byte) : Ending := do
  let h ← secParse f key.length Config.preambleLen
  if aux.length = 0 then .error .badPayloadLength
  else if Config.maxFrame < h + Config.preambleLen + aux.length + Config.frameMic then .error .frameTooLong
  else do
    let n ← secNonce f
    .ok { out := ccmEncrypt key n (secAad f h) aux Config.frameMic }

/-- SEC_DECRYPT (R180). -/
def execSecDecrypt (s : State) : Result :=
  withOperands [.frame, .key] s
    (effectiveFrame s.cfg (s.bytes .frame) >>= fun f => secDecryptBody f (s.bytes .key))

/-- SEC_ENCRYPT (R181). -/
def execSecEncrypt (s : State) : Result :=
  withOperands [.frame, .aux, .key] s
    (effectiveFrame s.cfg (s.bytes .frame) >>= fun f => secEncryptBody f (s.bytes .aux) (s.bytes .key))

end Sys2Proof.Machine
end

