-- ==== Sys2Proof/Machine/System.lean ====
section
/-! DEFINITION. The system commands NOP and RESET (`40_system_move.md` R90, R91). -/

namespace Sys2Proof.Machine

/-- NOP (R90): only the result record is cleared. -/
def execNop (s : State) : Result := .next (complete {} s)

/-- RESET (R91): the block takes its reset state; DONE is 0. -/
def execReset (s : State) : Result := .next s.resetBlock

end Sys2Proof.Machine
end

