-- ==== Sys2Proof/Machine/Dispatch.lean ====
section
/-! DEFINITION. One arm per command (`30_encoding.md` R72), each one call of the command's meaning. -/

namespace Sys2Proof.Machine

def exec (i : Instr) (s : State) : Host.Outcome State Fault Refusal :=
  match i with
  | .nop => Sys2Proof.Machine.execNop s
  | .reset => Sys2Proof.Machine.execReset s
  | .narrow k => Sys2Proof.Machine.execNarrow k s
  | .movof => Sys2Proof.Machine.execMovof s
  | .movoa => Sys2Proof.Machine.execMovoa s
  | .splice n => Sys2Proof.Machine.execSplice n s
  | .macHdrlen => Sys2Proof.Machine.execMacHdrlen s
  | .macPaylen => Sys2Proof.Machine.execMacPaylen s
  | .macChop => Sys2Proof.Machine.execMacChop s
  | .macNonce => Sys2Proof.Machine.execMacNonce s
  | .nwkHdrlen => Sys2Proof.Machine.execNwkHdrlen s
  | .nwkPaylen => Sys2Proof.Machine.execNwkPaylen s
  | .nwkChop => Sys2Proof.Machine.execNwkChop s
  | .apsHdrlen => Sys2Proof.Machine.execApsHdrlen s
  | .apsPaylen => Sys2Proof.Machine.execApsPaylen s
  | .apsChop => Sys2Proof.Machine.execApsChop s
  | .aesEnc => Sys2Proof.Machine.execAesEnc s
  | .ccmEnc m => Sys2Proof.Machine.execCcmEnc m s
  | .ccmDec m => Sys2Proof.Machine.execCcmDec m s
  | .secDecrypt => Sys2Proof.Machine.execSecDecrypt s
  | .secEncrypt => Sys2Proof.Machine.execSecEncrypt s
  | .fcsCalc => Sys2Proof.Machine.execFcsCalc s
  | .fcsCheck => Sys2Proof.Machine.execFcsCheck s
  | .fcsAppend => Sys2Proof.Machine.execFcsAppend s

end Sys2Proof.Machine
end

