-- ==== Sys2Proof/Machine/Bus.lean ====
section
/-! DEFINITION. The host bus (`20_memory.md`): the address map (R52), byte reads and writes, the command port
(`10_state.md` R36, R61), and one host action. -/

namespace Sys2Proof.Machine

/-! ### The address map (R52) -/

/-- What a bus address names. Of a 16-bit register, `Low` is bits 7:0 and lies at the lower address (R53). -/
inductive BusTarget where
  | cmdLow
  | cmdHigh
  | statusLow
  | statusHigh
  | cfgLow
  | cfgHigh
  | resultLow
  | resultHigh
  | length (b : Buf)
  /-- Byte `i` of a buffer's array. -/
  | array (b : Buf) (i : Nat)
  | slotOff (k : Nat)
  | slotLen (k : Nat)
  | reserved
  deriving DecidableEq, Repr

/-- The addresses from 0x010 on: slots, buffer arrays and reserved addresses (R52). -/
def arrayTarget (a : Nat) : BusTarget :=
  if 0x040 ≤ a && a < 0x040 + 2 * Config.nslot then
    if a % 2 = 0 then .slotOff ((a - 0x040) / 2) else .slotLen ((a - 0x040) / 2)
  else match Buf.all.find? fun b => b.holds a with
    | some b => .array b (a - b.base)
    | none => .reserved

/-- The address map of R52. -/
def busTarget (a : Nat) : BusTarget :=
  match a with
  | 0x000 => .cmdLow
  | 0x001 => .cmdHigh
  | 0x002 => .statusLow
  | 0x003 => .statusHigh
  | 0x004 => .cfgLow
  | 0x005 => .cfgHigh
  | 0x006 => .resultLow
  | 0x007 => .resultHigh
  | 0x008 => .length .frame
  | 0x009 => .length .aux
  | 0x00A => .length .aad
  | 0x00B => .length .key
  | 0x00C => .length .nonce
  | 0x00D => .length .out
  | a => arrayTarget a

/-! ### Byte reads -/

/-- A byte of a buffer array as a bus read shows it: KEY reads 0 (`10_state.md` R27); a byte without a defined
value, and a byte of OUT at OUT_LEN and above, reads as any value (R52, `93_implementation_defined.md` U1;
assumption log 5). -/
def arrayByte (s : State) (b : Buf) (i : Nat) : Byte :=
  let address := b.base + i
  match b with
  | .key => 0#8
  | .out =>
    if i < s.outLen.toNat then (s.mem.read address).getD (Config.unspecifiedByte s.accesses address)
    else Config.unspecifiedByte s.accesses address
  | .frame | .aux | .aad | .nonce =>
    (s.mem.read address).getD (Config.unspecifiedByte s.accesses address)

/-- `MemRead(a, 1)` (R50, R52): no read changes the block (R62). -/
def busRead (s : State) (a : Nat) : Byte :=
  match busTarget a with
  | .cmdLow => 0#8
  | .cmdHigh => 0#8
  | .statusLow => lowByte s.status
  | .statusHigh => highByte s.status
  | .cfgLow => lowByte s.cfg
  | .cfgHigh => highByte s.cfg
  | .resultLow => lowByte s.result
  | .resultHigh => highByte s.result
  | .length .key => 0#8
  | .length b => s.len b
  | .array b i => arrayByte s b i
  | .slotOff k => (s.slot k).off
  | .slotLen k => (s.slot k).len
  | .reserved => 0#8

/-! ### Byte writes -/

/-- Executes a command word; a word that is no command ends with `IllegalCommand` (`30_encoding.md` R74). -/
def executeWord (w : Half) (s : State) : Result :=
  match decode w with
  | .ok i => exec i s
  | .error _ => illegal s

/-- A write of `v` to 0x001 (`10_state.md` R36): executes `v * 256 + CMD_LO`, and then `CMD_LO <- 0`. -/
def writeCommandHigh (v : Byte) (s : State) : Result :=
  Result.andThen (executeWord (commandWord s.cmdLo v) s) fun t => .next { t with cmdLo := 0#8 }

/-- `MemWrite(a, 1, v)` (R50, R52): writes to read-only items and to reserved addresses are ignored, and so are
writes to CFG bits 15:1 (`10_state.md` R35). -/
def busWrite (a : Nat) (v : Byte) (s : State) : Result :=
  match busTarget a with
  | .cmdLow => .next { s with cmdLo := v }
  | .cmdHigh => writeCommandHigh v s
  | .statusLow => .next s
  | .statusHigh => .next s
  | .cfgLow => .next { s with cfg := cfgWord (v.getLsbD 0) }
  | .cfgHigh => .next s
  | .resultLow => .next s
  | .resultHigh => .next s
  | .length .out => .next s
  | .length b => .next (s.setLen b v)
  | .array .out _ => .next s
  | .array b i => .next { s with mem := s.mem.write (b.base + i) v }
  | .slotOff _ => .next s
  | .slotLen _ => .next s
  | .reserved => .next s

/-! ### Host actions -/

/-- The address of the second byte of a 2-byte access at `a`: `a + 1` (R60). Behind 0x3FF, the last address of 10
bits, the spec names no byte: it is 0x000 or an address that the map does not list (assumption log 7). -/
def secondAddress (s : State) (a : BusAddr) : Nat :=
  if a.toNat + 1 < Config.busBytes then a.toNat + 1
  else if Config.pairWraps s.accesses then 0x000 else Config.busBytes

/-- One host action. A 2-byte access, at any address, is two byte accesses, the one at `a` first (R60). -/
def perform (x : HostAction) (s : State) : Result :=
  match x with
  | .read8 a => .next { s with reply := [busRead s a.toNat] }
  | .read16 a => .next { s with reply := [busRead s a.toNat, busRead s (secondAddress s a)] }
  | .write8 a v => busWrite a.toNat v s
  | .write16 a v => Result.andThen (busWrite a.toNat (lowByte v) s) (busWrite (secondAddress s a) (highByte v))
  | .powerOn => .next s.resetBlock

/-- The state in which the next host action takes place: the action is off the list and counted. -/
def State.taken (s : State) (rest : List HostAction) : State :=
  { s with pending := rest, accesses := s.accesses + 1 }

/-- The next host action takes place; with none left the block waits as it is (`10_state.md` R31,
`70_reset_and_hazards.md` R231; assumption log 2). -/
def nextAction (s : State) : Result :=
  match s.pending with
  | [] => .next s
  | x :: rest => perform x (s.taken rest)

/-- The host's next action is the write of a whole command word: `MemWrite(0x000, 2, w)`. -/
def State.presentWord (s : State) (w : Half) : State :=
  { s with pending := .write16 0x000#10 w :: s.pending }

/-- The command word of an instruction of `nbits` bits whose bits are `w`, as the opcode table numbers them. -/
def tableHalf (nbits w : Nat) : Half := BitVec.ofNat 16 (w % 2 ^ nbits)

end Sys2Proof.Machine
end

