-- ==== Sys2Proof/Machine/Step.lean ====
section
/-! DEFINITION. One step of the machine: the host's next action (`20_memory.md` R63), and with it the command it
completes. -/

namespace Sys2Proof.Machine

/-- One step. -/
def step (s : State) : Host.Outcome State Fault Refusal := nextAction s

/-- The state whose next step is the host's write of the given command word to CMD (assumption log 1). -/
def State.withFetchWord (s : State) (nbits w : Nat) : State := s.presentWord (tableHalf nbits w)

end Sys2Proof.Machine
end

