-- ==== Sys2Proof/Machine/Script.lean ====
section
/-! DEFINITION. Host scripts (`30_encoding.md` R78, R79): each line as the host actions it stands for. -/

namespace Sys2Proof.Machine

/-- One line of a script. -/
inductive ScriptLine where
  /-- `LDF`, `LDA`, `LDD`, `LDK`, `LDN`: loads an operand buffer whole. -/
  | load (b : Buf) (bytes : List Byte)
  /-- `CFG v`. -/
  | cfg (v : Half)
  /-- `<MNEMONIC>` or `<MNEMONIC> arg`. -/
  | command (opc arg : Byte)
  /-- `RD STATUS`. -/
  | rdStatus
  /-- `RD RESULT`. -/
  | rdResult
  /-- `RD OUT`: OUT_LEN, and then the `n` bytes the host takes OUT to have (assumption log 11). -/
  | rdOut (n : Nat)
  /-- `RD SLOT k`. -/
  | rdSlot (k : Nat)
  /-- `FCS_STRIP`, for a host that knows FRAME_LEN to be `frameLen` (R79). -/
  | fcsStrip (frameLen : Byte)
  /-- `SEAL n` (R79). -/
  | sealFrame (n : Byte)
  deriving DecidableEq, Repr

/-- The address of a length register (`20_memory.md` R52). -/
def lengthAddress : Buf → BusAddr
  | .frame => 0x008#10
  | .aux => 0x009#10
  | .aad => 0x00A#10
  | .key => 0x00B#10
  | .nonce => 0x00C#10
  | .out => 0x00D#10

/-- Single-byte writes at rising addresses. -/
def writesFrom : Nat → List Byte → List HostAction
  | _, [] => []
  | a, v :: vs => .write8 (BitVec.ofNat 10 a) v :: writesFrom (a + 1) vs

/-- The bus write of a command word (R78). -/
def commandAction (opc arg : Byte) : HostAction := .write16 0x000#10 (commandWord opc arg)

/-- The host actions of a line (R78, R79). A load writes the bytes and then the length (assumption log 11). -/
def ScriptLine.actions : ScriptLine → List HostAction
  | .load b bytes => writesFrom b.base bytes ++ [.write8 (lengthAddress b) (BitVec.ofNat 8 bytes.length)]
  | .cfg v => [.write16 0x004#10 v]
  | .command opc arg => [commandAction opc arg]
  | .rdStatus => [.read16 0x002#10]
  | .rdResult => [.read16 0x006#10]
  | .rdOut n => .read8 0x00D#10 :: (List.range n).map fun i => .read8 (BitVec.ofNat 10 (Buf.out.base + i))
  | .rdSlot k => [.read16 (BitVec.ofNat 10 (0x040 + 2 * k))]
  | .fcsStrip n => [.write8 (lengthAddress .frame) (n - 2#8)]
  | .sealFrame n => [Instr.secEncrypt, .movoa, .splice n, .movof].map fun i => commandAction i.opcode i.argument

/-- A load is legal on an operand buffer and within its capacity (R78); FCS_STRIP when the host knows
FRAME_LEN and it is at least 2 (R79); the other lines always, on slots and bytes that exist. -/
def ScriptLine.legal (s : State) : ScriptLine → Bool
  | .load b bytes => b ≠ .out && bytes.length ≤ b.cap
  | .fcsStrip n => 2 ≤ n.toNat && n = s.frameLen
  | .rdOut n => n ≤ Config.maxFrame
  | .rdSlot k => k < Config.nslot
  | .cfg _ => true
  | .command _ _ => true
  | .rdStatus => true
  | .rdResult => true
  | .sealFrame _ => true

/-- The host issues actions: they take place after those already issued (`20_memory.md` R63). -/
def State.issue (s : State) (xs : List HostAction) : State := { s with pending := s.pending ++ xs }

end Sys2Proof.Machine
end

