-- ==== Sys2Proof/Safety.lean ====
section
/-! DEFINITION. The terms in which claims about runs are stated: what a command leaves as it was, what result
record it leaves, which buffers it reads, which statuses it may end with, and the invariant of the block. -/

namespace Sys2Proof.Machine

/-- Every slot is `(0, 0)`. -/
def noSlots : Vector Slot Config.nslot := Vector.replicate Config.nslot Slot.empty

/-- Everything outside the buffers `writes` and the registers of the result record is as before: their length
registers, every byte outside their arrays, CFG, CMD_LO and the host's side of the bus. -/
structure Kept (writes : List Buf) (s t : State) : Prop where
  len : ∀ b, b ∉ writes → t.len b = s.len b
  mem : ∀ a, (∀ b, b ∈ writes → b.holds a = false) → t.mem.read a = s.mem.read a
  cfg : t.cfg = s.cfg
  cmdLo : t.cmdLo = s.cmdLo
  pending : t.pending = s.pending
  reply : t.reply = s.reply
  accesses : t.accesses = s.accesses

/-- The result record of `t` (`10_state.md` R39): STATUS, RESULT, the slots and the bytes of OUT. Of the bytes of
OUT_mem at OUT_LEN and above, which the spec leaves unspecified (`20_memory.md` R52), it says nothing. -/
structure RecordIs (t : State) (status result : Half) (slots : Vector Slot Config.nslot) (out : List Byte) :
    Prop where
  status : t.status = status
  result : t.result = result
  slots : t.slots = slots
  outLen : t.outLen.toNat = out.length
  out : ∀ i, i < out.length → t.mem.read (Buf.out.base + i) = out[i]?

/-- The command has ended with the error status `e` and done nothing else (`60_exceptions.md` R207, R208). -/
def EndsWith (e : ErrorStatus) (s t : State) : Prop :=
  RecordIs t (statusWord e.code false false) 0x0000#16 noSlots [] ∧ Kept [.out] s t

/-- `f` is the effective frame of `s` (`00_scope.md` R14). -/
def HasFrame (s : State) (f : List Byte) : Prop :=
  ∃ fr, s.value .frame = some fr ∧
    if s.cfg.getLsbD 0 then 2 ≤ fr.length ∧ f = fr.take (fr.length - 2) else f = fr

end Sys2Proof.Machine

namespace Sys2Proof

open Sys2Proof.Machine

/-- The buffers a command reads (`30_encoding.md` R73). -/
def Instr.reads : Instr → List Buf
  | .nop => []
  | .reset => []
  | .narrow _ => [.frame]
  | .movof => [.out]
  | .movoa => [.out]
  | .splice _ => [.frame, .aux]
  | .macHdrlen => [.frame]
  | .macPaylen => [.frame]
  | .macChop => [.frame]
  | .macNonce => [.frame]
  | .nwkHdrlen => [.frame]
  | .nwkPaylen => [.frame]
  | .nwkChop => [.frame]
  | .apsHdrlen => [.frame]
  | .apsPaylen => [.frame]
  | .apsChop => [.frame]
  | .aesEnc => [.key, .aux]
  | .ccmEnc _ => [.key, .nonce, .aad, .aux]
  | .ccmDec _ => [.key, .nonce, .aad, .aux]
  | .secDecrypt => [.frame, .key]
  | .secEncrypt => [.frame, .aux, .key]
  | .fcsCalc => [.frame]
  | .fcsCheck => [.frame]
  | .fcsAppend => [.frame]

/-- The statuses other than `Ok` a command can end with (`60_exceptions.md` R202). -/
def Instr.mayEndWith : Instr → List ErrorStatus
  | .nop | .reset | .movof | .movoa => [.illegalCommand]
  | .narrow _ | .splice _ => [.tooShort, .illegalCommand, .frameTooLong]
  | .macHdrlen | .macPaylen | .macChop | .macNonce => [.tooShort, .illegalCommand, .frameTooLong]
  | .nwkHdrlen | .nwkPaylen | .nwkChop => [.tooShort, .illegalCommand, .frameTooLong]
  | .apsHdrlen | .apsPaylen | .apsChop => [.tooShort, .illegalCommand, .frameTooLong]
  | .aesEnc => [.badPayloadLength, .badKeyLength, .illegalCommand, .frameTooLong]
  | .ccmEnc _ => [.badKeyLength, .illegalCommand, .frameTooLong, .noNonce]
  | .ccmDec _ =>
    [.badPayloadLength, .badKeyLength, .authenticationFailure, .illegalCommand, .frameTooLong, .noNonce]
  | .secDecrypt =>
    [.tooShort, .badPayloadLength, .unsupportedSecurityLevel, .badKeyLength, .authenticationFailure,
      .illegalCommand, .frameTooLong, .noNonce]
  | .secEncrypt =>
    [.tooShort, .badPayloadLength, .unsupportedSecurityLevel, .badKeyLength, .illegalCommand, .frameTooLong,
      .noNonce]
  | .fcsCalc | .fcsAppend => [.illegalCommand, .frameTooLong]
  | .fcsCheck => [.tooShort, .illegalCommand, .frameTooLong]

end Sys2Proof

namespace Sys2Proof.Machine

/-- The codes a command can leave in STATUS.CODE (`60_exceptions.md` R201). -/
def producedCodes : List (BitVec 4) := [0x0#4, 0x1#4, 0x2#4, 0x3#4, 0x4#4, 0x5#4, 0xA#4, 0xB#4, 0xC#4]

/-- What every run of the block keeps: memory in canonical form; OUT_MEM listing exactly the OUT_LEN bytes of
OUT, at most 127 (`60_exceptions.md` R202); the reserved bits of CFG and STATUS 0 (`10_state.md` R35, R32);
CODE a produced code; RESULT at most 127 (R30); every slot within 127 bytes and empty only as `(0, 0)` (R29);
and, after an error, a cleared record (`60_exceptions.md` R207). -/
structure State.Inv (s : State) : Prop where
  memory : s.mem.wf = true
  outLen : s.outLen.toNat ≤ Config.maxFrame
  out : ∀ i, i < Config.maxFrame → ((s.mem.read (Buf.out.base + i)).isSome ↔ i < s.outLen.toNat)
  cfg : s.cfg.extractLsb' 1 15 = 0#15
  result : s.result.toNat ≤ Config.maxFrame
  status : s.status.extractLsb' 7 9 = 0#9
  code : s.code ∈ producedCodes
  slots : ∀ k, k < Config.nslot → (s.slot k).off.toNat + (s.slot k).len.toNat ≤ Config.maxFrame ∧
    ((s.slot k).len = 0#8 → (s.slot k).off = 0#8)
  afterError : s.code ≠ okCode →
    s.result = 0x0000#16 ∧ s.slots = noSlots ∧ s.outLen = 0#8 ∧ s.crcOk = false ∧ s.authOk = false

/-- The machine goes on: the next step is neither a fault nor a refusal. -/
def SafeStep (s : State) : Prop := ∃ t, step s = .next t

/-- Every buffer's value is defined: what a script that loads buffers whole keeps (`10_state.md` R23,
`30_encoding.md` R78). -/
def State.AllDefined (s : State) : Prop := ∀ b, (s.value b).isSome = true

end Sys2Proof.Machine
end

