-- ==== Sys2Proof/Certificates/Slice0/Obligations.lean ====
section
/-! DEFINITION. The statements about the machine, for the provers.

The first part is the vocabulary of the statements: what the layouts of the spec say in closed form, written
from the rules and not from the model's own functions. -/

namespace Sys2Proof.Claims

open Sys2Proof.Machine

/-! ### How a command ends -/

/-- The command ends `Ok` with the given STATUS, RESULT, slots and OUT, and everything else is as before. -/
def EndsAs (i : Instr) (s : State) (status result : Half) (slots : Vector Slot Config.nslot)
    (out : List Byte) : Prop :=
  ∃ t, exec i s = .next t ∧ RecordIs t status result slots out ∧ Kept [.out] s t

/-- The command ends `Ok` with a number in RESULT. -/
def EndsWithNumber (i : Instr) (s : State) (n : Nat) : Prop :=
  EndsAs i s 0x0010#16 (BitVec.ofNat 16 n) noSlots []

/-- The command ends `Ok` with bytes in OUT. -/
def EndsWithBytes (i : Instr) (s : State) (out : List Byte) : Prop :=
  EndsAs i s 0x0010#16 0x0000#16 noSlots out

/-- The command ends with an error status and the cleared record, and everything else is as before. -/
def EndsInError (i : Instr) (s : State) (e : ErrorStatus) : Prop := ∃ t, exec i s = .next t ∧ EndsWith e s t

/-- The command word with this OPC and ARG 0 is the command `i`, and with any other ARG it is illegal. -/
def ArgumentIsZero (opc : Byte) (i : Instr) (s : State) : Prop :=
  decode (commandWord opc 0x00#8) = .ok i ∧
    ∀ arg, arg ≠ 0x00#8 → ∃ t, executeWord (commandWord opc arg) s = .next t ∧ EndsWith .illegalCommand s t

/-- A length register above the capacity of a buffer the command reads is `FrameTooLong`. -/
def CapacityChecked (i : Instr) (s : State) (bs : List Buf) : Prop :=
  (∃ b, b ∈ bs ∧ b.cap < (s.len b).toNat) → EndsInError i s .frameTooLong

/-- A frame of fewer than 2 bytes under FCS_PRESENT is `TooShort`, for a command that reads EF and the
buffers `bs`. -/
def FcsTooShort (i : Instr) (s : State) (bs : List Buf) : Prop :=
  s.cfg.getLsbD 0 = true → s.frameLen.toNat < 2 → (∀ b, b ∈ bs → (s.value b).isSome) →
    EndsInError i s .tooShort

/-! ### Slots -/

/-- The slots that hold the given (offset, length) pairs. -/
def slotsAre (g : Nat → Nat × Nat) : Vector Slot Config.nslot :=
  Vector.ofFn fun k => ⟨BitVec.ofNat 8 (g k.val).1, BitVec.ofNat 8 (g k.val).2⟩

/-- A field of width `w` at `off` when it is announced, else `(0, 0)`. -/
def fieldIf (present : Bool) (off w : Nat) : Nat × Nat := if present && 0 < w then (off, w) else (0, 0)

/-- The present ranges follow one another without gap or overlap; answers where they end. -/
def coversFrom : Nat → List Range → Option Nat
  | cur, [] => some cur
  | cur, r :: rs =>
    if r.len = 0 then coversFrom cur rs else if r.off = cur then coversFrom (cur + r.len) rs else none

/-- The ranges, in order, make up the byte sequence exactly. -/
def Partitions (f : List Byte) (rs : List Range) : Prop :=
  coversFrom 0 rs = some f.length ∧ (rs.flatMap fun r => (f.drop r.off).take r.len) = f

/-! ### MAC frames, by the bytes of `41_mac_codec.md` R100 -/

/-- Byte `i` of a frame. -/
def at' (f : List Byte) (i : Nat) : Byte := f.getD i 0#8

/-- 1 when the condition holds and 0 otherwise (`00_scope.md` R10). -/
def ind (c : Bool) : Nat := if c then 1 else 0

/-- `ftype = 0`: a beacon. -/
def isBeacon (f : List Byte) : Bool := (at' f 0).extractLsb' 0 3 = 0#3

/-- `sec`. -/
def sec (f : List Byte) : Bool := (at' f 0).getLsbD 3

/-- `intra`. -/
def intra (f : List Byte) : Bool := (at' f 0).getLsbD 6

/-- `dam`. -/
def dam (f : List Byte) : BitVec 2 := (at' f 1).extractLsb' 2 2

/-- `sam`. -/
def sam (f : List Byte) : BitVec 2 := (at' f 1).extractLsb' 6 2

/-- The value of `mac_hdrlen(f)` (R101). -/
def macHeaderLength (f : List Byte) : Nat :=
  9 + 6 * ind (dam f = 3#2) + 6 * ind (sam f = 3#2) + 2 * ind (!intra f)

/-- The width of the destination PAN and address together (R104). -/
def dstWidth (f : List Byte) : Nat := if dam f = 2#2 then 4 else if dam f = 3#2 then 10 else 0

/-- The source PAN is present (R104). -/
def hasSrcPan (f : List Byte) : Bool := (sam f = 2#2 || sam f = 3#2) && !intra f

/-- The width of the source address (R104). -/
def srcWidth (f : List Byte) : Nat := if sam f = 2#2 then 2 else if sam f = 3#2 then 8 else 0

/-- The value of `mhr_len(f)` (R104). -/
def macHeaderEnd (f : List Byte) : Nat := 3 + dstWidth f + 2 * ind (hasSrcPan f) + srcWidth f

/-- Where each beacon field starts after `mhr_len(f)`, and where the last one ends: the sums of the widths
`BW` (R107). -/
def beaconStarts : List Nat := [0, 2, 3, 4, 5, 6, 7, 15, 18, 19]

/-- The bytes of beacon fields that fit whole (R105, R107). -/
def beaconBytes (f : List Byte) : Nat :=
  if isBeacon f then ((beaconStarts.filter fun p => macHeaderEnd f + p ≤ f.length).getLast?).getD 0 else 0

/-- Where `mac_payload` starts (R105). -/
def macPayloadStart (f : List Byte) : Nat := macHeaderEnd f + beaconBytes f

/-- The range of everything from `off`. -/
def restFrom (f : List Byte) (off : Nat) : Nat × Nat := fieldIf true off (f.length - off)

/-- The slots of MAC_CHOP (R106). -/
def macSlots (f : List Byte) (k : Nat) : Nat × Nat :=
  if k = 0 then (0, 2)
  else if k = 1 then (2, 1)
  else if k = 2 then fieldIf (dam f = 2#2 || dam f = 3#2) 3 2
  else if k = 3 then fieldIf true 5 (dstWidth f - 2)
  else if k = 4 then fieldIf (hasSrcPan f) (3 + dstWidth f) 2
  else if k = 5 then fieldIf true (3 + dstWidth f + 2 * ind (hasSrcPan f)) (srcWidth f)
  else if k < 15 then
    fieldIf (isBeacon f && macHeaderEnd f + beaconStarts.getD (k - 5) 0 ≤ f.length)
      (macHeaderEnd f + beaconStarts.getD (k - 6) 0)
      (beaconStarts.getD (k - 5) 0 - beaconStarts.getD (k - 6) 0)
  else if k = 16 then restFrom f (macPayloadStart f)
  else (0, 0)

/-- The 13 bytes of the nonce of a frame whose 8-byte source address ends at `h` (R109): the address and the
frame counter backwards, then the level byte. -/
def nonceBytes (f : List Byte) (h : Nat) : List Byte :=
  [at' f (h - 1), at' f (h - 2), at' f (h - 3), at' f (h - 4), at' f (h - 5), at' f (h - 6), at' f (h - 7),
    at' f (h - 8), at' f (h + 4), at' f (h + 3), at' f (h + 2), at' f (h + 1), at' f h]

/-! ### NWK frames, by the bytes of `42_nwk_codec.md` R120 -/

/-- `mc`. -/
def mc (f : List Byte) : Bool := (at' f 1).getLsbD 0

/-- `sr`. -/
def sr (f : List Byte) : Bool := (at' f 1).getLsbD 2

/-- `xd`. -/
def xd (f : List Byte) : Bool := (at' f 1).getLsbD 3

/-- `xs`. -/
def xs (f : List Byte) : Bool := (at' f 1).getLsbD 4

/-- Where the `count` byte stands when `sr = 1` (R125). -/
def countAt (f : List Byte) : Nat := 8 + 8 * ind (xd f) + 8 * ind (xs f) + ind (mc f)

/-- The relay list's width: `2 * count` (R122). -/
def relayWidth (f : List Byte) : Nat := 2 * (at' f (countAt f)).toNat

/-- The closed form of `nwk_hdrlen(f)` (R125). -/
def nwkHeaderLength (f : List Byte) : Nat := countAt f + ind (sr f) * (2 + relayWidth f)

/-- The slots of NWK_CHOP (R124). -/
def nwkSlots (f : List Byte) (k : Nat) : Nat × Nat :=
  if k = 0 then (0, 2)
  else if k = 1 then (2, 2)
  else if k = 2 then (4, 2)
  else if k = 3 then (6, 1)
  else if k = 4 then (7, 1)
  else if k = 5 then fieldIf (xd f) 8 8
  else if k = 6 then fieldIf (xs f) (8 + 8 * ind (xd f)) 8
  else if k = 7 then fieldIf (mc f) (8 + 8 * ind (xd f) + 8 * ind (xs f)) 1
  else if k = 8 then fieldIf (sr f) (countAt f) 1
  else if k = 9 then fieldIf (sr f) (countAt f + 1) 1
  else if k = 10 then fieldIf (sr f) (countAt f + 2) (relayWidth f)
  else if k = 11 then restFrom f (nwkHeaderLength f)
  else (0, 0)

/-! ### APS frames, by the bits of `43_aps_codec.md` R135 -/

/-- `dm`. -/
def dm (f : List Byte) : BitVec 2 := (at' f 0).extractLsb' 2 2

/-- `b4`. -/
def b4 (f : List Byte) : Bool := (at' f 0).getLsbD 4

/-- `ext`. -/
def ext (f : List Byte) : Bool := (at' f 0).getLsbD 7

/-- `addr`: Data (or the reserved type 3), or an Ack with `b4 = 0` (R136, R146). -/
def hasAddr (f : List Byte) : Bool :=
  let t := (at' f 0).extractLsb' 0 2
  t = 0#2 || t = 3#2 || (t = 2#2 && !b4 f)

/-- The destination endpoint is present (R136). -/
def hasDst (f : List Byte) : Bool :=
  hasAddr f && (dm f = 0#2 || dm f = 2#2 || (dm f = 1#2 && !b4 f))

/-- The group address is present (R136). -/
def hasGroup (f : List Byte) : Bool := hasAddr f && dm f = 3#2

/-- The source endpoint is present (R136). -/
def hasSrc (f : List Byte) : Bool :=
  hasAddr f && (dm f = 0#2 || dm f = 2#2 || dm f = 3#2 || (dm f = 1#2 && b4 f))

/-- Where the cluster id stands (R137). -/
def clusterAt (f : List Byte) : Nat := 1 + ind (hasDst f) + 2 * ind (hasGroup f)

/-- Where the APS counter stands (R137). -/
def counterAt (f : List Byte) : Nat := clusterAt f + 4 * ind (hasAddr f) + ind (hasSrc f)

/-- The block number is present (R138). -/
def hasBlock (f : List Byte) : Bool := ext f && (at' f (counterAt f + 1)).extractLsb' 0 2 ≠ 0#2

/-- The length of the APS header (R137, R141). -/
def apsHeaderLength (f : List Byte) : Nat := counterAt f + 1 + ind (ext f) + ind (hasBlock f)

/-- The slots of APS_CHOP (R139). -/
def apsSlots (f : List Byte) (k : Nat) : Nat × Nat :=
  if k = 0 then (0, 1)
  else if k = 1 then fieldIf (hasDst f) 1 1
  else if k = 2 then fieldIf (hasGroup f) (1 + ind (hasDst f)) 2
  else if k = 3 then fieldIf (hasAddr f) (clusterAt f) 2
  else if k = 4 then fieldIf (hasAddr f) (clusterAt f + 2) 2
  else if k = 5 then fieldIf (hasSrc f) (clusterAt f + 4) 1
  else if k = 6 then (counterAt f, 1)
  else if k = 7 then fieldIf (ext f) (counterAt f + 1) 1
  else if k = 8 then fieldIf (hasBlock f) (counterAt f + 2) 1
  else if k = 9 then restFrom f (apsHeaderLength f)
  else (0, 0)

/-! ### AES, CRC and S-box by their definitions -/

/-- Word `j`, byte `r`, of the expanded key (`44_aes.md` R154). -/
def keyByte (key : List Byte) : Nat → Nat → Byte
  | 0, r => at' key r
  | 1, r => at' key (4 + r)
  | 2, r => at' key (8 + r)
  | 3, r => at' key (12 + r)
  | j + 4, r =>
    keyByte key j r ^^^
      (if (j + 4) % 4 = 0 then
        sbox (keyByte key (j + 3) ((r + 1) % 4)) ^^^ (if r = 0 then rcByte ((j + 4) / 4) else 0#8)
      else keyByte key (j + 3) r)

/-- Row `r`, column `c` after SubBytes and ShiftRows (R156). -/
def shifted (s : Nat → Nat → Byte) (r c : Nat) : Byte := sbox (s r ((c + r) % 4))

/-- Row `r`, column `c` after MixColumns (R157): coefficient 2 on the row itself and 3 on the next. -/
def mixed (s : Nat → Nat → Byte) (r c : Nat) : Byte :=
  mul2 (s r c) ^^^ mul3 (s ((r + 1) % 4) c) ^^^ s ((r + 2) % 4) c ^^^ s ((r + 3) % 4) c

/-- The 4 x 4 state after round `k`, for k = 0 to 9 (R151, R155, R158). -/
def cipherState (key block : List Byte) : Nat → Nat → Nat → Byte
  | 0, r, c => at' block (4 * c + r) ^^^ keyByte key c r
  | k + 1, r, c => mixed (shifted (cipherState key block k)) r c ^^^ keyByte key (4 * (k + 1) + c) r

/-- The cipher on the 4 x 4 state, read back (R151, R158). -/
def cipherByte (key block : List Byte) (i : Nat) : Byte :=
  shifted (cipherState key block 9) (i % 4) (i / 4) ^^^ keyByte key (40 + i / 4) (i % 4)

/-- A sequence with zero bytes up to a whole number of 16-byte blocks (`45_ccm_security.md` R167). -/
def padded (x : List Byte) : List Byte := x ++ List.replicate (16 * ((x.length + 15) / 16) - x.length) 0x00#8

/-- A number below 65536 as two bytes, the high byte first (`20_memory.md` R58). -/
def twoBytes (n : Nat) : List Byte := [BitVec.ofNat 8 (n / 256), BitVec.ofNat 8 n]

/-- `bflags` by the table of R169, for MIC lengths 4, 8 and 16. -/
def macFlags (aad : List Byte) (mic : Nat) : Byte :=
  if aad.length = 0 then if mic = 4 then 0x09#8 else if mic = 8 then 0x19#8 else 0x39#8
  else if mic = 4 then 0x49#8 else if mic = 8 then 0x59#8 else 0x79#8

/-- The bytes that are authenticated, as whole blocks: `B0`, the associated data behind its length, and the
plaintext (R169 to R171). -/
def macText (nonce aad msg : List Byte) (mic : Nat) : List Byte :=
  [macFlags aad mic] ++ nonce ++ twoBytes msg.length ++
    (if aad.length = 0 then [] else padded (twoBytes aad.length ++ aad)) ++ padded msg

/-- The CBC-MAC value after `i` blocks of `b`, from 16 zero bytes on (R172). -/
def macChain (key b : List Byte) : Nat → List Byte
  | 0 => List.replicate 16 0x00#8
  | i + 1 => aesEnc key (List.zipWith (fun x y => x ^^^ y) (macChain key b i) ((b.drop (16 * i)).take 16))

/-- The MIC `T`: the first `mic` bytes after the last block (R172). -/
def macTag (key nonce aad msg : List Byte) (mic : Nat) : List Byte :=
  let b := macText nonce aad msg mic
  (macChain key b (b.length / 16)).take mic

/-- The bytes that hide the MIC: the first `mic` bytes of `S0`, the encrypted counter block 0 (R168, R173). -/
def tagMask (key nonce : List Byte) (mic : Nat) : List Byte :=
  (aesEnc key ([0x01#8] ++ nonce ++ [0x00#8, 0x00#8])).take mic

/-- One bit of the bit-serial CRC with the reflected polynomial 0x8408 (`46_fcs.md` R191). -/
def crcBit (crc : Half) (bit : Bool) : Half :=
  if crc.getLsbD 0 != bit then (crc >>> 1) ^^^ 0x8408#16 else crc >>> 1

/-- The bits of a byte sequence, each byte's least significant bit first (R191). -/
def bitsOf (d : List Byte) : List Bool := d.flatMap fun c => (List.range 8).map fun i => c.getLsbD i

/-- The product of two bytes in the field of `44_aes.md` R152, by shift and add. -/
def fieldMul (a b : Byte) : Byte :=
  (List.range 8).foldl (fun acc i => xtime acc ^^^ (if b.getLsbD (7 - i) then a else 0#8)) 0#8

/-- The affine map of R153. -/
def affine (x : Byte) : Byte :=
  x ^^^ x.rotateLeft 1 ^^^ x.rotateLeft 2 ^^^ x.rotateLeft 3 ^^^ x.rotateLeft 4 ^^^ 0x63#8

/-! ### Bus and hosts -/

/-- The command word a host action completes, if it completes one (`20_memory.md` R61). -/
def completedWord (s : State) : HostAction → Option Half
  | .write8 a v => if a = 0x001#10 then some (v ++ s.cmdLo) else none
  | .write16 a v =>
    if a = 0x000#10 then some v else if a = 0x001#10 then some (lowByte v ++ s.cmdLo) else none
  | .read8 _ => none
  | .read16 _ => none
  | .powerOn => none

/-- The opcodes of the commands that read KEY (`30_encoding.md` R73). -/
def keyOpcodes : List Byte := [0x40#8, 0x50#8, 0x51#8, 0x52#8, 0x53#8]

/-- The states agree on everything but KEY_LEN and the bytes of KEY. -/
structure AgreeButKey (s t : State) : Prop where
  len : ∀ b, b ≠ .key → t.len b = s.len b
  mem : ∀ a, Buf.key.holds a = false → t.mem.read a = s.mem.read a
  cfg : t.cfg = s.cfg
  slots : t.slots = s.slots
  result : t.result = s.result
  status : t.status = s.status
  cmdLo : t.cmdLo = s.cmdLo
  pending : t.pending = s.pending
  reply : t.reply = s.reply
  accesses : t.accesses = s.accesses

/-- The operands are the same: CFG and the values of the five operand buffers. -/
def SameOperands (s t : State) : Prop :=
  t.cfg = s.cfg ∧ ∀ b, b ≠ .out → t.len b = s.len b ∧ t.value b = s.value b

/-- The result records are the same. -/
def SameRecord (s t : State) : Prop :=
  t.status = s.status ∧ t.result = s.result ∧ t.slots = s.slots ∧ t.value .out = s.value .out

/-- Addresses that `20_memory.md` R52 does not list. -/
def reservedAddress (a : Nat) : Bool :=
  (0x00E ≤ a && a ≤ 0x00F) || (0x01D ≤ a && a ≤ 0x01F) || (0x062 ≤ a && a ≤ 0x07F) || a = 0x0FF || a = 0x17F
    || a = 0x1FF || (0x27F ≤ a && a ≤ 0x3FF)

/-- Opcodes of the commands that take no argument (`30_encoding.md` R72). -/
def plainOpcodes : List Byte :=
  [0x00#8, 0x01#8, 0x09#8, 0x0A#8, 0x10#8, 0x11#8, 0x12#8, 0x13#8, 0x20#8, 0x21#8, 0x22#8, 0x30#8, 0x31#8,
    0x32#8, 0x40#8, 0x52#8, 0x53#8, 0x60#8, 0x61#8, 0x62#8]

/-- The legal command words (`30_encoding.md` R71, R72, R74). -/
def legalWord (opc arg : Byte) : Bool :=
  (plainOpcodes.contains opc && arg = 0x00#8) || (opc = 0x08#8 && arg.toNat ≤ 16)
    || (opc = 0x0B#8 && arg.toNat ≤ 127)
    || ((opc = 0x50#8 || opc = 0x51#8) && (arg = 4#8 || arg = 8#8 || arg = 16#8))

end Sys2Proof.Claims

open Sys2Proof Sys2Proof.Machine Sys2Proof.Claims

/-! ## Reset and the invariant -/

/-- `10_state.md` R41: the values after reset. -/
def Obligations.ResetValues : Prop :=
  (∀ b, State.reset.len b = 0#8) ∧ State.reset.cfg = 0x0000#16 ∧ State.reset.status = 0x0000#16 ∧
    State.reset.code = 0x0#4 ∧ State.reset.done = false ∧ State.reset.crcOk = false ∧
    State.reset.authOk = false ∧ State.reset.result = 0x0000#16 ∧ (∀ k, k < 17 → State.reset.slot k = ⟨0#8, 0#8⟩) ∧
    State.reset.cmdLo = 0x00#8 ∧ (∀ a, State.reset.mem.read a = none) ∧ (∀ b, State.reset.value b = some [])

/-- `70_reset_and_hazards.md` R230, `40_system_move.md` R91: power-on and RESET give the state of R41, and the
host's side of the bus goes on. The last three fields are the model's own (assumption log 1). That they go on
over a reset is the model's choice, and so is power-on as a host action (assumption logs 1, 13). -/
def Obligations.ResetCommandAndPowerOn : Prop :=
  ∀ s, ArgumentIsZero 0x01#8 .reset s ∧ perform .powerOn s = exec .reset s ∧
    exec .reset s = .next { State.reset with pending := s.pending, reply := s.reply, accesses := s.accesses }

/-- The invariant of the block holds right after reset. -/
def Obligations.InvariantAtReset : Prop := State.reset.Inv

/-- The invariant of the block is kept by every step, from every state that meets it: R29, R30, R32, R35, R202
and R207 as properties of the whole machine. That memory is canonical and that OUT_mem lists exactly the bytes of
OUT is the model's choice (assumption logs 4, 6). -/
def Obligations.StepKeepsInvariant : Prop := ∀ s t, s.Inv → step s = .next t → t.Inv

/-! ## Decoding and stepping -/

/-- `30_encoding.md` R70, R72: some command words of the map. -/
def Obligations.DecodesTheMap : Prop :=
  decode 0x0000#16 = .ok .nop ∧ decode 0x1008#16 = .ok (.narrow 16#8) ∧ decode 0x090B#16 = .ok (.splice 9#8) ∧
    decode 0x0012#16 = .ok .macChop ∧ decode 0x0021#16 = .ok .nwkPaylen ∧ decode 0x0032#16 = .ok .apsChop ∧
    decode 0x0040#16 = .ok .aesEnc ∧ decode 0x0450#16 = .ok (.ccmEnc 4#8) ∧
    decode 0x0851#16 = .ok (.ccmDec 8#8) ∧ decode 0x0052#16 = .ok .secDecrypt ∧ decode 0x0062#16 = .ok .fcsAppend

/-- Decode and encode agree in both directions, for every command with every argument: each word has one meaning.
That the decoder passes an illegal argument on to the command is the model's choice (assumption log 9). -/
def Obligations.DecodeEncodeAgree : Prop :=
  (∀ i, decode (encode i) = .ok i) ∧ (∀ w i, decode w = .ok i → encode i = w) ∧
    (∀ i, i.wf = legalWord (opcOf (encode i)) (argOf (encode i)))

/-- `30_encoding.md` R74: an illegal word ends with `IllegalCommand` and the cleared record, and changes nothing
else, whatever the state. -/
def Obligations.IllegalWordsChangeNothing : Prop :=
  ∀ s opc arg, legalWord opc arg = false →
    ∃ t, executeWord (commandWord opc arg) s = .next t ∧ EndsWith .illegalCommand s t

/-- A step whose host action writes a whole command word runs the command it decodes to, on the state without
that action and with the word's low byte in CMD_LO, and clears CMD_LO afterwards (`10_state.md` R36). The queue
and the count of host actions are the model's own (assumption logs 1, 5), and a 2-byte write is one step
(assumption log 12). -/
def Obligations.StepRunsDecodedCommand : Prop :=
  ∀ s w i rest, s.pending = .write16 0x000#10 w :: rest → decode w = .ok i →
    step s =
      match exec i { s with pending := rest, accesses := s.accesses + 1, cmdLo := w.extractLsb' 0 8 } with
      | .next t => .next { t with cmdLo := 0#8 }
      | .fault x => .fault x
      | .refused x => .refused x

/-- `20_memory.md` R61, `10_state.md` R36: a command word written as two bytes executes once, at the second
write, with the same effect; the first write changes CMD_LO only. `accesses`, a field of the model's own, is one
higher. (The count: assumption log 5; the queue: assumption log 1.) -/
def Obligations.ByteWritesFormTheWord : Prop :=
  ∀ s lo hi rest, s.pending = .write8 0x000#10 lo :: .write8 0x001#10 hi :: rest →
    ∃ u, step s = .next u ∧
      u = { s with pending := .write8 0x001#10 hi :: rest, accesses := s.accesses + 1, cmdLo := lo } ∧
      step u =
        match step { s with pending := .write16 0x000#10 (hi ++ lo) :: rest } with
        | .next t => .next { t with accesses := t.accesses + 1 }
        | .fault x => .fault x
        | .refused x => .refused x

/-! ## Rules of every command -/

/-- `60_exceptions.md` R207, R208: whatever the word, an end with a status other than `Ok` leaves the cleared
record with the code and DONE = 1, and everything else as it was. -/
def Obligations.ErrorsHaveNoPartialEffects : Prop :=
  ∀ w s t, executeWord w s = .next t → t.code ≠ 0x0#4 →
    t.status.extractLsb' 0 4 = t.code ∧ t.done = true ∧ t.crcOk = false ∧ t.authOk = false ∧
      t.result = 0x0000#16 ∧ (∀ k, k < 17 → t.slot k = ⟨0#8, 0#8⟩) ∧ t.outLen = 0#8 ∧ Kept [.out] s t ∧
      ∀ b, b ≠ .out → t.value b = s.value b

/-- `60_exceptions.md` R211: on a state in which every operand is defined, every command word ends with exactly
one of the statuses of R201, and OUT is defined. The spec marks R211 as derived from R205 and R207. -/
def Obligations.EveryWordEnds : Prop :=
  ∀ w s, (∀ b, b ≠ .out → s.overCapacity b = true ∨ (s.value b).isSome = true) → (s.value .out).isSome = true →
    ∃ t, executeWord w s = .next t ∧ t.code ∈ producedCodes ∧ (t.value .out).isSome = true

/-- `10_state.md` R23: a legal command whose operand includes a byte that nothing has written is refused. That
the refusal comes after the capacity check and before the command's own checks is the model's choice
(assumption log 3). -/
def Obligations.UnwrittenOperandIsRefused : Prop :=
  ∀ i s b, i.wf = true → b ∈ i.reads → (∀ b', b' ∈ i.reads → (s.len b').toNat ≤ b'.cap) →
    (∃ k, k < (s.len b).toNat ∧ s.mem.read (b.base + k) = none) →
      ∃ b', b' ∈ i.reads ∧ exec i s = .refused (.undefinedOperand b')

/-- `10_state.md` R25, `60_exceptions.md` R205 (2): a legal command that reads a buffer whose length register is
above its capacity ends with `FrameTooLong`, whatever else holds. -/
def Obligations.CapacityComesFirst : Prop :=
  ∀ i s b, i.wf = true → b ∈ i.reads → b ≠ .out → b.cap < (s.len b).toNat → EndsInError i s .frameTooLong

/-- `60_exceptions.md` R202: no command ends with a status its row does not mark. The spec marks R202 as derived
from the command rules. -/
def Obligations.StatusesOfEachCommand : Prop :=
  ∀ i s t, exec i s = .next t → t.code = 0x0#4 ∨ ∃ e : ErrorStatus, e ∈ i.mayEndWith ∧ t.code = e.code

/-- `10_state.md` R33, R34: CRC_OK is set by FCS_CHECK only, and AUTH_OK by SEC_DECRYPT and CCM_DEC exactly when
they end `Ok`. -/
def Obligations.FlagsOfEachCommand : Prop :=
  ∀ i s t, exec i s = .next t →
    (t.crcOk = true → i = .fcsCheck) ∧
      (t.authOk = true ↔ t.code = 0x0#4 ∧ (i = .secDecrypt ∨ ∃ m, i = .ccmDec m))

/-- `10_state.md` R40, `60_exceptions.md` R210: the result record of a command that is no data movement from a
slot or from OUT is a function of CFG, the operand buffers and the command word; old records, CMD_LO and the
bytes beyond the lengths do not enter. That both runs may instead be refused is the model's choice (assumption
log 3). -/
def Obligations.RecordIsFunctionOfOperands : Prop :=
  ∀ i s s', SameOperands s s' → (∀ k, i ≠ .narrow k) → i ≠ .movof → i ≠ .movoa →
    (∃ x, exec i s = .refused x ∧ exec i s' = .refused x) ∨
      ∃ t t', exec i s = .next t ∧ exec i s' = .next t' ∧ SameRecord t t'

/-- `10_state.md` R22, R23: the value of a buffer is its array up to its length register, when that is within the
capacity and every byte of it is defined. That a byte can hold no value, and that a buffer above its capacity has
none, is how the model says it (assumption logs 3, 4). -/
def Obligations.BufferValue : Prop :=
  ∀ (s : State) b v, s.value b = some v ↔
    (s.len b).toNat ≤ b.cap ∧ v.length = (s.len b).toNat ∧
      ∀ i, i < (s.len b).toNat → s.mem.read (b.base + i) = some (at' v i)

/-! ## The bus -/

/-- `20_memory.md` R50, R60, R62: a read of one or two bytes answers the host with the bytes of the map, the byte at
the lower address first, and has no side effect. The queue, the count and the answer are the model's own (assumption
logs 1, 5, 8). That the byte behind 0x3FF reads 0 is the model's choice (assumption log 7: it is CMD or an address
that the map does not list, and both read 0). -/
def Obligations.ReadsHaveNoSideEffect : Prop :=
  ∀ s rest a, let u := { s with pending := rest, accesses := s.accesses + 1 }
    (s.pending = .read8 a :: rest → step s = .next { u with reply := [busRead u a.toNat] }) ∧
    (s.pending = .read16 a :: rest →
      step s = .next { u with
        reply := [busRead u a.toNat, if a = 0x3FF#10 then 0x00#8 else busRead u (a.toNat + 1)] })

/-- `20_memory.md` R52, R53, `10_state.md` R27: what a read of each address returns. Bytes without a defined
value are left out: the model reads them as free values (assumption log 5). -/
def Obligations.AddressMapReads : Prop :=
  ∀ s : State,
    busRead s 0x000 = 0#8 ∧ busRead s 0x001 = 0#8 ∧
    busRead s 0x003 ++ busRead s 0x002 = s.status ∧ busRead s 0x005 ++ busRead s 0x004 = s.cfg ∧
    busRead s 0x007 ++ busRead s 0x006 = s.result ∧ busRead s 0x008 = s.frameLen ∧ busRead s 0x009 = s.auxLen ∧
    busRead s 0x00A = s.aadLen ∧ busRead s 0x00B = 0#8 ∧ busRead s 0x00C = s.nonceLen ∧
    busRead s 0x00D = s.outLen ∧
    (∀ k, k < 17 → busRead s (0x040 + 2 * k) = (s.slot k).off ∧ busRead s (0x041 + 2 * k) = (s.slot k).len) ∧
    (∀ i, i < 32 → busRead s (0x020 + i) = 0#8) ∧
    (∀ (b : Buf) i v, b ≠ .key → b ≠ .out → i < b.cap → s.mem.read (b.base + i) = some v →
      busRead s (b.base + i) = v) ∧
    (∀ i v, i < 127 → i < s.outLen.toNat → s.mem.read (0x200 + i) = some v → busRead s (0x200 + i) = v) ∧
    (∀ a, reservedAddress a = true → busRead s a = 0#8)

/-- `20_memory.md` R52, R53, R60, R61, `10_state.md` R35, R36: what a byte write to each address does, and that a
step whose host action writes one or two bytes is the write of these bytes, the one at the lower address first. The
queue and the count are the model's own (assumption logs 1, 5). That the byte behind 0x3FF goes nowhere or to CMD is
the model's choice (assumption log 7). -/
def Obligations.AddressMapWrites : Prop :=
  ∀ (s : State) v,
    busWrite 0x000 v s = .next { s with cmdLo := v } ∧
    busWrite 0x001 v s =
      (match executeWord (v ++ s.cmdLo) s with
      | .next t => .next { t with cmdLo := 0#8 }
      | .fault x => .fault x
      | .refused x => .refused x) ∧
    busWrite 0x004 v s = .next { s with cfg := if v.getLsbD 0 then 0x0001#16 else 0x0000#16 } ∧
    busWrite 0x005 v s = .next s ∧
    busWrite 0x008 v s = .next { s with frameLen := v } ∧ busWrite 0x009 v s = .next { s with auxLen := v } ∧
    busWrite 0x00A v s = .next { s with aadLen := v } ∧ busWrite 0x00B v s = .next { s with keyLen := v } ∧
    busWrite 0x00C v s = .next { s with nonceLen := v } ∧
    (∀ (b : Buf) i, b ≠ .out → i < b.cap → ∃ m, busWrite (b.base + i) v s = .next { s with mem := m } ∧
      m.read (b.base + i) = some v ∧ ∀ a, a ≠ b.base + i → m.read a = s.mem.read a) ∧
    (∀ a, a = 0x002 ∨ a = 0x003 ∨ a = 0x006 ∨ a = 0x007 ∨ a = 0x00D ∨ (0x040 ≤ a ∧ a ≤ 0x061) ∨
      (0x200 ≤ a ∧ a ≤ 0x27E) ∨ reservedAddress a = true → busWrite a v s = .next s) ∧
    (∀ rest a, s.pending = .write8 a v :: rest →
      step s = busWrite a.toNat v { s with pending := rest, accesses := s.accesses + 1 }) ∧
    ∀ rest a (w : Half), s.pending = .write16 a w :: rest →
      let u := { s with pending := rest, accesses := s.accesses + 1 }
      if a = 0x3FF#10 then step s = .next u ∨ step s = .next { u with cmdLo := w.extractLsb' 8 8 }
      else step s =
        match busWrite a.toNat (w.extractLsb' 0 8) u with
        | .next t => busWrite (a.toNat + 1) (w.extractLsb' 8 8) t
        | .fault x => .fault x
        | .refused x => .refused x

/-- `10_state.md` R27, `70_reset_and_hazards.md` R241: the key reaches the host only through the commands that
read KEY. Two states that differ in KEY only still do so after any host action that completes no such command,
and the host is answered the same. -/
def Obligations.KeyIsNotObservable : Prop :=
  ∀ s s' x, AgreeButKey s s' → (∀ w, completedWord s x = some w → opcOf w ∉ keyOpcodes) →
    (∃ t t', perform x s = .next t ∧ perform x s' = .next t' ∧ AgreeButKey t t') ∨
      ∃ r, perform x s = .refused r ∧ perform x s' = .refused r

/-! ## System and data movement -/

/-- `40_system_move.md` R90. -/
def Obligations.NopClearsRecord : Prop :=
  ∀ s, ArgumentIsZero 0x00#8 .nop s ∧ EndsAs .nop s 0x0010#16 0x0000#16 noSlots []

/-- `40_system_move.md` R92: the bytes of the slot become FRAME; only they, FRAME_LEN and the record change. That
the bytes of the array behind the new contents stay is read from the pseudocode (assumption log 10). -/
def Obligations.NarrowTakesTheSlot : Prop :=
  ∀ s k, decode (commandWord 0x08#8 k) = .ok (.narrow k) ∧
    (16 < k.toNat → EndsInError (.narrow k) s .illegalCommand) ∧
    (k.toNat ≤ 16 → CapacityChecked (.narrow k) s [.frame] ∧
      ∀ fr, s.value .frame = some fr →
        let off := (s.slot k.toNat).off.toNat
        let n := (s.slot k.toNat).len.toNat
        if fr.length < off + n then EndsInError (.narrow k) s .tooShort
        else ∃ t, exec (.narrow k) s = .next t ∧ RecordIs t 0x0010#16 0x0000#16 noSlots [] ∧
          Kept [.frame, .out] s t ∧ t.value .frame = some ((fr.drop off).take n) ∧
          ∀ a, a < 0x080 ∨ 0x080 + n ≤ a → Buf.out.holds a = false → t.mem.read a = s.mem.read a)

/-- `40_system_move.md` R93: OUT becomes FRAME and is cleared; only FRAME's bytes, FRAME_LEN and the record
change. That the bytes of the array behind the new contents stay is read from the pseudocode (assumption log 10). -/
def Obligations.MovofMovesOutToFrame : Prop :=
  ∀ s, ArgumentIsZero 0x09#8 .movof s ∧ ∀ v, s.value .out = some v →
    ∃ t, exec .movof s = .next t ∧ RecordIs t 0x0010#16 0x0000#16 noSlots [] ∧ Kept [.frame, .out] s t ∧
      t.value .frame = some v ∧
      ∀ a, a < 0x080 ∨ 0x080 + v.length ≤ a → Buf.out.holds a = false → t.mem.read a = s.mem.read a

/-- `40_system_move.md` R94: OUT becomes AUX and is cleared; only AUX's bytes, AUX_LEN and the record change.
That the bytes of the array behind the new contents stay is read from the pseudocode (assumption log 10). -/
def Obligations.MovoaMovesOutToAux : Prop :=
  ∀ s, ArgumentIsZero 0x0A#8 .movoa s ∧ ∀ v, s.value .out = some v →
    ∃ t, exec .movoa s = .next t ∧ RecordIs t 0x0010#16 0x0000#16 noSlots [] ∧ Kept [.aux, .out] s t ∧
      t.value .aux = some v ∧
      ∀ a, a < 0x100 ∨ 0x100 + v.length ≤ a → Buf.out.holds a = false → t.mem.read a = s.mem.read a

/-- `40_system_move.md` R95. -/
def Obligations.SpliceAssembles : Prop :=
  ∀ s n, decode (commandWord 0x0B#8 n) = .ok (.splice n) ∧
    (127 < n.toNat → EndsInError (.splice n) s .illegalCommand) ∧
    (n.toNat ≤ 127 → CapacityChecked (.splice n) s [.frame, .aux] ∧
      ∀ fr aux, s.value .frame = some fr → s.value .aux = some aux →
        if fr.length < n.toNat then EndsInError (.splice n) s .tooShort
        else if 127 < n.toNat + aux.length then EndsInError (.splice n) s .frameTooLong
        else EndsWithBytes (.splice n) s (fr.take n.toNat ++ aux))

/-- The law of `40_system_move.md` R95: SPLICE at the header boundary that MAC_CHOP found undoes the chop. AUX
holds the bytes of SLOT[16]; the boundary is RESULT, and SLOT[16] starts there and reaches the end of FRAME, or
is `(0, 0)` when no payload is left. The spec marks the law as derived from R95 and R112. -/
def Obligations.SpliceUndoesMacChop : Prop :=
  ∀ s t u fr, s.value .frame = some fr → s.cfg.getLsbD 0 = false → exec .macChop s = .next t →
    t.code = 0x0#4 → u.value .frame = some fr →
    u.value .aux = some ((fr.drop (t.slot 16).off.toNat).take (t.slot 16).len.toNat) →
      t.result.toNat ≤ fr.length ∧
        (if t.result.toNat < fr.length then
          (t.slot 16).off.toNat = t.result.toNat ∧ t.result.toNat + (t.slot 16).len.toNat = fr.length
        else t.slot 16 = ⟨0#8, 0#8⟩) ∧
        EndsWithBytes (.splice (t.result.extractLsb' 0 8)) u fr

/-! ## MAC codec -/

/-- `41_mac_codec.md` R110 with R101: the header length from the FCF bits alone. -/
def Obligations.MacHdrlenResult : Prop :=
  ∀ s, ArgumentIsZero 0x10#8 .macHdrlen s ∧ CapacityChecked .macHdrlen s [.frame] ∧
    FcsTooShort .macHdrlen s [.frame] ∧ ∀ f, HasFrame s f →
      if f.length < 9 then EndsInError .macHdrlen s .tooShort
      else EndsWithNumber .macHdrlen s (macHeaderLength f)

/-- `41_mac_codec.md` R111 with R102. -/
def Obligations.MacPaylenResult : Prop :=
  ∀ s, ArgumentIsZero 0x11#8 .macPaylen s ∧ CapacityChecked .macPaylen s [.frame] ∧
    FcsTooShort .macPaylen s [.frame] ∧ ∀ f, HasFrame s f →
      if f.length < 9 ∨ f.length < macHeaderLength f then EndsInError .macPaylen s .tooShort
      else EndsWithNumber .macPaylen s (f.length - macHeaderLength f)

/-- `41_mac_codec.md` R112 with R104 to R107. -/
def Obligations.MacChopResult : Prop :=
  ∀ s, ArgumentIsZero 0x12#8 .macChop s ∧ CapacityChecked .macChop s [.frame] ∧
    FcsTooShort .macChop s [.frame] ∧ ∀ f, HasFrame s f →
      if f.length < 3 ∨ f.length < macHeaderEnd f then EndsInError .macChop s .tooShort
      else EndsAs .macChop s 0x0010#16 (BitVec.ofNat 16 (macPayloadStart f)) (slotsAre (macSlots f)) []

/-- `41_mac_codec.md` R113 with R109. -/
def Obligations.MacNonceResult : Prop :=
  ∀ s, ArgumentIsZero 0x13#8 .macNonce s ∧ CapacityChecked .macNonce s [.frame] ∧
    FcsTooShort .macNonce s [.frame] ∧ ∀ f, HasFrame s f →
      if f.length < 3 then EndsInError .macNonce s .tooShort
      else if sec f = false then EndsWithBytes .macNonce s []
      else if f.length < macHeaderEnd f then EndsInError .macNonce s .tooShort
      else if sam f ≠ 3#2 ∨ f.length < macHeaderEnd f + 5 then EndsWithBytes .macNonce s []
      else EndsWithBytes .macNonce s (nonceBytes f (macHeaderEnd f))

/-- `41_mac_codec.md` R103: by how much the FCF-only header length overshoots the real header end. The spec marks
R103 as derived from R101 and R104. -/
def Obligations.MacHeaderLengthAgainstEnd : Prop :=
  ∀ f h a, macHdrlen f = .ok h → macAddr f = .ok a →
    (h = a.off ↔ (dam f = 2#2 ∨ dam f = 3#2) ∧ (sam f = 2#2 ∨ sam f = 3#2)) ∧
      h = a.off + (if dam f = 2#2 ∨ dam f = 3#2 then 0 else 4) +
        (if sam f = 2#2 ∨ sam f = 3#2 then 0 else if intra f = true then 2 else 4)

/-- `41_mac_codec.md` R114: the slots of MAC_CHOP partition the frame in order. The spec marks R114 as derived
from R104, R105 and R107. -/
def Obligations.MacChopPartitions : Prop :=
  ∀ f c, macChop f = .ok c → c.fields.length = 17 ∧ Partitions f c.fields

/-- `41_mac_codec.md` R116, `00_scope.md` R19: header and payload lengths add up to the length, whenever the
payload length has a value. -/
def Obligations.MacLengthsAddUp : Prop :=
  ∀ f p, macPayloadlen f = .ok p → ∃ h, macHdrlen f = .ok h ∧ h + p = f.length ∧ 9 ≤ f.length

/-! ## NWK and APS codecs -/

/-- `42_nwk_codec.md` R127 with R123 and the closed form of R125; multicast control and source route are
independent (R126). -/
def Obligations.NwkHdrlenResult : Prop :=
  ∀ s, ArgumentIsZero 0x20#8 .nwkHdrlen s ∧ CapacityChecked .nwkHdrlen s [.frame] ∧
    FcsTooShort .nwkHdrlen s [.frame] ∧ ∀ f, HasFrame s f →
      if f.length < 8 ∨ f.length < nwkHeaderLength f then EndsInError .nwkHdrlen s .tooShort
      else EndsWithNumber .nwkHdrlen s (nwkHeaderLength f)

/-- `42_nwk_codec.md` R128. -/
def Obligations.NwkPaylenResult : Prop :=
  ∀ s, ArgumentIsZero 0x21#8 .nwkPaylen s ∧ CapacityChecked .nwkPaylen s [.frame] ∧
    FcsTooShort .nwkPaylen s [.frame] ∧ ∀ f, HasFrame s f →
      if f.length < 8 ∨ f.length < nwkHeaderLength f then EndsInError .nwkPaylen s .tooShort
      else EndsWithNumber .nwkPaylen s (f.length - nwkHeaderLength f)

/-- `42_nwk_codec.md` R129 with R121 to R124. -/
def Obligations.NwkChopResult : Prop :=
  ∀ s, ArgumentIsZero 0x22#8 .nwkChop s ∧ CapacityChecked .nwkChop s [.frame] ∧
    FcsTooShort .nwkChop s [.frame] ∧ ∀ f, HasFrame s f →
      if f.length < 8 ∨ f.length < nwkHeaderLength f then EndsInError .nwkChop s .tooShort
      else EndsAs .nwkChop s 0x0010#16 (BitVec.ofNat 16 (nwkHeaderLength f)) (slotsAre (nwkSlots f)) []

/-- `42_nwk_codec.md` R130: the slots partition the frame in order, and the lengths add up. The spec marks R130
as derived from R123 and R125. -/
def Obligations.NwkChopPartitions : Prop :=
  ∀ f c, nwkChop f = .ok c → Partitions f c.fields ∧
    ∃ h p, nwkHdrlen f = .ok h ∧ nwkPayloadlen f = .ok p ∧ h + p = f.length

/-- `43_aps_codec.md` R143 with R136 to R141. -/
def Obligations.ApsHdrlenResult : Prop :=
  ∀ s, ArgumentIsZero 0x30#8 .apsHdrlen s ∧ CapacityChecked .apsHdrlen s [.frame] ∧
    FcsTooShort .apsHdrlen s [.frame] ∧ ∀ f, HasFrame s f →
      if f.length < 1 ∨ f.length < apsHeaderLength f then EndsInError .apsHdrlen s .tooShort
      else EndsWithNumber .apsHdrlen s (apsHeaderLength f)

/-- `43_aps_codec.md` R144. -/
def Obligations.ApsPaylenResult : Prop :=
  ∀ s, ArgumentIsZero 0x31#8 .apsPaylen s ∧ CapacityChecked .apsPaylen s [.frame] ∧
    FcsTooShort .apsPaylen s [.frame] ∧ ∀ f, HasFrame s f →
      if f.length < 1 ∨ f.length < apsHeaderLength f then EndsInError .apsPaylen s .tooShort
      else EndsWithNumber .apsPaylen s (f.length - apsHeaderLength f)

/-- `43_aps_codec.md` R145 with R136 to R140. -/
def Obligations.ApsChopResult : Prop :=
  ∀ s, ArgumentIsZero 0x32#8 .apsChop s ∧ CapacityChecked .apsChop s [.frame] ∧
    FcsTooShort .apsChop s [.frame] ∧ ∀ f, HasFrame s f →
      if f.length < 1 ∨ f.length < apsHeaderLength f then EndsInError .apsChop s .tooShort
      else EndsAs .apsChop s 0x0010#16 (BitVec.ofNat 16 (apsHeaderLength f)) (slotsAre (apsSlots f)) []

/-- `43_aps_codec.md` R147: the slots partition the frame in order, and the lengths add up. The spec marks R147
as derived from R140 and R141. -/
def Obligations.ApsChopPartitions : Prop :=
  ∀ f c, apsChop f = .ok c → Partitions f c.fields ∧
    ∃ h p, apsHdrlen f = .ok h ∧ apsPayloadlen f = .ok p ∧ h + p = f.length

/-! ## AES -/

/-- `44_aes.md` R153: the printed S-box is the field inverse (0 to 0) and then the affine map. -/
def Obligations.SboxIsInverseThenAffine : Prop :=
  ∀ b, ∃ x, sbox b = affine x ∧ (b = 0#8 → x = 0#8) ∧ (b ≠ 0#8 → fieldMul b x = 1#8)

/-- `44_aes.md` R151, R154 to R158: the list cipher is the cipher on the 4 x 4 state. -/
def Obligations.AesIsTheMatrixCipher : Prop :=
  ∀ key block, key.length = 16 → block.length = 16 →
    aesEnc key block = (List.range 16).map (cipherByte key block)

/-- `44_aes.md` R160. -/
def Obligations.AesEncResult : Prop :=
  ∀ s, ArgumentIsZero 0x40#8 .aesEnc s ∧ CapacityChecked .aesEnc s [.key, .aux] ∧
    ∀ key aux, s.value .key = some key → s.value .aux = some aux →
      if key.length ≠ 16 then EndsInError .aesEnc s .badKeyLength
      else if aux.length ≠ 16 then EndsInError .aesEnc s .badPayloadLength
      else EndsWithBytes .aesEnc s (aesEnc key aux)

/-! ## CCM* -/

/-- `45_ccm_security.md` R173: counter mode byte by byte, with the counter blocks of R168 from `A[1]` on. -/
def Obligations.CounterModeByByte : Prop :=
  ∀ key nonce d i, key.length = 16 → nonce.length = 13 → i < d.length →
    (ctr key nonce d).length = d.length ∧
      (ctr key nonce d)[i]? =
        some (at' d i ^^^ at' (aesEnc key ([0x01#8] ++ nonce ++ be16 (i / 16 + 1))) (i % 16))

/-- `45_ccm_security.md` R184: decrypting what was encrypted returns the plaintext. The spec marks R184 as
derived from R173 to R175. -/
def Obligations.CcmRoundTrip : Prop :=
  ∀ key nonce aad msg mic, key.length = 16 → nonce.length = 13 → mic ≤ 16 →
    let out := ccmEncrypt key nonce aad msg mic
    out.length = msg.length + mic ∧
      ccmDecrypt key nonce aad (out.take msg.length) (out.drop msg.length) = .ok msg

/-- `45_ccm_security.md` R176, with the MIC in the closed form of R169 to R172 and `ctr` of R173
(CounterModeByByte). -/
def Obligations.CcmEncResult : Prop :=
  ∀ s m, decode (commandWord 0x50#8 m) = .ok (.ccmEnc m) ∧
    (m ≠ 4#8 → m ≠ 8#8 → m ≠ 16#8 → EndsInError (.ccmEnc m) s .illegalCommand) ∧
    (m = 4#8 ∨ m = 8#8 ∨ m = 16#8 → CapacityChecked (.ccmEnc m) s [.key, .nonce, .aad, .aux] ∧
      ∀ key nonce aad aux, s.value .key = some key → s.value .nonce = some nonce → s.value .aad = some aad →
        s.value .aux = some aux →
        if key.length ≠ 16 then EndsInError (.ccmEnc m) s .badKeyLength
        else if nonce.length ≠ 13 then EndsInError (.ccmEnc m) s .noNonce
        else if 127 < aux.length + m.toNat then EndsInError (.ccmEnc m) s .frameTooLong
        else EndsWithBytes (.ccmEnc m) s
          (ctr key nonce aux ++ xorBytes (macTag key nonce aad aux m.toNat) (tagMask key nonce m.toNat)))

/-- `45_ccm_security.md` R177 with R175, and the MIC in the closed form of R169 to R172. -/
def Obligations.CcmDecResult : Prop :=
  ∀ s m, decode (commandWord 0x51#8 m) = .ok (.ccmDec m) ∧
    (m ≠ 4#8 → m ≠ 8#8 → m ≠ 16#8 → EndsInError (.ccmDec m) s .illegalCommand) ∧
    (m = 4#8 ∨ m = 8#8 ∨ m = 16#8 → CapacityChecked (.ccmDec m) s [.key, .nonce, .aad, .aux] ∧
      ∀ key nonce aad aux, s.value .key = some key → s.value .nonce = some nonce → s.value .aad = some aad →
        s.value .aux = some aux →
        let c := aux.take (aux.length - m.toNat)
        let u := aux.drop (aux.length - m.toNat)
        if key.length ≠ 16 then EndsInError (.ccmDec m) s .badKeyLength
        else if nonce.length ≠ 13 then EndsInError (.ccmDec m) s .noNonce
        else if aux.length < m.toNat then EndsInError (.ccmDec m) s .badPayloadLength
        else if xorBytes (tagMask key nonce m.toNat) u = macTag key nonce aad (ctr key nonce c) m.toNat then
          EndsAs (.ccmDec m) s 0x0050#16 0x0000#16 noSlots (ctr key nonce c)
        else EndsInError (.ccmDec m) s .authenticationFailure)

/-- `45_ccm_security.md` R184 on the machine: CCM_ENC, MOVOA, CCM_DEC with the same argument return the plaintext
in OUT with AUTH_OK set. The spec marks R184 as derived from R173 to R175. -/
def Obligations.CcmCommandsRoundTrip : Prop :=
  ∀ s m key nonce aad p, m = 4#8 ∨ m = 8#8 ∨ m = 16#8 → s.value .key = some key → key.length = 16 →
    s.value .nonce = some nonce → nonce.length = 13 → s.value .aad = some aad → s.value .aux = some p →
    p.length + m.toNat ≤ 127 →
      ∃ t₁ t₂ t₃, exec (.ccmEnc m) s = .next t₁ ∧ exec .movoa t₁ = .next t₂ ∧ exec (.ccmDec m) t₂ = .next t₃ ∧
        t₃.status = 0x0050#16 ∧ t₃.value .out = some p

/-! ## Frame security -/

/-- `45_ccm_security.md` R180 with R178, R179 and `60_exceptions.md` R206. -/
def Obligations.SecDecryptResult : Prop :=
  ∀ s, ArgumentIsZero 0x52#8 .secDecrypt s ∧ CapacityChecked .secDecrypt s [.frame, .key] ∧
    FcsTooShort .secDecrypt s [.frame, .key] ∧ ∀ f key, HasFrame s f → s.value .key = some key →
      let h := macHeaderEnd f
      let n := nonceBytes f h
      let c := (f.drop (h + 6)).take (f.length - 8 - (h + 6))
      let u := f.drop (f.length - 8)
      if f.length < 9 ∨ f.length < h then EndsInError .secDecrypt s .tooShort
      else if sec f = false then EndsInError .secDecrypt s .unsupportedSecurityLevel
      else if f.length = h then EndsInError .secDecrypt s .badPayloadLength
      else if at' f h ≠ 0x06#8 then EndsInError .secDecrypt s .unsupportedSecurityLevel
      else if f.length < h + 15 then EndsInError .secDecrypt s .badPayloadLength
      else if key.length ≠ 16 then EndsInError .secDecrypt s .badKeyLength
      else if sam f ≠ 3#2 then EndsInError .secDecrypt s .noNonce
      else if xorBytes (tagMask key n 8) u = macTag key n (f.take (h + 6)) (ctr key n c) 8 then
        EndsAs .secDecrypt s 0x0050#16 0x0000#16 noSlots (ctr key n c)
      else EndsInError .secDecrypt s .authenticationFailure

/-- `45_ccm_security.md` R181 with R178, R179 and `60_exceptions.md` R206. -/
def Obligations.SecEncryptResult : Prop :=
  ∀ s, ArgumentIsZero 0x53#8 .secEncrypt s ∧ CapacityChecked .secEncrypt s [.frame, .aux, .key] ∧
    FcsTooShort .secEncrypt s [.frame, .aux, .key] ∧
    ∀ f aux key, HasFrame s f → s.value .aux = some aux → s.value .key = some key →
      let h := macHeaderEnd f
      let n := nonceBytes f h
      if f.length < 9 ∨ f.length < h then EndsInError .secEncrypt s .tooShort
      else if sec f = false then EndsInError .secEncrypt s .unsupportedSecurityLevel
      else if f.length = h then EndsInError .secEncrypt s .badPayloadLength
      else if at' f h ≠ 0x06#8 then EndsInError .secEncrypt s .unsupportedSecurityLevel
      else if f.length < h + 6 then EndsInError .secEncrypt s .badPayloadLength
      else if key.length ≠ 16 then EndsInError .secEncrypt s .badKeyLength
      else if aux.length = 0 then EndsInError .secEncrypt s .badPayloadLength
      else if 127 < h + 6 + aux.length + 8 then EndsInError .secEncrypt s .frameTooLong
      else if sam f ≠ 3#2 then EndsInError .secEncrypt s .noNonce
      else EndsWithBytes .secEncrypt s
        (ctr key n aux ++ xorBytes (macTag key n (f.take (h + 6)) aux 8) (tagMask key n 8))

/-- `45_ccm_security.md` R183, R184 on the machine: SEC_ENCRYPT, MOVOA, SPLICE (H + 6), MOVOF make the secured
frame, and SEC_DECRYPT on it returns the plaintext in OUT with AUTH_OK set. The spec marks R184 as derived from
R173 to R175. -/
def Obligations.SealedFrameDecrypts : Prop :=
  ∀ s t₁ f p, s.cfg.getLsbD 0 = false → s.value .frame = some f → s.value .aux = some p →
    exec .secEncrypt s = .next t₁ → t₁.code = 0x0#4 →
      ∃ o t₂ t₃ t₄ t₅, t₁.value .out = some o ∧ exec .movoa t₁ = .next t₂ ∧
        exec (.splice (BitVec.ofNat 8 (macHeaderEnd f + 6))) t₂ = .next t₃ ∧ exec .movof t₃ = .next t₄ ∧
        t₄.value .frame = some (f.take (macHeaderEnd f + 6) ++ o) ∧ exec .secDecrypt t₄ = .next t₅ ∧
        t₅.status = 0x0050#16 ∧ t₅.value .out = some p

/-! ## Frame check sequence -/

/-- `46_fcs.md` R191: the nibble algorithm is the bit-serial CRC with the reflected polynomial 0x8408 and start
0, least significant byte first. -/
def Obligations.FcsIsBitSerialCrc : Prop :=
  ∀ d, fcs d =
    let crc := (bitsOf d).foldl crcBit 0#16
    [crc.extractLsb' 0 8, crc.extractLsb' 8 8]

/-- `46_fcs.md` R192. -/
def Obligations.FcsCalcResult : Prop :=
  ∀ s, ArgumentIsZero 0x60#8 .fcsCalc s ∧ CapacityChecked .fcsCalc s [.frame] ∧
    ∀ fr, s.value .frame = some fr → EndsWithBytes .fcsCalc s (fcs fr)

/-- `46_fcs.md` R193: CRC_OK is 1 exactly when the last two bytes are the FCS of the bytes before them. That this
is exactly when the FCS of the whole frame is 00 00 the spec marks as derived from R191. -/
def Obligations.FcsCheckResult : Prop :=
  ∀ s, ArgumentIsZero 0x61#8 .fcsCheck s ∧ CapacityChecked .fcsCheck s [.frame] ∧
    ∀ fr, s.value .frame = some fr →
      if fr.length < 2 then EndsInError .fcsCheck s .tooShort
      else ((fcs (fr.take (fr.length - 2)) = fr.drop (fr.length - 2) ↔ fcs fr = [0x00#8, 0x00#8])) ∧
        EndsAs .fcsCheck s (if fcs (fr.take (fr.length - 2)) = fr.drop (fr.length - 2) then 0x0030#16 else 0x0010#16)
          0x0000#16 noSlots []

/-- `46_fcs.md` R194. -/
def Obligations.FcsAppendResult : Prop :=
  ∀ s, ArgumentIsZero 0x62#8 .fcsAppend s ∧ CapacityChecked .fcsAppend s [.frame] ∧
    ∀ fr, s.value .frame = some fr →
      if 125 < fr.length then EndsInError .fcsAppend s .frameTooLong
      else EndsWithBytes .fcsAppend s (fr ++ fcs fr)

/-- `46_fcs.md` R195: append then check succeeds; the FCS of a frame with its FCS is 00 00; a change of any
single bit is detected; leading zero bytes do not matter. The spec marks R195 as derived from R191. -/
def Obligations.FcsLaws : Prop :=
  (∀ s d, d.length ≤ 125 → s.value .frame = some (d ++ fcs d) →
    EndsAs .fcsCheck s 0x0030#16 0x0000#16 noSlots []) ∧
  (∀ d, fcs (d ++ fcs d) = [0x00#8, 0x00#8]) ∧
  (∀ s d i k, i < d.length + 2 → k < 8 →
    s.value .frame = some ((d ++ fcs d).set i (at' (d ++ fcs d) i ^^^ (1#8 <<< k))) →
      EndsAs .fcsCheck s 0x0010#16 0x0000#16 noSlots []) ∧
  (∀ n d, fcs (List.replicate n 0x00#8 ++ d) = fcs d)

/-! ## Scripts -/

/-- `30_encoding.md` R78: a legal load line gives the operand buffer exactly the bytes of the line and changes
nothing else of the block. That the bytes come before the length is the model's choice (assumption log 11). -/
def Obligations.LoadLineLoads : Prop :=
  ∀ s b bytes, s.pending = [] → ScriptLine.legal s (.load b bytes) = true →
    ∃ t, Host.Core.run core (bytes.length + 1) (s.issue (ScriptLine.actions (.load b bytes))) = .next t ∧
      t.value b = some bytes ∧ (∀ b', b' ≠ b → t.len b' = s.len b' ∧ t.value b' = s.value b') ∧
      (∀ a, ¬ (b.base ≤ a ∧ a < b.base + bytes.length) → t.mem.read a = s.mem.read a) ∧
      t.cfg = s.cfg ∧ t.status = s.status ∧ t.result = s.result ∧ t.slots = s.slots ∧ t.cmdLo = s.cmdLo ∧
      t.pending = []

/-- `10_state.md` R23: a script of legal lines never meets the case of an unwritten operand byte: from a state in
which every buffer is defined, each legal line runs to its end and leaves such a state. How the lines become host
actions is the model's choice (assumption log 11). -/
def Obligations.ScriptsNeverRefused : Prop :=
  ∀ s line, s.pending = [] → s.AllDefined → ScriptLine.legal s line = true →
    ∃ t, Host.Core.run core line.actions.length (s.issue line.actions) = .next t ∧ t.AllDefined ∧ t.pending = []
end

