-- ==== Sys2Proof/Laws/Cipher.lean ====
section
/-! SUPPORT. Lengths of what the cipher and the CCM* core compute: a block is 16 bytes, counter mode keeps the
length, a MIC has the length asked for. -/

namespace Sys2Proof.Machine

variable {key nonce aad msg d block : List Byte}

@[simp] theorem xorBytes_length (a b : List Byte) : (xorBytes a b).length = min a.length b.length := by
  simp [xorBytes]

/-- Adding the same bytes twice changes nothing. -/
theorem xorBytes_cancel (a b : List Byte) (h : a.length ≤ b.length) : xorBytes (xorBytes a b) b = a := by
  induction a generalizing b with
  | nil => rfl
  | cons x a ih =>
    cases b with
    | nil => simp at h
    | cons y b =>
      simp only [xorBytes, List.zipWith_cons_cons, List.cons.injEq] at ih ⊢
      exact ⟨by rw [BitVec.xor_assoc, BitVec.xor_self, BitVec.xor_zero], ih b (by simpa using h)⟩

theorem xorBytes_comm (a b : List Byte) : xorBytes a b = xorBytes b a := by
  unfold xorBytes
  rw [List.zipWith_comm]
  congr
  funext x y
  exact BitVec.xor_comm _ _

/-! ### AES -/

/-- A list of 4-byte words. -/
def IsWords (w : List (List Byte)) : Prop := ∀ x ∈ w, x.length = 4

theorem expandStep_words {w : List (List Byte)} {j : Nat} (hw : IsWords w) (h4 : 4 ≤ j) (hj : j = w.length) :
    IsWords (expandStep w j) ∧ (expandStep w j).length = w.length + 1 := by
  have get (i : Nat) (hi : i < w.length) : (w.getD i []).length = 4 :=
    hw _ (by rw [List.getD_eq_getElem _ _ hi]; exact List.getElem_mem hi)
  refine ⟨fun x hx => ?_, by simp [expandStep]⟩
  simp only [expandStep, List.mem_append, List.mem_singleton] at hx
  rcases hx with hx | rfl
  · exact hw x hx
  · have h1 := get (j - 1) (by omega)
    have h2 := get (j - 4) (by omega)
    generalize w.getD (j - 1) [] = p at h1 ⊢
    generalize w.getD (j - 4) [] = q at h2 ⊢
    split <;> simp [subWord, rotWord, rcon, h1, h2]

theorem expandKey_words (h : key.length = 16) : IsWords (expandKey key) ∧ (expandKey key).length = 44 := by
  have main : ∀ n (w : List (List Byte)), IsWords w → 4 ≤ w.length →
      IsWords ((List.range' w.length n).foldl expandStep w) ∧
        ((List.range' w.length n).foldl expandStep w).length = w.length + n := by
    intro n
    induction n with
    | zero => intro w hw _; exact ⟨hw, rfl⟩
    | succ n ih =>
      intro w hw h4
      obtain ⟨h1, h2⟩ := expandStep_words hw h4 rfl
      rw [List.range'_succ, List.foldl_cons]
      have := ih (expandStep w w.length) h1 (by omega)
      rw [h2] at this
      exact ⟨this.1, by rw [this.2]; omega⟩
  refine main 40 (keyWords key) (fun x hx => ?_) (by simp [keyWords])
  simp only [keyWords, List.mem_cons, List.not_mem_nil, or_false] at hx
  rcases hx with rfl | rfl | rfl | rfl <;> simp [slice, h]

theorem roundKey_length (h : key.length = 16) {k : Nat} (hk : k < 11) :
    (roundKey (expandKey key) k).length = 16 := by
  obtain ⟨hw, hl⟩ := expandKey_words h
  have get (i : Nat) (hi : i < 44) : ((expandKey key).getD i []).length = 4 :=
    hw _ (by rw [List.getD_eq_getElem _ _ (by omega)]; exact List.getElem_mem _)
  simp only [roundKey, List.length_append]
  rw [get _ (by omega), get _ (by omega), get _ (by omega), get _ (by omega)]

/-- AES answers 16 bytes at most, whatever its arguments. -/
theorem aesEnc_length_le : (aesEnc key block).length ≤ 16 := by
  simp only [aesEnc, aesLastRound, addRoundKey, xorBytes_length, shiftRows, List.length_map, List.length_range]
  omega

/-- AES on a 16-byte key answers a block. -/
theorem aesEnc_length (h : key.length = 16) : (aesEnc key block).length = 16 := by
  simp only [aesEnc, aesLastRound, addRoundKey, xorBytes_length, shiftRows, List.length_map, List.length_range]
  rw [roundKey_length h (by omega)]
  rfl

/-! ### CCM* -/

theorem keystream_length (h : key.length = 16) (n : Nat) : (keystream key nonce n).length = 16 * n := by
  have main : ∀ a, ((List.range' a n).flatMap fun i => aesEnc key (counterBlock nonce i)).length = 16 * n := by
    induction n with
    | zero => intro; rfl
    | succ n ih =>
      intro a
      rw [List.range'_succ, List.flatMap_cons, List.length_append, ih, aesEnc_length h]
      omega
  exact main 1

theorem ctr_length_le : (ctr key nonce d).length ≤ d.length := by
  unfold ctr; rw [xorBytes_length]; omega

theorem ctr_length (h : key.length = 16) : (ctr key nonce d).length = d.length := by
  unfold ctr
  rw [xorBytes_length, List.length_take, keystream_length h]
  omega

theorem s0_length (h : key.length = 16) : (s0 key nonce).length = 16 := aesEnc_length h

/-- A MIC has the length asked for, at most a block. -/
theorem cbcMac_length {mic : Nat} (h : key.length = 16) (hm : mic ≤ 16) :
    (cbcMac key nonce aad msg mic).length = mic := by
  have hl (b : List Byte) (m : Nat) : ((List.range m).foldl (cbcStep key b) (zeros 16)).length = 16 := by
    cases m with
    | zero => rfl
    | succ m =>
      rw [List.range_succ, List.foldl_append, List.foldl_cons, List.foldl_nil]
      exact aesEnc_length h
  unfold cbcMac
  dsimp only
  rw [List.length_take, hl]
  omega

end Sys2Proof.Machine
end

