-- ==== Sys2Proof/Laws/Codec.lean ====
section
/-! SUPPORT. What the codec functions can answer: every range they report lies within the frame, every range
of length 0 is `(0, 0)`, and their one error is `TooShort`. -/

namespace Sys2Proof.Machine

variable {f : List Byte} {e : ErrorStatus}

/-! ### Computations that may end in an error status -/

theorem bind_ok {α β : Type} {x : Except ErrorStatus α} {k : α → Except ErrorStatus β} {b : β}
    (h : x >>= k = .ok b) : ∃ a, x = .ok a ∧ k a = .ok b := by
  cases x with
  | error => cases h
  | ok a => exact ⟨a, rfl, h⟩

theorem bind_error {α β : Type} {x : Except ErrorStatus α} {k : α → Except ErrorStatus β}
    (h : x >>= k = .error e) : x = .error e ∨ ∃ a, x = .ok a ∧ k a = .error e := by
  cases x with
  | error => cases h; exact .inl rfl
  | ok a => exact .inr ⟨a, rfl, h⟩

theorem map_ok {α β : Type} {x : Except ErrorStatus α} {g : α → β} {b : β} (h : x.map g = .ok b) :
    ∃ a, x = .ok a ∧ g a = b := by
  cases x with
  | error => cases h
  | ok a => cases h; exact ⟨a, rfl, rfl⟩

theorem map_error {α β : Type} {x : Except ErrorStatus α} {g : α → β} (h : x.map g = .error e) :
    x = .error e := by
  cases x with
  | error => cases h; rfl
  | ok a => cases h

/-! ### Ranges -/

/-- The range lies within `n` bytes and is empty only as `(0, 0)`. -/
def Range.within (n : Nat) (r : Range) : Prop := r.off + r.len ≤ n ∧ (r.len = 0 → r.off = 0)

theorem Range.within_mono {n m : Nat} {r : Range} (h : r.within n) (hm : n ≤ m) : r.within m :=
  ⟨h.1.trans hm, h.2⟩

theorem absent_within {n : Nat} : Range.absent.within n := ⟨Nat.zero_le n, fun _ => rfl⟩

@[simp] theorem rangeAt_len (o w : Nat) : (rangeAt o w).len = w := by
  unfold rangeAt; split <;> simp_all

theorem rangeAt_within {n o w : Nat} (h : o + w ≤ n) : (rangeAt o w).within n := by
  unfold rangeAt
  split
  · exact absent_within
  · exact ⟨h, fun h' => absurd h' (by assumption)⟩

theorem restOf_within {o : Nat} : (restOf f o).within f.length := by
  unfold restOf
  split
  · exact ⟨by simp only; omega, fun h => by simp only at h; omega⟩
  · exact absent_within

/-! ### `take` -/

theorem takeField_error {p : Bool} {o w : Nat} (h : takeField f p o w = .error e) : e = .tooShort := by
  unfold takeField at h
  split at h
  · split at h <;> cases h; rfl
  · cases h

theorem takeField_ok {p : Bool} {o w o' : Nat} {r : Range} (ho : o ≤ f.length)
    (h : takeField f p o w = .ok (r, o')) : r.within f.length ∧ o' ≤ f.length := by
  unfold takeField at h
  split at h
  · split at h <;> cases h; exact ⟨rangeAt_within (by omega), by omega⟩
  · cases h; exact ⟨absent_within, ho⟩

/-! ### MAC -/

theorem macHdrlen_error (h : macHdrlen f = .error e) : e = .tooShort := by
  unfold macHdrlen at h; split at h <;> cases h; rfl

theorem macHdrlen_ok {n : Nat} (h : macHdrlen f = .ok n) : n ≤ 23 := by
  unfold macHdrlen at h
  split at h <;> cases h
  split <;> split <;> split <;> omega

theorem macPayloadlen_error (h : macPayloadlen f = .error e) : e = .tooShort := by
  unfold macPayloadlen at h
  rcases bind_error h with h | ⟨a, -, h⟩
  · exact macHdrlen_error h
  · split at h <;> cases h; rfl

theorem macPayloadlen_ok {n : Nat} (h : macPayloadlen f = .ok n) : n ≤ f.length := by
  unfold macPayloadlen at h
  obtain ⟨a, -, h⟩ := bind_ok h
  split at h <;> cases h; omega

theorem macAddr_error {f : List Byte} (h : macAddr f = .error e) : e = .tooShort := by
  unfold macAddr at h
  split at h
  · cases h; rfl
  · dsimp only at h; split at h <;> cases h; rfl

theorem macAddr_ok {a : MacAddr} (h : macAddr f = .ok a) :
    a.dstPan.within f.length ∧ a.dstAddr.within f.length ∧ a.srcPan.within f.length ∧
      a.srcAddr.within f.length ∧ a.off ≤ f.length ∧ 3 ≤ f.length := by
  unfold macAddr at h
  split at h
  · cases h
  · dsimp only at h
    split at h <;> cases h
    exact ⟨rangeAt_within (by omega), rangeAt_within (by omega), rangeAt_within (by omega),
      rangeAt_within (by omega), by simp only; omega, by omega⟩

theorem beaconFields_within (len : Nat) (ws : List Nat) : ∀ o, o ≤ len → (∀ w ∈ ws, 0 < w) →
    (∀ r ∈ (beaconFields len o ws).1, r.within len) ∧ (beaconFields len o ws).2 ≤ len ∧
      (beaconFields len o ws).1.length = ws.length := by
  induction ws with
  | nil => intro o ho _; simp [beaconFields, ho]
  | cons w ws ih =>
    intro o ho hp
    unfold beaconFields
    split
    · rename_i h
      have := ih (o + w) h fun w hw => hp w (List.mem_cons_of_mem _ hw)
      refine ⟨fun r hr => ?_, this.2.1, by simp [this.2.2]⟩
      rcases List.mem_cons.mp hr with rfl | hr
      · exact ⟨h, fun h' => by have := hp w (by simp); simp only at h'; omega⟩
      · exact this.1 r hr
    · exact ⟨fun r hr => by rw [List.eq_of_mem_replicate hr]; exact absent_within, ho, by simp⟩

theorem beaconPart_within {o : Nat} (h : o ≤ f.length) :
    (∀ r ∈ (beaconPart f o).1, r.within f.length) ∧ (beaconPart f o).2 ≤ f.length ∧
      (beaconPart f o).1.length = 9 := by
  unfold beaconPart
  split
  · exact beaconFields_within _ _ _ h (by decide)
  · exact ⟨fun r hr => by rw [List.eq_of_mem_replicate hr]; exact absent_within, h, by simp⟩

theorem macNonce_error (h : macNonce f = .error e) : e = .tooShort := by
  unfold macNonce at h
  split at h
  · cases h; rfl
  · split at h
    · cases h
    · rcases bind_error h with h | ⟨a, -, h⟩
      · exact macAddr_error h
      · split at h <;> cases h

theorem slice_length_le {b : List Byte} {i j : Nat} : (slice b i j).length ≤ j - i := by simp [slice]

theorem slice_length_le_length {b : List Byte} {i j : Nat} : (slice b i j).length ≤ b.length := by
  simp [slice]

theorem macNonce_length_le {n : List Byte} (h : macNonce f = .ok n) : n.length ≤ 13 := by
  unfold macNonce at h
  split at h
  · cases h
  split at h
  · cases h; simp
  obtain ⟨a, -, h⟩ := bind_ok h
  split at h <;> cases h
  · simp
  · simp only [List.length_append, List.length_reverse]
    have h1 := slice_length_le (b := f) (i := a.srcAddr.off) (j := a.srcAddr.off + 8)
    have h2 := slice_length_le (b := f) (i := a.off + 1) (j := a.off + 5)
    have h3 := slice_length_le (b := f) (i := a.off) (j := a.off + 1)
    omega

/-! ### The three chops -/

/-- A chop of `n` bytes: at most 17 fields, each within the bytes, and an end within them. -/
def Chop.within (n : Nat) (c : Chop) : Prop := (∀ r ∈ c.fields, r.within n) ∧ c.off ≤ n ∧ c.fields.length ≤ 17

theorem macChop_error (h : macChop f = .error e) : e = .tooShort := by
  unfold macChop at h
  rcases bind_error h with h | ⟨a, -, h⟩
  · exact macAddr_error h
  · cases h

theorem macChop_ok {c : Chop} (h : macChop f = .ok c) : c.within f.length := by
  unfold macChop at h
  obtain ⟨a, h1, h⟩ := bind_ok h
  have ha := macAddr_ok h1
  have hb := beaconPart_within ha.2.2.2.2.1
  generalize beaconPart f a.off = bp at *
  obtain ⟨bs, o⟩ := bp
  dsimp only at h hb
  injection h with h
  subst h
  refine ⟨fun r hr => ?_, hb.2.1, by simp [hb.2.2]⟩
  simp only [List.mem_append, List.mem_cons, List.not_mem_nil, or_false] at hr
  rcases hr with ((rfl | rfl | rfl | rfl | rfl | rfl) | hr) | (rfl | rfl)
  · exact ⟨by simp only; omega, by simp⟩
  · exact ⟨by simp only; omega, by simp⟩
  · exact ha.1
  · exact ha.2.1
  · exact ha.2.2.1
  · exact ha.2.2.2.1
  · exact hb.1 r hr
  · exact absent_within
  · exact restOf_within

theorem nwkChop_error (h : nwkChop f = .error e) : e = .tooShort := by
  unfold nwkChop at h
  split at h
  · cases h; rfl
  · dsimp only at h
    iterate 6
      rcases bind_error h with h | ⟨a, -, h⟩
      · exact takeField_error h
    cases h

theorem nwkChop_ok {c : Chop} (h : nwkChop f = .ok c) : c.within f.length := by
  unfold nwkChop at h
  split at h
  · cases h
  dsimp only at h
  obtain ⟨⟨r1, o1⟩, h1, h⟩ := bind_ok h
  obtain ⟨⟨r2, o2⟩, h2, h⟩ := bind_ok h
  obtain ⟨⟨r3, o3⟩, h3, h⟩ := bind_ok h
  obtain ⟨⟨r4, o4⟩, h4, h⟩ := bind_ok h
  obtain ⟨⟨r5, o5⟩, h5, h⟩ := bind_ok h
  obtain ⟨⟨r6, o6⟩, h6, h⟩ := bind_ok h
  have k1 := takeField_ok (by omega) h1
  have k2 := takeField_ok k1.2 h2
  have k3 := takeField_ok k2.2 h3
  have k4 := takeField_ok k3.2 h4
  have k5 := takeField_ok k4.2 h5
  have k6 := takeField_ok k5.2 h6
  cases h
  refine ⟨fun r hr => ?_, k6.2, by simp⟩
  simp only [List.mem_cons, List.not_mem_nil, or_false] at hr
  rcases hr with rfl | rfl | rfl | rfl | rfl | rfl | rfl | rfl | rfl | rfl | rfl | rfl
  iterate 5 exact ⟨by simp only; omega, by simp⟩
  exacts [k1.1, k2.1, k3.1, k4.1, k5.1, k6.1, restOf_within]

theorem apsChop_error (h : apsChop f = .error e) : e = .tooShort := by
  unfold apsChop at h
  split at h
  · cases h; rfl
  · dsimp only at h
    iterate 8
      rcases bind_error h with h | ⟨a, -, h⟩
      · exact takeField_error h
    cases h

theorem apsChop_ok {c : Chop} (h : apsChop f = .ok c) : c.within f.length := by
  unfold apsChop at h
  split at h
  · cases h
  dsimp only at h
  obtain ⟨⟨r1, o1⟩, h1, h⟩ := bind_ok h
  obtain ⟨⟨r2, o2⟩, h2, h⟩ := bind_ok h
  obtain ⟨⟨r3, o3⟩, h3, h⟩ := bind_ok h
  obtain ⟨⟨r4, o4⟩, h4, h⟩ := bind_ok h
  obtain ⟨⟨r5, o5⟩, h5, h⟩ := bind_ok h
  obtain ⟨⟨r6, o6⟩, h6, h⟩ := bind_ok h
  obtain ⟨⟨r7, o7⟩, h7, h⟩ := bind_ok h
  obtain ⟨⟨r8, o8⟩, h8, h⟩ := bind_ok h
  have k1 := takeField_ok (by omega) h1
  have k2 := takeField_ok k1.2 h2
  have k3 := takeField_ok k2.2 h3
  have k4 := takeField_ok k3.2 h4
  have k5 := takeField_ok k4.2 h5
  have k6 := takeField_ok k5.2 h6
  have k7 := takeField_ok k6.2 h7
  have k8 := takeField_ok k7.2 h8
  cases h
  refine ⟨fun r hr => ?_, k8.2, by simp⟩
  simp only [List.mem_cons, List.not_mem_nil, or_false] at hr
  rcases hr with rfl | rfl | rfl | rfl | rfl | rfl | rfl | rfl | rfl | rfl
  exact ⟨by simp only; omega, by simp⟩
  exacts [k1.1, k2.1, k3.1, k4.1, k5.1, k6.1, k7.1, k8.1, restOf_within]

/-! ### The effective frame -/

theorem effectiveFrame_error {cfg : Half} (h : effectiveFrame cfg f = .error e) : e = .tooShort := by
  unfold effectiveFrame at h
  split at h
  · split at h <;> cases h; rfl
  · cases h

theorem effectiveFrame_length_le {cfg : Half} {g : List Byte} (h : effectiveFrame cfg f = .ok g) :
    g.length ≤ f.length := by
  unfold effectiveFrame at h
  split at h
  · split at h <;> cases h; exact slice_length_le_length
  · cases h; exact le_refl _

end Sys2Proof.Machine
end

