-- ==== Sys2Proof/Laws/Decode.lean ====
section
/-! SUPPORT. The two bytes of a command word, taken apart and put together (`30_encoding.md` R70). -/

namespace Sys2Proof

theorem extractLow_append (x y : Byte) : (x ++ y).extractLsb' 0 8 = y := by
  ext i hi
  rw [BitVec.getElem_extractLsb', Nat.zero_add, BitVec.getLsbD_append]
  simp [hi]

theorem extractHigh_append (x y : Byte) : (x ++ y).extractLsb' 8 8 = x := by
  ext i hi
  rw [BitVec.getElem_extractLsb', BitVec.getLsbD_append]
  simp [hi]

theorem append_extract (w : Half) : w.extractLsb' 8 8 ++ w.extractLsb' 0 8 = w := by
  ext i hi
  simp only [BitVec.getElem_append, BitVec.getElem_extractLsb']
  split
  · simp [BitVec.getLsbD_eq_getElem hi]
  · simp [show 8 + (i - 8) = i by omega, BitVec.getLsbD_eq_getElem hi]

@[simp] theorem opcOf_commandWord (opc arg : Byte) : opcOf (commandWord opc arg) = opc :=
  extractLow_append arg opc

@[simp] theorem argOf_commandWord (opc arg : Byte) : argOf (commandWord opc arg) = arg :=
  extractHigh_append arg opc

@[simp] theorem commandWord_self (w : Half) : commandWord (opcOf w) (argOf w) = w := append_extract w

/-- Decoding a word given by its two bytes. -/
@[simp] theorem decode_commandWord (opc arg : Byte) : decode (commandWord opc arg) = decodeFields opc arg := by
  rw [decode, opcOf_commandWord, argOf_commandWord]

theorem Machine.lowByte_eq_opcOf (w : Half) : Machine.lowByte w = opcOf w := rfl

theorem Machine.highByte_eq_argOf (w : Half) : Machine.highByte w = argOf w := rfl

end Sys2Proof
end

