-- ==== Sys2Proof/Laws/Memory.lean ====
section
/-! SUPPORT. What each memory operation can do, read byte by byte, and that each keeps the canonical form. -/

namespace Sys2Proof.Machine

variable {m : Memory} {a a' lo n : Nat} {b : Byte} {bs : List Byte}

@[simp] theorem Memory.read_nil : Memory.read [] a = none := rfl

/-! ### One byte -/

theorem Memory.read_write_same : (m.write a b).read a = some b := by
  induction m with
  | nil => simp [Memory.write, Memory.read]
  | cons c m ih =>
    obtain ⟨x, v⟩ := c
    rw [Memory.write]
    split
    · simp [Memory.read]
    · split
      · simp [Memory.read]
      · rename_i hne
        simpa [Memory.read, hne] using ih

theorem Memory.read_write_other (h : a' ≠ a) : (m.write a b).read a' = m.read a' := by
  induction m with
  | nil => simp [Memory.write, Memory.read, Ne.symm h]
  | cons c m ih =>
    obtain ⟨x, v⟩ := c
    rw [Memory.write]
    split
    · simp [Memory.read, Ne.symm h]
    · split
      · rename_i hx
        subst hx
        simp [Memory.read, Ne.symm h]
      · simp [Memory.read, ih]

/-- Reading one byte after writing one byte. -/
theorem Memory.read_write : (m.write a b).read a' = if a' = a then some b else m.read a' := by
  by_cases h : a' = a
  · subst h; simp [Memory.read_write_same]
  · simp [h, Memory.read_write_other h]

/-! ### Runs of bytes -/

/-- Reading one byte after writing a run of bytes. -/
theorem Memory.read_writeAll :
    (m.writeAll a bs).read a' = if a ≤ a' ∧ a' < a + bs.length then bs[a' - a]? else m.read a' := by
  induction bs generalizing m a with
  | nil =>
    have : ¬ (a ≤ a' ∧ a' < a + ([] : List Byte).length) := by simp
    rw [if_neg this]; rfl
  | cons b bs ih =>
    rw [Memory.writeAll, ih, Memory.read_write, List.length_cons]
    rcases Nat.lt_trichotomy a' a with h | h | h
    · rw [if_neg (by omega), if_neg (by omega), if_neg (by omega)]
    · subst h
      rw [if_neg (by omega), if_pos rfl, if_pos (by omega)]
      simp
    · obtain ⟨k, rfl⟩ : ∃ k, a' = a + 1 + k := ⟨a' - (a + 1), by omega⟩
      rw [show a + 1 + k - a = k + 1 by omega, show a + 1 + k - (a + 1) = k by omega,
        List.getElem?_cons_succ, if_neg (show ¬ a + 1 + k = a by omega)]
      by_cases hk : k < bs.length
      · rw [if_pos (by omega), if_pos (by omega)]
      · rw [if_neg (by omega), if_neg (by omega)]

/-- Reading one byte after a range lost its values. -/
theorem Memory.read_erase :
    (m.erase a n).read a' = if a ≤ a' ∧ a' < a + n then none else m.read a' := by
  induction m with
  | nil => simp [Memory.erase]
  | cons c m ih =>
    obtain ⟨x, v⟩ := c
    have ih' : Memory.read (m.filter fun c => !(a ≤ c.1 && c.1 < a + n)) a'
        = if a ≤ a' ∧ a' < a + n then none else Memory.read m a' := ih
    rw [Memory.erase, List.filter_cons]
    by_cases hx : a ≤ x ∧ x < a + n
    · have hc : (!(decide (a ≤ x) && decide (x < a + n))) = false := by simp [hx.1, hx.2]
      simp only [hc, Bool.false_eq_true, if_false, ih']
      by_cases ha : a ≤ a' ∧ a' < a + n
      · simp [ha]
      · have : x ≠ a' := by rintro rfl; exact ha hx
        simp [ha, Memory.read, this]
    · have hc : (!(decide (a ≤ x) && decide (x < a + n))) = true := by
        simp only [Bool.not_eq_true', Bool.and_eq_false_iff, decide_eq_false_iff_not]; omega
      simp only [hc, if_true, Memory.read, ih']
      by_cases e : x = a'
      · subst e; simp [hx]
      · simp [e]

/-- A run of bytes is read exactly when each of its bytes has a value. -/
theorem Memory.readAll_eq_some :
    m.readAll a n = some bs ↔ bs.length = n ∧ ∀ i, i < n → m.read (a + i) = bs[i]? := by
  induction n generalizing a bs with
  | zero =>
    simp only [Memory.readAll, Option.some.injEq, Nat.not_lt_zero, false_implies, implies_true, and_true]
    constructor
    · rintro rfl; rfl
    · intro h; exact (List.eq_nil_of_length_eq_zero h).symm
  | succ n ih =>
    rw [Memory.readAll]
    constructor
    · intro h
      cases hb : m.read a with
      | none => simp [hb] at h
      | some v =>
        cases hr : m.readAll (a + 1) n with
        | none => simp [hb, hr] at h
        | some vs =>
          simp only [hb, hr, Option.some.injEq] at h
          subst h
          obtain ⟨hl, hi⟩ := ih.mp hr
          refine ⟨by simp [hl], ?_⟩
          rintro (_ | i) h
          · simp [hb]
          · have := hi i (by omega)
            rw [show a + (i + 1) = a + 1 + i by omega, this]; simp
    · rintro ⟨hl, hi⟩
      cases bs with
      | nil => simp at hl
      | cons v vs =>
        have h0 := hi 0 (by omega)
        simp only [Nat.add_zero, List.getElem?_cons_zero] at h0
        have hr : m.readAll (a + 1) n = some vs := by
          refine ih.mpr ⟨by simpa using hl, fun i h => ?_⟩
          have := hi (i + 1) (by omega)
          rw [show a + 1 + i = a + (i + 1) by omega, this]; simp
        simp [h0, hr]

/-- Reading a run depends only on the bytes of the run. -/
theorem Memory.readAll_congr {m' : Memory} (h : ∀ i, i < n → m'.read (a + i) = m.read (a + i)) :
    m'.readAll a n = m.readAll a n := by
  induction n generalizing a with
  | zero => rfl
  | succ n ih =>
    have h0 := h 0 (by omega)
    have hs : m'.readAll (a + 1) n = m.readAll (a + 1) n :=
      ih fun i hi => by simpa [Nat.add_assoc, Nat.add_comm 1 i] using h (i + 1) (by omega)
    simp only [Nat.add_zero] at h0
    rw [Memory.readAll, Memory.readAll, h0, hs]

/-! ### The canonical form -/

theorem Memory.risesAbove_mono (h : lo ≤ n) (hm : m.risesAbove n = true) : m.risesAbove lo = true := by
  cases m with
  | nil => rfl
  | cons c m =>
    simp only [Memory.risesAbove, Bool.and_eq_true, decide_eq_true_eq] at hm ⊢
    exact ⟨by omega, hm.2⟩

theorem Memory.risesAbove_write (h : lo < a) (hm : m.risesAbove lo = true) :
    (m.write a b).risesAbove lo = true := by
  induction m generalizing lo with
  | nil => simpa [Memory.write, Memory.risesAbove] using h
  | cons c m ih =>
    obtain ⟨x, v⟩ := c
    simp only [Memory.risesAbove, Bool.and_eq_true, decide_eq_true_eq] at hm
    rw [Memory.write]
    split
    · simp [Memory.risesAbove, *]
    · split
      · rename_i hx
        subst hx
        simp [Memory.risesAbove, h, hm.2]
      · simp only [Memory.risesAbove, Bool.and_eq_true, decide_eq_true_eq]
        exact ⟨hm.1, ih (by omega) hm.2⟩

theorem Memory.risesAbove_erase (hm : m.risesAbove lo = true) : (m.erase a n).risesAbove lo = true := by
  induction m generalizing lo with
  | nil => rfl
  | cons c m ih =>
    obtain ⟨x, v⟩ := c
    simp only [Memory.risesAbove, Bool.and_eq_true, decide_eq_true_eq] at hm
    have ih' : ∀ lo, Memory.risesAbove lo m = true →
        Memory.risesAbove lo (m.filter fun c => !(a ≤ c.1 && c.1 < a + n)) = true := fun lo h => ih h
    rw [Memory.erase, List.filter_cons]
    split
    · simp only [Memory.risesAbove, Bool.and_eq_true, decide_eq_true_eq]
      exact ⟨hm.1, ih' x hm.2⟩
    · exact Memory.risesAbove_mono (Nat.le_of_lt hm.1) (ih' x hm.2)

theorem Memory.mem_write {c : Host.Cell} (h : c ∈ m.write a b) : c = (a, b) ∨ c ∈ m := by
  induction m with
  | nil => simpa [Memory.write] using h
  | cons d m ih =>
    obtain ⟨x, v⟩ := d
    rw [Memory.write] at h
    split at h
    · simpa using h
    · split at h
      · rcases List.mem_cons.mp h with h | h
        · exact .inl h
        · exact .inr (List.mem_cons_of_mem _ h)
      · rcases List.mem_cons.mp h with h | h
        · exact .inr (h ▸ List.mem_cons_self)
        · exact (ih h).imp id (List.mem_cons_of_mem _)

theorem bufferAddress_pos (h : bufferAddress a = true) : 0 < a := by
  rcases Nat.eq_zero_or_pos a with rfl | h'
  · exact absurd h (by decide)
  · exact h'

theorem Memory.wf_write (h : bufferAddress a = true) (hm : m.wf = true) : (m.write a b).wf = true := by
  simp only [Memory.wf, Bool.and_eq_true, List.all_eq_true] at hm ⊢
  refine ⟨Memory.risesAbove_write (bufferAddress_pos h) hm.1, fun c hc => ?_⟩
  rcases Memory.mem_write hc with rfl | hc
  · exact h
  · exact hm.2 c hc

theorem Memory.wf_writeAll (h : ∀ i, i < bs.length → bufferAddress (a + i) = true) (hm : m.wf = true) :
    (m.writeAll a bs).wf = true := by
  induction bs generalizing m a with
  | nil => exact hm
  | cons b bs ih =>
    refine ih (fun i hi => ?_) (Memory.wf_write (by simpa using h 0 (by simp)) hm)
    have := h (i + 1) (by simpa using hi)
    rwa [show a + 1 + i = a + (i + 1) by omega]

theorem Memory.wf_erase (hm : m.wf = true) : (m.erase a n).wf = true := by
  simp only [Memory.wf, Bool.and_eq_true, List.all_eq_true] at hm ⊢
  exact ⟨Memory.risesAbove_erase hm.1, fun c hc => hm.2 c (List.mem_of_mem_filter hc)⟩

theorem Memory.wf_reset : State.reset.mem.wf = true := rfl

/-- The bytes of a buffer's array are the addresses at which memory may list a byte. -/
theorem bufferAddress_of_holds {b : Buf} (h : b.holds a = true) : bufferAddress a = true := by
  simp only [bufferAddress, List.any_eq_true]
  exact ⟨b, by cases b <;> decide, h⟩

theorem Buf.holds_iff {b : Buf} : b.holds a = true ↔ b.base ≤ a ∧ a < b.base + b.cap := by
  simp [Buf.holds]

/-- The arrays of two buffers share no address. -/
theorem Buf.holds_disjoint {b b' : Buf} (hne : b ≠ b') (h : b.holds a = true) : b'.holds a = false := by
  rw [Buf.holds_iff] at h
  rw [← Bool.not_eq_true, Buf.holds_iff]
  cases b <;> cases b' <;> simp_all [Buf.base, Buf.cap, Config.maxFrame, Config.keyCap, Config.nonceLen] <;>
    omega

/-- Two memories in canonical form that read alike are the same memory. -/
theorem Memory.risesAbove_read_none (hm : m.risesAbove lo = true) (h : a ≤ lo) : m.read a = none := by
  induction m generalizing lo with
  | nil => rfl
  | cons c m ih =>
    obtain ⟨x, v⟩ := c
    simp only [Memory.risesAbove, Bool.and_eq_true, decide_eq_true_eq] at hm
    simp [Memory.read, show x ≠ a by omega, ih hm.2 (by omega)]

theorem Memory.ext_of_rises {m' : Memory} (hm : m.risesAbove lo = true) (hm' : m'.risesAbove lo = true)
    (h : ∀ a, m.read a = m'.read a) : m = m' := by
  induction m generalizing m' lo with
  | nil =>
    cases m' with
    | nil => rfl
    | cons c m' => have := h c.1; simp [Memory.read] at this
  | cons c m ih =>
    obtain ⟨x, v⟩ := c
    cases m' with
    | nil => have := h x; simp [Memory.read] at this
    | cons c' m' =>
      obtain ⟨x', v'⟩ := c'
      simp only [Memory.risesAbove, Bool.and_eq_true, decide_eq_true_eq] at hm hm'
      have hx : x = x' := by
        rcases Nat.lt_trichotomy x x' with hlt | he | hlt
        · have := h x
          simp [Memory.read, show x' ≠ x by omega, Memory.risesAbove_read_none hm'.2 (Nat.le_of_lt hlt)] at this
        · exact he
        · have := h x'
          simp [Memory.read, show x ≠ x' by omega, Memory.risesAbove_read_none hm.2 (Nat.le_of_lt hlt)] at this
      subst hx
      have hv : v = v' := by simpa [Memory.read] using h x
      subst hv
      rw [ih hm.2 hm'.2 fun a => ?_]
      by_cases ha : x = a
      · subst ha
        rw [Memory.risesAbove_read_none hm.2 (Nat.le_refl _), Memory.risesAbove_read_none hm'.2 (Nat.le_refl _)]
      · simpa [Memory.read, ha] using h a

end Sys2Proof.Machine
end

