-- ==== Sys2Proof/Laws/State.lean ====
section
/-! SUPPORT. One lemma for each field of State and each update of it, so that no later proof unfolds a record
update. -/

namespace Sys2Proof.Machine

variable {s : State} {b b' : Buf} {bytes : List Byte} {n : Byte} {e : ErrorStatus}
  {status result : Half} {slots : Vector Slot Config.nslot} {out : List Byte} {rest : List HostAction} {w : Half}

/-! ### A length register -/

@[simp] theorem State.setLen_mem : (s.setLen b n).mem = s.mem := by cases b <;> rfl
@[simp] theorem State.setLen_cfg : (s.setLen b n).cfg = s.cfg := by cases b <;> rfl
@[simp] theorem State.setLen_slots : (s.setLen b n).slots = s.slots := by cases b <;> rfl
@[simp] theorem State.setLen_result : (s.setLen b n).result = s.result := by cases b <;> rfl
@[simp] theorem State.setLen_status : (s.setLen b n).status = s.status := by cases b <;> rfl
@[simp] theorem State.setLen_cmdLo : (s.setLen b n).cmdLo = s.cmdLo := by cases b <;> rfl
@[simp] theorem State.setLen_pending : (s.setLen b n).pending = s.pending := by cases b <;> rfl
@[simp] theorem State.setLen_reply : (s.setLen b n).reply = s.reply := by cases b <;> rfl
@[simp] theorem State.setLen_accesses : (s.setLen b n).accesses = s.accesses := by cases b <;> rfl
@[simp] theorem State.setLen_len : (s.setLen b n).len b' = if b' = b then n else s.len b' := by
  cases b <;> cases b' <;> rfl
@[simp] theorem State.len_frame : s.len .frame = s.frameLen := rfl
@[simp] theorem State.len_aux : s.len .aux = s.auxLen := rfl
@[simp] theorem State.len_aad : s.len .aad = s.aadLen := rfl
@[simp] theorem State.len_key : s.len .key = s.keyLen := rfl
@[simp] theorem State.len_nonce : s.len .nonce = s.nonceLen := rfl
@[simp] theorem State.len_out : s.len .out = s.outLen := rfl

/-! ### A whole buffer -/

@[simp] theorem State.setBuffer_cfg : (s.setBuffer b bytes).cfg = s.cfg := by cases b <;> rfl
@[simp] theorem State.setBuffer_slots : (s.setBuffer b bytes).slots = s.slots := by cases b <;> rfl
@[simp] theorem State.setBuffer_result : (s.setBuffer b bytes).result = s.result := by cases b <;> rfl
@[simp] theorem State.setBuffer_status : (s.setBuffer b bytes).status = s.status := by cases b <;> rfl
@[simp] theorem State.setBuffer_cmdLo : (s.setBuffer b bytes).cmdLo = s.cmdLo := by cases b <;> rfl
@[simp] theorem State.setBuffer_pending : (s.setBuffer b bytes).pending = s.pending := by cases b <;> rfl
@[simp] theorem State.setBuffer_reply : (s.setBuffer b bytes).reply = s.reply := by cases b <;> rfl
@[simp] theorem State.setBuffer_accesses : (s.setBuffer b bytes).accesses = s.accesses := by cases b <;> rfl
@[simp] theorem State.setBuffer_mem : (s.setBuffer b bytes).mem = s.mem.writeAll b.base bytes := by
  cases b <;> rfl
@[simp] theorem State.setBuffer_len :
    (s.setBuffer b bytes).len b' = if b' = b then BitVec.ofNat 8 bytes.length else s.len b' := by
  cases b <;> cases b' <;> rfl

/-! ### The result record -/

@[simp] theorem State.setRecord_mem : (s.setRecord status result slots out).mem =
    (s.mem.erase Buf.out.base Buf.out.cap).writeAll Buf.out.base out := rfl
@[simp] theorem State.setRecord_frameLen : (s.setRecord status result slots out).frameLen = s.frameLen := rfl
@[simp] theorem State.setRecord_auxLen : (s.setRecord status result slots out).auxLen = s.auxLen := rfl
@[simp] theorem State.setRecord_aadLen : (s.setRecord status result slots out).aadLen = s.aadLen := rfl
@[simp] theorem State.setRecord_keyLen : (s.setRecord status result slots out).keyLen = s.keyLen := rfl
@[simp] theorem State.setRecord_nonceLen : (s.setRecord status result slots out).nonceLen = s.nonceLen := rfl
@[simp] theorem State.setRecord_outLen : (s.setRecord status result slots out).outLen =
    BitVec.ofNat 8 out.length := rfl
@[simp] theorem State.setRecord_cfg : (s.setRecord status result slots out).cfg = s.cfg := rfl
@[simp] theorem State.setRecord_slots : (s.setRecord status result slots out).slots = slots := rfl
@[simp] theorem State.setRecord_result : (s.setRecord status result slots out).result = result := rfl
@[simp] theorem State.setRecord_status : (s.setRecord status result slots out).status = status := rfl
@[simp] theorem State.setRecord_cmdLo : (s.setRecord status result slots out).cmdLo = s.cmdLo := rfl
@[simp] theorem State.setRecord_pending : (s.setRecord status result slots out).pending = s.pending := rfl
@[simp] theorem State.setRecord_reply : (s.setRecord status result slots out).reply = s.reply := rfl
@[simp] theorem State.setRecord_accesses : (s.setRecord status result slots out).accesses = s.accesses := rfl
@[simp] theorem State.setRecord_len_operand (h : b ≠ .out) :
    (s.setRecord status result slots out).len b = s.len b := by
  cases b <;> first | rfl | exact absurd rfl h

/-! ### An error status -/

@[simp] theorem raise_mem : (raise e s).mem = s.mem.erase Buf.out.base Buf.out.cap := rfl
@[simp] theorem raise_frameLen : (raise e s).frameLen = s.frameLen := rfl
@[simp] theorem raise_auxLen : (raise e s).auxLen = s.auxLen := rfl
@[simp] theorem raise_aadLen : (raise e s).aadLen = s.aadLen := rfl
@[simp] theorem raise_keyLen : (raise e s).keyLen = s.keyLen := rfl
@[simp] theorem raise_nonceLen : (raise e s).nonceLen = s.nonceLen := rfl
@[simp] theorem raise_outLen : (raise e s).outLen = 0#8 := rfl
@[simp] theorem raise_cfg : (raise e s).cfg = s.cfg := rfl
@[simp] theorem raise_slots : (raise e s).slots = slotsOf [] := rfl
@[simp] theorem raise_result : (raise e s).result = 0#16 := rfl
@[simp] theorem raise_status : (raise e s).status = statusWord e.code false false := rfl
@[simp] theorem raise_cmdLo : (raise e s).cmdLo = s.cmdLo := rfl
@[simp] theorem raise_pending : (raise e s).pending = s.pending := rfl
@[simp] theorem raise_reply : (raise e s).reply = s.reply := rfl
@[simp] theorem raise_accesses : (raise e s).accesses = s.accesses := rfl
@[simp] theorem raise_len_operand (h : b ≠ .out) : (raise e s).len b = s.len b :=
  State.setRecord_len_operand h

/-! ### Reset -/

@[simp] theorem State.resetBlock_mem : s.resetBlock.mem = State.reset.mem := rfl
@[simp] theorem State.resetBlock_frameLen : s.resetBlock.frameLen = State.reset.frameLen := rfl
@[simp] theorem State.resetBlock_auxLen : s.resetBlock.auxLen = State.reset.auxLen := rfl
@[simp] theorem State.resetBlock_aadLen : s.resetBlock.aadLen = State.reset.aadLen := rfl
@[simp] theorem State.resetBlock_keyLen : s.resetBlock.keyLen = State.reset.keyLen := rfl
@[simp] theorem State.resetBlock_nonceLen : s.resetBlock.nonceLen = State.reset.nonceLen := rfl
@[simp] theorem State.resetBlock_outLen : s.resetBlock.outLen = State.reset.outLen := rfl
@[simp] theorem State.resetBlock_cfg : s.resetBlock.cfg = State.reset.cfg := rfl
@[simp] theorem State.resetBlock_slots : s.resetBlock.slots = State.reset.slots := rfl
@[simp] theorem State.resetBlock_result : s.resetBlock.result = State.reset.result := rfl
@[simp] theorem State.resetBlock_status : s.resetBlock.status = State.reset.status := rfl
@[simp] theorem State.resetBlock_cmdLo : s.resetBlock.cmdLo = State.reset.cmdLo := rfl
@[simp] theorem State.resetBlock_pending : s.resetBlock.pending = s.pending := rfl
@[simp] theorem State.resetBlock_reply : s.resetBlock.reply = s.reply := rfl
@[simp] theorem State.resetBlock_accesses : s.resetBlock.accesses = s.accesses := rfl

/-! ### The host's next action -/

@[simp] theorem State.taken_mem : (s.taken rest).mem = s.mem := rfl
@[simp] theorem State.taken_frameLen : (s.taken rest).frameLen = s.frameLen := rfl
@[simp] theorem State.taken_auxLen : (s.taken rest).auxLen = s.auxLen := rfl
@[simp] theorem State.taken_aadLen : (s.taken rest).aadLen = s.aadLen := rfl
@[simp] theorem State.taken_keyLen : (s.taken rest).keyLen = s.keyLen := rfl
@[simp] theorem State.taken_nonceLen : (s.taken rest).nonceLen = s.nonceLen := rfl
@[simp] theorem State.taken_outLen : (s.taken rest).outLen = s.outLen := rfl
@[simp] theorem State.taken_cfg : (s.taken rest).cfg = s.cfg := rfl
@[simp] theorem State.taken_slots : (s.taken rest).slots = s.slots := rfl
@[simp] theorem State.taken_result : (s.taken rest).result = s.result := rfl
@[simp] theorem State.taken_status : (s.taken rest).status = s.status := rfl
@[simp] theorem State.taken_cmdLo : (s.taken rest).cmdLo = s.cmdLo := rfl
@[simp] theorem State.taken_pending : (s.taken rest).pending = rest := rfl
@[simp] theorem State.taken_reply : (s.taken rest).reply = s.reply := rfl
@[simp] theorem State.taken_accesses : (s.taken rest).accesses = s.accesses + 1 := rfl

@[simp] theorem State.presentWord_mem : (s.presentWord w).mem = s.mem := rfl
@[simp] theorem State.presentWord_frameLen : (s.presentWord w).frameLen = s.frameLen := rfl
@[simp] theorem State.presentWord_auxLen : (s.presentWord w).auxLen = s.auxLen := rfl
@[simp] theorem State.presentWord_aadLen : (s.presentWord w).aadLen = s.aadLen := rfl
@[simp] theorem State.presentWord_keyLen : (s.presentWord w).keyLen = s.keyLen := rfl
@[simp] theorem State.presentWord_nonceLen : (s.presentWord w).nonceLen = s.nonceLen := rfl
@[simp] theorem State.presentWord_outLen : (s.presentWord w).outLen = s.outLen := rfl
@[simp] theorem State.presentWord_cfg : (s.presentWord w).cfg = s.cfg := rfl
@[simp] theorem State.presentWord_slots : (s.presentWord w).slots = s.slots := rfl
@[simp] theorem State.presentWord_result : (s.presentWord w).result = s.result := rfl
@[simp] theorem State.presentWord_status : (s.presentWord w).status = s.status := rfl
@[simp] theorem State.presentWord_cmdLo : (s.presentWord w).cmdLo = s.cmdLo := rfl
@[simp] theorem State.presentWord_pending : (s.presentWord w).pending = .write16 0x000#10 w :: s.pending := rfl
@[simp] theorem State.presentWord_reply : (s.presentWord w).reply = s.reply := rfl
@[simp] theorem State.presentWord_accesses : (s.presentWord w).accesses = s.accesses := rfl

end Sys2Proof.Machine
end

