-- ==== Sys2Proof/Laws/Ops.lean ====
section
/-! SUPPORT. For each shared operation, once, everything it can do: reading a buffer, the result record, the
two ways a command ends, and the operand checks. -/

namespace Sys2Proof.Machine

variable {s t : State} {b : Buf} {bytes out f fr : List Byte} {e : ErrorStatus} {bs : List Buf}
  {status result : Half} {slots : Vector Slot Config.nslot}

theorem slotsOf_nil : slotsOf [] = noSlots := rfl

theorem Buf.cap_le : b.cap ≤ 127 := by cases b <;> decide

/-! ### Reading a buffer -/

/-- The value of a buffer is its array up to its length register (`10_state.md` R22). -/
theorem State.value_eq_some : s.value b = some bytes ↔
    (s.len b).toNat ≤ b.cap ∧ bytes.length = (s.len b).toNat ∧
      ∀ i, i < (s.len b).toNat → s.mem.read (b.base + i) = bytes[i]? := by
  by_cases h : (s.len b).toNat ≤ b.cap
  · simp [State.value, State.overCapacity, Nat.not_lt.mpr h, Memory.readAll_eq_some, h]
  · simp [State.value, State.overCapacity, Nat.not_le.mp h, h]

theorem State.value_length (h : s.value b = some bytes) : bytes.length = (s.len b).toNat :=
  (State.value_eq_some.mp h).2.1

theorem State.value_length_le (h : s.value b = some bytes) : bytes.length ≤ b.cap :=
  State.value_length h ▸ (State.value_eq_some.mp h).1

theorem State.bytes_eq (h : s.value b = some bytes) : s.bytes b = bytes := by simp [State.bytes, h]

/-- The value of a buffer depends on its length register and its own array only. -/
theorem State.value_congr (hl : t.len b = s.len b)
    (hm : ∀ i, i < b.cap → t.mem.read (b.base + i) = s.mem.read (b.base + i)) : t.value b = s.value b := by
  unfold State.value State.overCapacity
  rw [hl]
  split
  · rfl
  · rename_i h
    exact Memory.readAll_congr fun i hi => hm i (by simp at h; omega)

theorem Kept.value {writes : List Buf} (h : Kept writes s t) (hb : b ∉ writes) : t.value b = s.value b := by
  refine State.value_congr (h.len b hb) fun i hi => h.mem _ fun b' hb' => ?_
  have hne : b ≠ b' := by rintro rfl; exact hb hb'
  exact Buf.holds_disjoint hne (Buf.holds_iff.mpr ⟨by omega, by omega⟩)

theorem Kept.trans {writes : List Buf} {u : State} (h : Kept writes s t) (h' : Kept writes t u) :
    Kept writes s u where
  len b hb := (h'.len b hb).trans (h.len b hb)
  mem a ha := (h'.mem a ha).trans (h.mem a ha)
  cfg := h'.cfg.trans h.cfg
  cmdLo := h'.cmdLo.trans h.cmdLo
  pending := h'.pending.trans h.pending
  reply := h'.reply.trans h.reply
  accesses := h'.accesses.trans h.accesses

theorem Kept.mono {writes writes' : List Buf} (h : Kept writes s t) (hw : ∀ b, b ∈ writes → b ∈ writes') :
    Kept writes' s t where
  len b hb := h.len b fun hm => hb (hw b hm)
  mem a ha := h.mem a fun b hb => ha b (hw b hb)
  cfg := h.cfg
  cmdLo := h.cmdLo
  pending := h.pending
  reply := h.reply
  accesses := h.accesses

theorem Kept.refl {writes : List Buf} : Kept writes s s := ⟨fun _ _ => rfl, fun _ _ => rfl, rfl, rfl, rfl, rfl, rfl⟩

/-! ### The result record -/

/-- Writing the record leaves OUT_mem listing exactly the bytes of OUT (assumption log 6). -/
theorem setRecord_outBytes {i : Nat} (hi : i < Config.maxFrame) :
    (s.setRecord status result slots out).mem.read (Buf.out.base + i) = out[i]? := by
  simp only [State.setRecord_mem, Memory.read_writeAll, Memory.read_erase, Buf.cap]
  by_cases hl : i < out.length
  · rw [if_pos (by omega), Nat.add_sub_cancel_left]
  · rw [if_neg (by omega), if_pos (by omega), List.getElem?_eq_none (by omega)]

/-- Writing the record leaves the record. -/
theorem setRecord_recordIs (h : out.length ≤ Config.maxFrame) :
    RecordIs (s.setRecord status result slots out) status result slots out where
  status := rfl
  result := rfl
  slots := rfl
  outLen := by
    simp only [State.setRecord_outLen, BitVec.toNat_ofNat]
    exact Nat.mod_eq_of_lt (by simp [Config.maxFrame] at h; omega)
  out i hi := setRecord_outBytes (by omega)

/-- Writing the record leaves everything else. -/
theorem setRecord_kept (h : out.length ≤ Config.maxFrame) :
    Kept [.out] s (s.setRecord status result slots out) where
  len b hb := State.setRecord_len_operand (by simpa using hb)
  mem a ha := by
    have ha' := ha .out (by simp)
    rw [← Bool.not_eq_true, Buf.holds_iff] at ha'
    simp only [Buf.cap] at ha'
    simp only [State.setRecord_mem, Memory.read_writeAll, Memory.read_erase, Buf.cap]
    rw [if_neg (by omega), if_neg ha']
  cfg := rfl
  cmdLo := rfl
  pending := rfl
  reply := rfl
  accesses := rfl

/-- OUT after writing the record. -/
theorem RecordIs.value_out (h : RecordIs t status result slots out) (hl : out.length ≤ Config.maxFrame) :
    t.value .out = some out :=
  State.value_eq_some.mpr ⟨by rw [State.len_out, h.outLen]; exact hl, by rw [State.len_out, h.outLen],
    fun i hi => h.out i (by rw [State.len_out, h.outLen] at hi; omega)⟩

/-- STATUS.CODE of a status word. -/
theorem statusWord_code (c : BitVec 4) (x y : Bool) : (statusWord c x y).extractLsb' 0 4 = c := by
  revert c x y; decide

/-- CODE after a command. -/
theorem RecordIs.code {c : BitVec 4} {x y : Bool} (h : RecordIs t (statusWord c x y) result slots out) :
    t.code = c := by
  rw [State.code, h.status, statusWord_code]

/-- An error status leaves the cleared record and nothing else (`60_exceptions.md` R207, R208). -/
theorem raise_endsWith : EndsWith e s (raise e s) :=
  ⟨setRecord_recordIs (by simp), setRecord_kept (by simp)⟩

@[simp] theorem raise_code : (raise e s).code = e.code := by
  rw [State.code, raise_status, statusWord_code]

theorem ErrorStatus.code_ne_ok : e.code ≠ okCode := by cases e <;> decide

theorem ErrorStatus.code_injective {e' : ErrorStatus} (h : e.code = e'.code) : e = e' := by
  revert h; cases e <;> cases e' <;> decide

/-! ### Replacing a buffer -/

/-- Replacing a buffer writes its first bytes and its length. -/
theorem State.setBuffer_value (h : bytes.length ≤ b.cap) : (s.setBuffer b bytes).value b = some bytes := by
  have hc : b.cap ≤ 127 := Buf.cap_le
  have hl : ((s.setBuffer b bytes).len b).toNat = bytes.length := by
    rw [State.setBuffer_len, if_pos rfl, BitVec.toNat_ofNat]
    exact Nat.mod_eq_of_lt (by omega)
  refine State.value_eq_some.mpr ⟨by omega, hl.symm, fun i hi => ?_⟩
  rw [State.setBuffer_mem, Memory.read_writeAll, if_pos (by omega), Nat.add_sub_cancel_left]

/-- Replacing a buffer leaves every byte outside those it writes. -/
theorem State.setBuffer_read {a : Nat} (h : ¬ (b.base ≤ a ∧ a < b.base + bytes.length)) :
    (s.setBuffer b bytes).mem.read a = s.mem.read a := by
  rw [State.setBuffer_mem, Memory.read_writeAll, if_neg h]

theorem State.setBuffer_kept (h : bytes.length ≤ b.cap) : Kept [b] s (s.setBuffer b bytes) where
  len b' hb := by rw [State.setBuffer_len, if_neg (by simpa using hb)]
  mem a ha := State.setBuffer_read fun hh => by
    have := ha b (by simp)
    rw [← Bool.not_eq_true, Buf.holds_iff] at this
    omega
  cfg := State.setBuffer_cfg
  cmdLo := State.setBuffer_cmdLo
  pending := State.setBuffer_pending
  reply := State.setBuffer_reply
  accesses := State.setBuffer_accesses

/-! ### Ending with Ok -/

/-- An `Ok` end that replaces no operand buffer: the record of the effect, and nothing else changes. -/
theorem complete_record {x : Effect} (hr : x.replaces = none) (h : x.out.length ≤ Config.maxFrame) :
    RecordIs (complete x s) (statusWord okCode x.crcOk x.authOk) (BitVec.ofNat 16 x.result) (slotsOf x.fields)
      x.out ∧ Kept [.out] s (complete x s) := by
  have hs : x.replaceBuffer s = s := by simp [Effect.replaceBuffer, hr]
  rw [complete, hs]
  exact ⟨setRecord_recordIs h, setRecord_kept h⟩

/-- An `Ok` end that replaces an operand buffer: its new value, the record of the effect, and nothing else. -/
theorem complete_replace {x : Effect} (hr : x.replaces = some (b, bytes)) (hb : b ≠ .out)
    (hl : bytes.length ≤ b.cap) (h : x.out.length ≤ Config.maxFrame) :
    RecordIs (complete x s) (statusWord okCode x.crcOk x.authOk) (BitVec.ofNat 16 x.result) (slotsOf x.fields)
        x.out ∧ Kept [b, .out] s (complete x s) ∧ (complete x s).value b = some bytes ∧
      ∀ a, ¬ (b.base ≤ a ∧ a < b.base + bytes.length) → Buf.out.holds a = false →
        (complete x s).mem.read a = s.mem.read a := by
  have hs : x.replaceBuffer s = s.setBuffer b bytes := by simp [Effect.replaceBuffer, hr]
  rw [complete, hs]
  have k2 := setRecord_kept (s := s.setBuffer b bytes) (status := statusWord okCode x.crcOk x.authOk)
    (result := BitVec.ofNat 16 x.result) (slots := slotsOf x.fields) h
  refine ⟨setRecord_recordIs h, ?_, ?_, fun a ha ho => ?_⟩
  · exact ((State.setBuffer_kept hl).mono (by simp)).trans (k2.mono (by simp))
  · rw [k2.value (by simpa using hb)]; exact State.setBuffer_value hl
  · rw [k2.mem a (by simpa using ho)]; exact State.setBuffer_read ha

/-! ### Operand checks -/

/-- Everything a command that reads operands can do (`60_exceptions.md` R205, `10_state.md` R23). -/
theorem withOperands_cases (bs : List Buf) (s : State) (body : Ending) :
    (s.anyOverCapacity bs = true ∧ withOperands bs s body = .next (raise .frameTooLong s)) ∨
    (s.anyOverCapacity bs = false ∧ ∃ b ∈ bs, s.value b = none ∧
      withOperands bs s body = .refused (.undefinedOperand b)) ∨
    (s.anyOverCapacity bs = false ∧ (∀ b ∈ bs, s.value b = some (s.bytes b)) ∧
      withOperands bs s body = .next (finish body s)) := by
  unfold withOperands
  cases ho : s.anyOverCapacity bs with
  | true => exact .inl ⟨rfl, rfl⟩
  | false =>
    cases hf : s.firstUndefined bs with
    | some b =>
      refine .inr (.inl ⟨rfl, b, List.mem_of_find?_eq_some hf, ?_, rfl⟩)
      have := List.find?_some hf
      simpa using this
    | none =>
      refine .inr (.inr ⟨rfl, fun b hb => ?_, rfl⟩)
      have := List.find?_eq_none.mp hf b hb
      cases hv : s.value b with
      | none => simp [hv] at this
      | some v => simp [State.bytes, hv]

/-- A command whose operands are all defined runs its body. -/
theorem withOperands_defined {body : Ending} (h : ∀ b ∈ bs, ∃ v, s.value b = some v) :
    withOperands bs s body = .next (finish body s) := by
  rcases withOperands_cases bs s body with ⟨ho, -⟩ | ⟨-, b, hb, hn, -⟩ | ⟨-, -, hr⟩
  · exfalso
    simp only [State.anyOverCapacity, List.any_eq_true, Bool.and_eq_true] at ho
    obtain ⟨b, hb, -, ho⟩ := ho
    obtain ⟨v, hv⟩ := h b hb
    simp [State.value, ho] at hv
  · obtain ⟨v, hv⟩ := h b hb
    simp [hn] at hv
  · exact hr

theorem effectiveFrame_eq (h : HasFrame s f) : effectiveFrame s.cfg (s.bytes .frame) = .ok f := by
  obtain ⟨fr, hv, h⟩ := h
  rw [State.bytes_eq hv, effectiveFrame, fcsPresent]
  split
  · rename_i hc
    rw [if_pos hc] at h
    rw [if_neg (by omega), h.2, slice]; simp
  · rename_i hc
    rw [if_neg hc] at h
    rw [h]

/-- A command on EF, when its frame is defined. -/
theorem withFrame_defined {body : List Byte → Ending} (h : HasFrame s f) :
    withFrame s body = .next (finish (body f) s) := by
  rw [withFrame, withOperands_defined (by obtain ⟨fr, hv, -⟩ := h; simpa using ⟨fr, hv⟩), effectiveFrame_eq h]
  rfl

theorem HasFrame.length_le (h : HasFrame s f) : f.length ≤ Config.maxFrame := by
  obtain ⟨fr, hv, h⟩ := h
  have := State.value_length_le hv
  simp only [Buf.cap] at this
  split at h
  · rw [h.2, List.length_take]; omega
  · rw [h]; exact this

/-! ### What a result is -/

@[simp] theorem Result.andThen_next {k : State → Result} : Result.andThen (.next s) k = k s := rfl

theorem Result.andThen_eq_next {r : Result} {k : State → Result} (h : Result.andThen r k = .next t) :
    ∃ u, r = .next u ∧ k u = .next t := by
  cases r with
  | next u => exact ⟨u, rfl, h⟩
  | fault _ => cases h
  | refused _ => cases h

end Sys2Proof.Machine
end

