-- ==== Sys2Proof/Laws/Exec.lean ====
section
/-! SUPPORT. Every command but RESET, once its argument is legal, is one body behind the operand checks: what
`exec` can do is said here once, over all commands. -/

namespace Sys2Proof.Machine

/-- The body of a command on a state: what it computes when its operands are defined. -/
def commandBody (i : Instr) (s : State) : Ending :=
  match i with
  | .nop => .ok {}
  | .reset => .ok {}
  | .narrow k => narrow (s.slot k.toNat) (s.bytes .frame)
  | .movof => .ok { replaces := some (.frame, s.bytes .out) }
  | .movoa => .ok { replaces := some (.aux, s.bytes .out) }
  | .splice n => splice n.toNat (s.bytes .frame) (s.bytes .aux)
  | .macHdrlen => effectiveFrame s.cfg (s.bytes .frame) >>= fun f => (macHdrlen f).map scalarEffect
  | .macPaylen => effectiveFrame s.cfg (s.bytes .frame) >>= fun f => (macPayloadlen f).map scalarEffect
  | .macChop => effectiveFrame s.cfg (s.bytes .frame) >>= fun f => (macChop f).map chopEffect
  | .macNonce =>
    effectiveFrame s.cfg (s.bytes .frame) >>= fun f => (macNonce f).map fun n => { out := n }
  | .nwkHdrlen => effectiveFrame s.cfg (s.bytes .frame) >>= fun f => (nwkHdrlen f).map scalarEffect
  | .nwkPaylen => effectiveFrame s.cfg (s.bytes .frame) >>= fun f => (nwkPayloadlen f).map scalarEffect
  | .nwkChop => effectiveFrame s.cfg (s.bytes .frame) >>= fun f => (nwkChop f).map chopEffect
  | .apsHdrlen => effectiveFrame s.cfg (s.bytes .frame) >>= fun f => (apsHdrlen f).map scalarEffect
  | .apsPaylen => effectiveFrame s.cfg (s.bytes .frame) >>= fun f => (apsPayloadlen f).map scalarEffect
  | .apsChop => effectiveFrame s.cfg (s.bytes .frame) >>= fun f => (apsChop f).map chopEffect
  | .aesEnc => aesEncBody (s.bytes .key) (s.bytes .aux)
  | .ccmEnc m => ccmEncBody m.toNat (s.bytes .key) (s.bytes .nonce) (s.bytes .aad) (s.bytes .aux)
  | .ccmDec m => ccmDecBody m.toNat (s.bytes .key) (s.bytes .nonce) (s.bytes .aad) (s.bytes .aux)
  | .secDecrypt =>
    effectiveFrame s.cfg (s.bytes .frame) >>= fun f => secDecryptBody f (s.bytes .key)
  | .secEncrypt =>
    effectiveFrame s.cfg (s.bytes .frame) >>= fun f => secEncryptBody f (s.bytes .aux) (s.bytes .key)
  | .fcsCalc => .ok { out := fcs (s.bytes .frame) }
  | .fcsCheck => fcsCheckBody (s.bytes .frame)
  | .fcsAppend => fcsAppendBody (s.bytes .frame)

variable {i : Instr} {s t : State}

/-- A legal command other than RESET is its body behind the operand checks. -/
theorem exec_eq_withOperands (hw : i.wf = true) (hr : i ≠ .reset) :
    exec i s = withOperands i.reads s (commandBody i s) := by
  cases i <;> simp only [Instr.wf] at hw <;>
    first
      | rfl
      | exact absurd rfl hr
      | simp [exec, execNarrow, execSplice, execCcmEnc, execCcmDec, hw, Instr.reads, commandBody]

/-- A command with an illegal argument ends with `IllegalCommand` (`30_encoding.md` R74). -/
theorem exec_not_wf (hw : i.wf = false) : exec i s = .next (raise .illegalCommand s) := by
  cases i <;> simp [Instr.wf] at hw <;> simp [exec, execNarrow, execSplice, execCcmEnc, execCcmDec, hw, illegal]

/-- Everything a command can answer: an illegal argument; RESET; a length register above capacity; a refusal for
an operand byte without a value; or the end its body computes. -/
theorem exec_cases (i : Instr) (s : State) :
    (i.wf = false ∧ exec i s = .next (raise .illegalCommand s)) ∨
    (i = .reset ∧ exec i s = .next s.resetBlock) ∨
    (i.wf = true ∧ i ≠ .reset ∧ s.anyOverCapacity i.reads = true ∧
      exec i s = .next (raise .frameTooLong s)) ∨
    (i.wf = true ∧ i ≠ .reset ∧ s.anyOverCapacity i.reads = false ∧
      ∃ b ∈ i.reads, s.value b = none ∧ exec i s = .refused (.undefinedOperand b)) ∨
    (i.wf = true ∧ i ≠ .reset ∧ s.anyOverCapacity i.reads = false ∧
      (∀ b ∈ i.reads, s.value b = some (s.bytes b)) ∧ exec i s = .next (finish (commandBody i s) s)) := by
  by_cases hr : i = .reset
  · exact .inr (.inl ⟨hr, by rw [hr]; rfl⟩)
  cases hw : i.wf with
  | false => exact .inl ⟨rfl, exec_not_wf hw⟩
  | true =>
    rw [exec_eq_withOperands hw hr]
    rcases withOperands_cases i.reads s (commandBody i s) with ⟨h, h'⟩ | ⟨h, h'⟩ | ⟨h, h', h''⟩
    · exact .inr (.inr (.inl ⟨rfl, hr, h, h'⟩))
    · exact .inr (.inr (.inr (.inl ⟨rfl, hr, h, h'⟩)))
    · exact .inr (.inr (.inr (.inr ⟨rfl, hr, h, h', h''⟩)))

/-- A command word is executed as the command it decodes to, or is illegal. -/
theorem executeWord_cases (w : Half) (s : State) :
    (∃ i, decode w = .ok i ∧ executeWord w s = exec i s) ∨
      ((∃ e, decode w = .error e) ∧ executeWord w s = .next (raise .illegalCommand s)) := by
  unfold executeWord
  cases decode w with
  | ok i => exact .inl ⟨i, rfl, rfl⟩
  | error e => exact .inr ⟨⟨e, rfl⟩, rfl⟩

end Sys2Proof.Machine
end

