-- ==== Sys2Proof/Laws/Body.lean ====
section
/-! SUPPORT. What the body of a command can answer: the bounds of its effect, and the error statuses it ends
with. -/

namespace Sys2Proof.Machine

variable {i : Instr} {s : State}

/-- The bounds of an effect: OUT and RESULT at most 127, at most 17 fields within 127 bytes, and a replaced
buffer that is an operand buffer within its capacity, with OUT cleared. -/
structure Effect.bounded (x : Effect) : Prop where
  out : x.out.length ≤ 127
  result : x.result ≤ 127
  fields : ∀ r ∈ x.fields, r.within 127
  count : x.fields.length ≤ 17
  replaces : x.replaces = none ∨
    ∃ b bytes, x.replaces = some (b, bytes) ∧ b ≠ .out ∧ bytes.length ≤ b.cap ∧ x.out = []

theorem scalarEffect_bounded {n : Nat} (h : n ≤ 127) : (scalarEffect n).bounded :=
  ⟨by simp [scalarEffect], h, by simp [scalarEffect], by simp [scalarEffect], .inl rfl⟩

theorem chopEffect_bounded {n : Nat} {c : Chop} (h : c.within n) (hn : n ≤ 127) : (chopEffect c).bounded :=
  ⟨by simp [chopEffect], h.2.1.trans hn, fun r hr => Range.within_mono (h.1 r hr) hn, h.2.2, .inl rfl⟩

theorem outEffect_bounded {out : List Byte} {a c : Bool} (h : out.length ≤ 127) :
    Effect.bounded { out := out, authOk := a, crcOk := c } :=
  ⟨h, Nat.zero_le _, by simp, by simp, .inl rfl⟩

theorem replaceEffect_bounded {b : Buf} {bytes : List Byte} (h : b ≠ .out) (hl : bytes.length ≤ b.cap) :
    Effect.bounded { replaces := some (b, bytes) } :=
  ⟨by simp, by simp, by simp, by simp, .inr ⟨b, bytes, rfl, h, hl, rfl⟩⟩

theorem ccmDecrypt_ok {key nonce aad c u p : List Byte} (h : ccmDecrypt key nonce aad c u = .ok p) :
    p = ctr key nonce c := by
  unfold ccmDecrypt at h
  dsimp only at h
  split at h <;> cases h; rfl

theorem ccmDecrypt_error {key nonce aad c u : List Byte} {e : ErrorStatus}
    (h : ccmDecrypt key nonce aad c u = .error e) : e = .authenticationFailure := by
  unfold ccmDecrypt at h
  dsimp only at h
  split at h <;> cases h; rfl

theorem ccmEncrypt_length_le {key nonce aad msg : List Byte} {mic : Nat} :
    (ccmEncrypt key nonce aad msg mic).length ≤ msg.length + mic := by
  have := ctr_length_le (key := key) (nonce := nonce) (d := msg)
  simp only [ccmEncrypt, List.length_append, xorBytes_length, List.length_take]
  omega

/-- A command on defined operands that ends `Ok` has a bounded effect. -/
theorem commandBody_ok {x : Effect} (hb : ∀ b ∈ i.reads, s.value b = some (s.bytes b))
    (h : commandBody i s = .ok x) : x.bounded := by
  have hl : ∀ b ∈ i.reads, (s.bytes b).length ≤ b.cap := fun b hm => State.value_length_le (hb b hm)
  cases i <;> simp only [commandBody] at h <;>
    simp only [Instr.reads, List.mem_cons, List.not_mem_nil, or_false, forall_eq_or_imp, forall_eq, Buf.cap,
      Config.maxFrame] at hl
  case nop => cases h; exact outEffect_bounded (by simp)
  case reset => cases h; exact outEffect_bounded (by simp)
  case narrow =>
    unfold narrow at h
    split at h <;> cases h
    exact replaceEffect_bounded (by simp) (slice_length_le_length.trans hl)
  case movof => cases h; exact replaceEffect_bounded (by simp) hl
  case movoa => cases h; exact replaceEffect_bounded (by simp) hl
  case splice n =>
    unfold splice at h
    split at h
    · cases h
    split at h <;> cases h
    have := slice_length_le (b := s.bytes .frame) (i := 0) (j := n.toNat)
    exact outEffect_bounded (by simp only [List.length_append, Config.maxFrame] at *; omega)
  case macHdrlen =>
    obtain ⟨f, -, h⟩ := bind_ok h
    obtain ⟨n, hn, rfl⟩ := map_ok h
    have := macHdrlen_ok hn
    exact scalarEffect_bounded (by omega)
  case macPaylen =>
    obtain ⟨f, hf, h⟩ := bind_ok h
    obtain ⟨n, hn, rfl⟩ := map_ok h
    have := macPayloadlen_ok hn
    have := effectiveFrame_length_le hf
    exact scalarEffect_bounded (by omega)
  case macChop =>
    obtain ⟨f, hf, h⟩ := bind_ok h
    obtain ⟨c, hc, rfl⟩ := map_ok h
    exact chopEffect_bounded (macChop_ok hc) ((effectiveFrame_length_le hf).trans hl)
  case macNonce =>
    obtain ⟨f, -, h⟩ := bind_ok h
    obtain ⟨n, hn, rfl⟩ := map_ok h
    have := macNonce_length_le hn
    exact outEffect_bounded (by omega)
  case nwkHdrlen =>
    obtain ⟨f, hf, h⟩ := bind_ok h
    obtain ⟨n, hn, rfl⟩ := map_ok h
    obtain ⟨c, hc, rfl⟩ := map_ok hn
    exact scalarEffect_bounded ((nwkChop_ok hc).2.1.trans ((effectiveFrame_length_le hf).trans hl))
  case nwkPaylen =>
    obtain ⟨f, hf, h⟩ := bind_ok h
    obtain ⟨n, hn, rfl⟩ := map_ok h
    obtain ⟨c, -, rfl⟩ := map_ok hn
    have := effectiveFrame_length_le hf
    exact scalarEffect_bounded (by omega)
  case nwkChop =>
    obtain ⟨f, hf, h⟩ := bind_ok h
    obtain ⟨c, hc, rfl⟩ := map_ok h
    exact chopEffect_bounded (nwkChop_ok hc) ((effectiveFrame_length_le hf).trans hl)
  case apsHdrlen =>
    obtain ⟨f, hf, h⟩ := bind_ok h
    obtain ⟨n, hn, rfl⟩ := map_ok h
    obtain ⟨c, hc, rfl⟩ := map_ok hn
    exact scalarEffect_bounded ((apsChop_ok hc).2.1.trans ((effectiveFrame_length_le hf).trans hl))
  case apsPaylen =>
    obtain ⟨f, hf, h⟩ := bind_ok h
    obtain ⟨n, hn, rfl⟩ := map_ok h
    obtain ⟨c, -, rfl⟩ := map_ok hn
    have := effectiveFrame_length_le hf
    exact scalarEffect_bounded (by omega)
  case apsChop =>
    obtain ⟨f, hf, h⟩ := bind_ok h
    obtain ⟨c, hc, rfl⟩ := map_ok h
    exact chopEffect_bounded (apsChop_ok hc) ((effectiveFrame_length_le hf).trans hl)
  case aesEnc =>
    unfold aesEncBody at h
    split at h
    · cases h
    split at h <;> cases h
    exact outEffect_bounded (aesEnc_length_le.trans (by omega))
  case ccmEnc m =>
    unfold ccmEncBody at h
    split at h
    · cases h
    split at h
    · cases h
    split at h <;> cases h
    exact outEffect_bounded (ccmEncrypt_length_le.trans (by simp only [Config.maxFrame] at *; omega))
  case ccmDec m =>
    unfold ccmDecBody at h
    split at h
    · cases h
    split at h
    · cases h
    split at h
    · cases h
    obtain ⟨p, hp, rfl⟩ := map_ok h
    rw [ccmDecrypt_ok hp]
    exact outEffect_bounded (ctr_length_le.trans (slice_length_le_length.trans (by omega)))
  case secDecrypt =>
    obtain ⟨f, hf, h⟩ := bind_ok h
    obtain ⟨_, -, h⟩ := bind_ok h
    obtain ⟨n, -, h⟩ := bind_ok h
    obtain ⟨p, hp, rfl⟩ := map_ok h
    rw [ccmDecrypt_ok hp]
    have := effectiveFrame_length_le hf
    exact outEffect_bounded (ctr_length_le.trans (slice_length_le_length.trans (by omega)))
  case secEncrypt =>
    obtain ⟨f, -, h⟩ := bind_ok h
    obtain ⟨_, -, h⟩ := bind_ok h
    split at h
    · cases h
    split at h
    · cases h
    obtain ⟨n, -, h⟩ := bind_ok h
    cases h
    exact outEffect_bounded
      (ccmEncrypt_length_le.trans (by simp only [Config.maxFrame, Config.frameMic] at *; omega))
  case fcsCalc => cases h; exact outEffect_bounded (by simp [fcs])
  case fcsCheck =>
    unfold fcsCheckBody at h
    split at h <;> cases h
    exact outEffect_bounded (by simp)
  case fcsAppend =>
    unfold fcsAppendBody at h
    split at h <;> cases h
    exact outEffect_bounded (by simp [fcs, Config.maxInject] at *; omega)

theorem secParse_error {f : List Byte} {k n : Nat} {e : ErrorStatus} (h : secParse f k n = .error e) :
    e ∈ [ErrorStatus.tooShort, .badPayloadLength, .unsupportedSecurityLevel, .badKeyLength] := by
  unfold secParse at h
  split at h
  · cases h; simp
  rcases bind_error h with h | ⟨a, -, h⟩
  · rw [macAddr_error h]; simp
  split at h
  · cases h; simp
  split at h
  · cases h; simp
  split at h
  · cases h; simp
  split at h
  · cases h; simp
  split at h <;> cases h; simp

theorem secNonce_error {f : List Byte} {e : ErrorStatus} (h : secNonce f = .error e) :
    e = .tooShort ∨ e = .noNonce := by
  unfold secNonce at h
  rcases bind_error h with h | ⟨n, -, h⟩
  · exact .inl (macNonce_error h)
  · split at h <;> cases h; exact .inr rfl

end Sys2Proof.Machine
end

