-- ==== Sys2Proof/Laws/Bus.lean ====
section
/-! SUPPORT. The address map as lemmas, and what one host action and a run of host actions do. -/

namespace Sys2Proof.Machine

variable {s t : State} {b : Buf} {a i : Nat} {v : Byte}

/-! ### The address map -/

/-- The addresses of a buffer's array. -/
theorem busTarget_array (h : i < b.cap) : busTarget (b.base + i) = .array b i := by
  have main : ∀ i, i < 127 → i < b.cap → busTarget (b.base + i) = .array b i := by cases b <;> decide +kernel
  exact main i (lt_of_lt_of_le h (by cases b <;> decide)) h

/-- Only the addresses of a buffer's array name its bytes. -/
theorem busTarget_eq_array (h : busTarget a = .array b i) : b.base + i = a ∧ i < b.cap := by
  have main (h : arrayTarget a = .array b i) : b.base + i = a ∧ i < b.cap := by
    unfold arrayTarget at h
    split at h
    · split at h <;> cases h
    · split at h
      · rename_i c hf
        cases h
        have hh : Buf.holds b a = true := by simpa using List.find?_some hf
        have := Buf.holds_iff.mp hh
        omega
      · cases h
  unfold busTarget at h
  split at h <;> first | cases h | exact main h

theorem busTarget_slot (h : i < 17) :
    busTarget (0x040 + 2 * i) = .slotOff i ∧ busTarget (0x041 + 2 * i) = .slotLen i := by
  revert i; decide

/-! ### Byte writes -/

theorem busWrite_array (hb : b ≠ .out) (hi : i < b.cap) :
    busWrite (b.base + i) v s = .next { s with mem := s.mem.write (b.base + i) v } := by
  unfold busWrite
  rw [busTarget_array hi]
  cases b <;> simp_all

/-- Everything a byte write can do: execute a command word; write one of CMD_LO, CFG, a length register and an
array byte of an operand buffer; or nothing. -/
theorem busWrite_cases (a : Nat) (v : Byte) (s : State) :
    (busTarget a = .cmdHigh ∧ busWrite a v s = writeCommandHigh v s) ∨
    busWrite a v s = .next { s with cmdLo := v } ∨
    busWrite a v s = .next { s with cfg := cfgWord (v.getLsbD 0) } ∨
    (∃ b : Buf, b ≠ .out ∧ busWrite a v s = .next (s.setLen b v)) ∨
    (∃ (b : Buf) (i : Nat), b ≠ .out ∧ i < b.cap ∧ busWrite a v s = .next { s with mem := s.mem.write (b.base + i) v }) ∨
    busWrite a v s = .next s := by
  unfold busWrite
  split
  case h_1 => exact .inr (.inl rfl)
  case h_2 h => exact .inl ⟨h, rfl⟩
  case h_5 => exact .inr (.inr (.inl rfl))
  case h_10 b hne _ => exact .inr (.inr (.inr (.inl ⟨b, fun h => hne h, rfl⟩)))
  case h_12 b i hne ht =>
    exact .inr (.inr (.inr (.inr (.inl ⟨b, i, fun h => hne h, (busTarget_eq_array ht).2, rfl⟩))))
  all_goals exact .inr (.inr (.inr (.inr (.inr rfl))))

/-! ### Two-byte accesses -/

/-- Below 0x3FF the second byte is at the next address. -/
theorem secondAddress_next {x : BusAddr} (h : x ≠ 0x3FF#10) : secondAddress s x = x.toNat + 1 := by
  have h3 : x.toNat ≠ 1023 := fun e => h (BitVec.eq_of_toNat_eq e)
  have hl := x.isLt
  unfold secondAddress
  rw [if_pos (by simp only [Config.busBytes]; omega)]

/-- At 0x3FF the second byte is CMD's low byte or is in no map (assumption log 7). -/
theorem secondAddress_last : secondAddress s 0x3FF#10 = 0x000 ∨ secondAddress s 0x3FF#10 = 0x400 := by
  unfold secondAddress
  rw [if_neg (by decide)]
  split
  · exact .inl rfl
  · exact .inr rfl

/-- Either way it reads 0. -/
theorem busRead_secondAddress_last : busRead t (secondAddress s 0x3FF#10) = 0x00#8 := by
  rcases secondAddress_last (s := s) with h | h <;> rw [h] <;> rfl

/-! ### Runs -/

theorem step_next {x : HostAction} {rest : List HostAction} (h : s.pending = x :: rest) :
    step s = perform x (s.taken rest) := by
  unfold step nextAction; rw [h]

theorem step_idle (h : s.pending = []) : step s = .next s := by
  unfold step nextAction; rw [h]

/-- One step of a run. -/
theorem run_succ {k : Nat} (h : step s = .next t) :
    Host.Core.run core (k + 1) s = Host.Core.run core k t := by
  have main (M : Host.Core) (s t : M.State) (h : M.step s = .next t) : M.run (k + 1) s = M.run k t := by
    simp only [Host.Core.run, h]
  exact main core s t h

end Sys2Proof.Machine
end

