-- ==== Sys2Proof/Laws/PerInstr.lean ====
section
/-! SUPPORT. One lemma per command: its word is selected by its row of spec/opcode_table.json. -/

namespace Sys2Proof.Laws.EncodesInTable

/-- The mask and the match of a command's row of spec/opcode_table.json. -/
def row : Instr → Half × Half
  | .nop => (0xFFFF#16, 0x0000#16)
  | .reset => (0xFFFF#16, 0x0001#16)
  | .narrow _ => (0x00FF#16, 0x0008#16)
  | .movof => (0xFFFF#16, 0x0009#16)
  | .movoa => (0xFFFF#16, 0x000A#16)
  | .splice _ => (0x00FF#16, 0x000B#16)
  | .macHdrlen => (0xFFFF#16, 0x0010#16)
  | .macPaylen => (0xFFFF#16, 0x0011#16)
  | .macChop => (0xFFFF#16, 0x0012#16)
  | .macNonce => (0xFFFF#16, 0x0013#16)
  | .nwkHdrlen => (0xFFFF#16, 0x0020#16)
  | .nwkPaylen => (0xFFFF#16, 0x0021#16)
  | .nwkChop => (0xFFFF#16, 0x0022#16)
  | .apsHdrlen => (0xFFFF#16, 0x0030#16)
  | .apsPaylen => (0xFFFF#16, 0x0031#16)
  | .apsChop => (0xFFFF#16, 0x0032#16)
  | .aesEnc => (0xFFFF#16, 0x0040#16)
  | .ccmEnc _ => (0x00FF#16, 0x0050#16)
  | .ccmDec _ => (0x00FF#16, 0x0051#16)
  | .secDecrypt => (0xFFFF#16, 0x0052#16)
  | .secEncrypt => (0xFFFF#16, 0x0053#16)
  | .fcsCalc => (0xFFFF#16, 0x0060#16)
  | .fcsCheck => (0xFFFF#16, 0x0061#16)
  | .fcsAppend => (0xFFFF#16, 0x0062#16)

/-- The command's word matches its row of the table under the row's mask. -/
def Statement (i : Instr) : Prop := encode i &&& (row i).1 = (row i).2

/-- A word with OPC `opc`, masked to its low byte. -/
theorem masked_low (opc arg : Byte) : commandWord opc arg &&& 0x00FF#16 = commandWord opc 0x00#8 := by
  unfold commandWord
  apply BitVec.eq_of_getLsbD_eq
  intro i hi
  rw [BitVec.getLsbD_and, BitVec.getLsbD_append, BitVec.getLsbD_append]
  interval_cases i <;> simp

theorem nop : Statement .nop := rfl
theorem reset : Statement .reset := rfl
theorem narrow (s : Byte) : Statement (.narrow s) := by
  show commandWord 0x08#8 s &&& 0x00FF#16 = 0x0008#16
  rw [masked_low]
  rfl
theorem movof : Statement .movof := rfl
theorem movoa : Statement .movoa := rfl
theorem splice (n : Byte) : Statement (.splice n) := by
  show commandWord 0x0B#8 n &&& 0x00FF#16 = 0x000B#16
  rw [masked_low]
  rfl
theorem macHdrlen : Statement .macHdrlen := rfl
theorem macPaylen : Statement .macPaylen := rfl
theorem macChop : Statement .macChop := rfl
theorem macNonce : Statement .macNonce := rfl
theorem nwkHdrlen : Statement .nwkHdrlen := rfl
theorem nwkPaylen : Statement .nwkPaylen := rfl
theorem nwkChop : Statement .nwkChop := rfl
theorem apsHdrlen : Statement .apsHdrlen := rfl
theorem apsPaylen : Statement .apsPaylen := rfl
theorem apsChop : Statement .apsChop := rfl
theorem aesEnc : Statement .aesEnc := rfl
theorem ccmEnc (m : Byte) : Statement (.ccmEnc m) := by
  show commandWord 0x50#8 m &&& 0x00FF#16 = 0x0050#16
  rw [masked_low]
  rfl
theorem ccmDec (m : Byte) : Statement (.ccmDec m) := by
  show commandWord 0x51#8 m &&& 0x00FF#16 = 0x0051#16
  rw [masked_low]
  rfl
theorem secDecrypt : Statement .secDecrypt := rfl
theorem secEncrypt : Statement .secEncrypt := rfl
theorem fcsCalc : Statement .fcsCalc := rfl
theorem fcsCheck : Statement .fcsCheck := rfl
theorem fcsAppend : Statement .fcsAppend := rfl

end Sys2Proof.Laws.EncodesInTable
end

