-- ==== Sys2Proof/Tests/Slice0.lean ====
section
/-! SUPPORT. Tests of the model, and for every statement with hypotheses a concrete state that meets them.

Expected values are those of `95_test_vectors.md` (the vector stands in the docstring) or are written out from
the encoding of `30_encoding.md`. -/

namespace Sys2Proof.Tests

set_option Elab.async false

open Sys2Proof.Machine Sys2Proof.Claims

/-! ### Helpers -/

/-- The `n` bytes of a hexadecimal number, as the vectors print them: first byte first. -/
def hex : Nat → Nat → List Byte
  | 0, _ => []
  | n + 1, v => BitVec.ofNat 8 (v / 256 ^ n) :: hex n v

/-- The reset state with CFG and some buffers loaded. -/
def load (cfg : Half) (xs : List (Buf × List Byte)) : State :=
  xs.foldl (fun s x => s.setBuffer x.1 x.2) { State.reset with cfg := cfg }

/-- The reset state with FRAME loaded. -/
def frameOnly (f : List Byte) : State := load 0#16 [(.frame, f)]

/-- The reset state with FCS_PRESENT and a frame followed by two bytes loaded. -/
def frameWithFcs (f : List Byte) : State := load 1#16 [(.frame, f ++ [0x00#8, 0x00#8])]

/-- The command ends and the state after it passes a check. -/
def after (r : Result) (p : State → Bool) : Bool :=
  match r with
  | .next t => p t
  | .fault _ => false
  | .refused _ => false

/-- The result record is the one given; slots not listed are `(0, 0)`. -/
def recordIs (status : Half) (result : Nat) (slots : List (Nat × Nat × Nat)) (out : List Byte) (t : State) : Bool :=
  t.status = status && t.result.toNat = result && t.value .out = some out &&
    (List.range 17).all fun k =>
      t.slot k = match slots.find? fun x => x.1 = k with
        | some (_, off, len) => ⟨BitVec.ofNat 8 off, BitVec.ofNat 8 len⟩
        | none => ⟨0#8, 0#8⟩

/-- The command ends with the result record given. -/
def gives (i : Instr) (s : State) (status : Half) (result : Nat) (slots : List (Nat × Nat × Nat))
    (out : List Byte) : Bool := after (exec i s) (recordIs status result slots out)

/-- The command is refused for the want of a byte of the buffer. -/
def refusedFor (b : Buf) (r : Result) : Bool :=
  match r with
  | .refused x => x = .undefinedOperand b
  | .next _ => false
  | .fault _ => false

theorem after_next {r : Result} {p : State → Bool} (h : after r p = true) : ∃ t, r = .next t ∧ p t = true := by
  cases r with
  | next t => exact ⟨t, rfl, h⟩
  | fault => cases h
  | refused => cases h

/-- `f1` of V13. -/
def f1 : List Byte := hex 11 0x61882a3412020001006869

/-- `hdr23` of V14. -/
def hdr23 : List Byte := hex 23 0x09cc073412887766554433221178560807060504030201

/-- `pre` of `95_test_vectors.md`, section 2.7. -/
def pre : List Byte := hex 6 0x060100000000

/-- The ciphertext and MIC of V34, first row. -/
def sealedTail : List Byte := hex 13 0x36bb250fd263ccd7868ed81e8c

/-- The secured frame of `45_ccm_security.md` R182. -/
def sealedFrame : List Byte := hdr23 ++ pre ++ sealedTail

/-- `f3` of V15. -/
def f3 : List Byte := hex 19 0x09c0113412080706050403020106050000_0000

/-- `n2` of V22. -/
def n2 : List Byte := hex 33 0x081d341200000a7711121314151617182122232425262728030201aaaabbbbdead

/-- The longest APS header of V26. -/
def a11 : List Byte := hex 12 0x8c3412060004_01015e0207dd

/-- `K`. -/
def K : List Byte := hex 16 0x000102030405060708090a0b0c0d0e0f

/-- `N0` of V29. -/
def N0 : List Byte := hex 13 0x000102030405060708090a0b0c

/-- Twenty bytes `01`. -/
def ones20 : List Byte := List.replicate 20 0x01#8

/-! ### WellFormed -/

theorem test_wf_narrow : (Instr.narrow 16#8).wf = true ∧ (Instr.narrow 17#8).wf = false := by decide

theorem test_wf_splice : (Instr.splice 127#8).wf = true ∧ (Instr.splice 128#8).wf = false := by decide

theorem test_wf_ccmEnc : (Instr.ccmEnc 16#8).wf = true ∧ (Instr.ccmEnc 6#8).wf = false := by decide

theorem test_wf_ccmDec : (Instr.ccmDec 4#8).wf = true ∧ (Instr.ccmDec 0#8).wf = false := by decide

/-! ### Decoding: words written out as ARG, then OPC, bit 15 first (R70, R72) -/

theorem test_decode_system :
    decode 0b0000000000000000#16 = .ok .nop ∧ decode 0b0000000000000001#16 = .ok .reset := by decide

theorem test_decode_move :
    decode 0b0001000000001000#16 = .ok (.narrow 16#8) ∧ decode 0b0000000000001001#16 = .ok .movof ∧
      decode 0b0000000000001010#16 = .ok .movoa ∧ decode 0b0001110100001011#16 = .ok (.splice 29#8) := by decide

theorem test_decode_mac :
    decode 0b0000000000010000#16 = .ok .macHdrlen ∧ decode 0b0000000000010001#16 = .ok .macPaylen ∧
      decode 0b0000000000010010#16 = .ok .macChop ∧ decode 0b0000000000010011#16 = .ok .macNonce := by decide

theorem test_decode_nwk :
    decode 0b0000000000100000#16 = .ok .nwkHdrlen ∧ decode 0b0000000000100001#16 = .ok .nwkPaylen ∧
      decode 0b0000000000100010#16 = .ok .nwkChop := by decide

theorem test_decode_aps :
    decode 0b0000000000110000#16 = .ok .apsHdrlen ∧ decode 0b0000000000110001#16 = .ok .apsPaylen ∧
      decode 0b0000000000110010#16 = .ok .apsChop := by decide

theorem test_decode_aes : decode 0b0000000001000000#16 = .ok .aesEnc := by decide

theorem test_decode_ccm :
    decode 0b0000010001010000#16 = .ok (.ccmEnc 4#8) ∧ decode 0b0000100001010001#16 = .ok (.ccmDec 8#8) := by decide

theorem test_decode_sec :
    decode 0b0000000001010010#16 = .ok .secDecrypt ∧ decode 0b0000000001010011#16 = .ok .secEncrypt := by decide

theorem test_decode_fcs :
    decode 0b0000000001100000#16 = .ok .fcsCalc ∧ decode 0b0000000001100001#16 = .ok .fcsCheck ∧
      decode 0b0000000001100010#16 = .ok .fcsAppend := by decide

/-- V43: reserved opcodes, and an argument where none may stand. -/
theorem test_decode_refuses :
    decode 0x0002#16 = .error (.reservedOpcode 0x02#8) ∧ decode 0x00FF#16 = .error (.reservedOpcode 0xFF#8) ∧
      decode 0x0110#16 = .error (.argumentNotZero 0x10#8 0x01#8) ∧ decodeBytes [0x10#8] = .error .truncated := by
  decide

/-- R70: the word's low byte comes first, and the bytes after the word are left over. -/
theorem test_decode_bytes :
    decodeBytes [0x50#8, 0x04#8, 0xAA#8] = .ok (.ccmEnc 4#8, [0xAA#8]) ∧
      decodeTableWord 16 0x0450 = some (.ccmEnc 4#8) := by decide

/-! ### One command on one state -/

/-- V4. -/
theorem test_nop :
    after (exec .fcsCheck (frameOnly (ones20 ++ [0xa7#8, 0xf7#8]))) (gives .nop · 0x0010#16 0 [] []) = true := by
  decide +kernel

/-- V5: all lengths are 0 and STATUS is 0. -/
theorem test_reset :
    after (exec .reset (load 1#16 [(.frame, f1), (.key, K)])) (fun t => t = State.reset) = true := by decide +kernel

/-- V6. -/
theorem test_narrow :
    after (exec .macChop (frameOnly f1)) (fun t => gives (.narrow 16#8) t 0x0010#16 0 [] [] &&
      after (exec (.narrow 16#8) t) fun u => u.value .frame = some [0x68#8, 0x69#8]) = true := by decide +kernel

/-- V7: FRAME shorter than the slot's range, and slot 17. -/
theorem test_narrow_errors :
    after (exec .macChop (frameOnly f1)) (fun t =>
      gives (.narrow 16#8) (t.setBuffer .frame (f1.take 10)) 0x0011#16 0 [] [] &&
        gives (.narrow 17#8) t 0x001a#16 0 [] []) = true := by decide +kernel

/-- V8. -/
theorem test_movof :
    after (exec .fcsAppend (frameOnly (hex 3 0x010203))) (fun t => after (exec .movof t) fun u =>
      u.value .frame = some (hex 5 0x010203f75b) && recordIs 0x0010#16 0 [] [] u) = true := by decide +kernel

/-- V9. -/
theorem test_movoa :
    after (exec .fcsCalc (load 0#16 [(.frame, hex 3 0x010203), (.aux, [0xaa#8])])) (fun t =>
      after (exec .movoa t) fun u => u.value .aux = some (hex 2 0xf75b) && u.value .frame = some (hex 3 0x010203) &&
        recordIs 0x0010#16 0 [] [] u) = true := by decide +kernel

/-- V10. -/
theorem test_splice :
    gives (.splice 9#8) (load 0#16 [(.frame, f1), (.aux, hex 3 0x010203)]) 0x0010#16 0 []
      (hex 12 0x61882a341202000100010203) = true := by decide +kernel

/-- V11. -/
theorem test_splice_errors :
    gives (.splice 12#8) (load 0#16 [(.frame, f1), (.aux, hex 3 0x010203)]) 0x0011#16 0 [] [] = true ∧
      gives (.splice 128#8) (load 0#16 [(.frame, f1)]) 0x001a#16 0 [] [] = true := by decide +kernel

/-- V12, rows `01 c8` and `01 00`: H = 17 and 11. -/
theorem test_macHdrlen :
    gives .macHdrlen (frameOnly (hex 2 0x01c8 ++ zeros 25)) 0x0010#16 17 [] [] = true ∧
      gives .macHdrlen (frameOnly (hex 2 0x0100 ++ zeros 25)) 0x0010#16 11 [] [] = true ∧
      gives .macHdrlen (frameOnly (zeros 8)) 0x0011#16 0 [] [] = true := by decide +kernel

/-- V13, second row, and V14, last row. -/
theorem test_macPaylen :
    gives .macPaylen (load 1#16 [(.frame, f1 ++ [0x53#8, 0x9a#8])]) 0x0010#16 2 [] [] = true ∧
      gives .macPaylen (frameOnly (hdr23.take 22)) 0x0011#16 0 [] [] = true := by decide +kernel

/-- V14, first row. -/
theorem test_macChop :
    gives .macChop (frameOnly (hdr23 ++ hex 3 0xaabbcc)) 0x0010#16 23
      [(0, 0, 2), (1, 2, 1), (2, 3, 2), (3, 5, 8), (4, 13, 2), (5, 15, 8), (16, 23, 3)] [] = true := by
  decide +kernel

/-- V17, second row: a beacon cut after its fourth field. -/
theorem test_macChop_beacon :
    gives .macChop (frameOnly (hex 12 0x00802a34120100ffcf000000)) 0x0010#16 12
      [(0, 0, 2), (1, 2, 1), (4, 3, 2), (5, 5, 2), (6, 7, 2), (7, 9, 1), (8, 10, 1), (9, 11, 1)] [] = true := by
  decide +kernel

/-- V15 and V14, third row. -/
theorem test_macNonce :
    gives .macNonce (frameOnly f3) 0x0010#16 0 [] (hex 13 0x01020304050607080000000506) = true ∧
      gives .macNonce (frameOnly (hdr23 ++ hex 4 0x06010000)) 0x0010#16 0 [] [] = true := by decide +kernel

/-- V22 and V23. -/
theorem test_nwkHdrlen :
    gives .nwkHdrlen (frameOnly n2) 0x0010#16 31 [] [] = true ∧
      gives .nwkHdrlen (frameOnly (hex 11 0x080434120000_0a77030099)) 0x0011#16 0 [] [] = true := by decide +kernel

/-- V22. -/
theorem test_nwkPaylen : gives .nwkPaylen (frameOnly n2) 0x0010#16 2 [] [] = true := by decide +kernel

/-- V22. -/
theorem test_nwkChop :
    gives .nwkChop (frameOnly n2) 0x0010#16 31
      [(0, 0, 2), (1, 2, 2), (2, 4, 2), (3, 6, 1), (4, 7, 1), (5, 8, 8), (6, 16, 8), (7, 24, 1), (8, 25, 1),
        (9, 26, 1), (10, 27, 4), (11, 31, 2)] [] = true := by decide +kernel

/-- V26. -/
theorem test_apsHdrlen :
    gives .apsHdrlen (frameOnly a11) 0x0010#16 11 [] [] = true ∧
      gives .apsHdrlen (frameOnly (hex 8 0x800a06000401015e)) 0x0011#16 0 [] [] = true := by decide +kernel

/-- V26: a Command with `dm = 3` has no addressing. -/
theorem test_apsPaylen : gives .apsPaylen (frameOnly (hex 3 0x0d5e01)) 0x0010#16 1 [] [] = true := by decide +kernel

/-- V26. -/
theorem test_apsChop :
    gives .apsChop (frameOnly a11) 0x0010#16 11
      [(0, 0, 1), (2, 1, 2), (3, 3, 2), (4, 5, 2), (5, 7, 1), (6, 8, 1), (7, 9, 1), (8, 10, 1), (9, 11, 1)] [] =
      true := by decide +kernel

/-- V27, first row. -/
theorem test_aesEnc :
    gives .aesEnc (load 0#16 [(.key, K), (.aux, hex 16 0x00112233445566778899aabbccddeeff)]) 0x0010#16 0 []
      (hex 16 0x69c4e0d86a7b0430d8cdb78070b4c55a) = true := by decide +kernel

/-- V28: the key check comes first. -/
theorem test_aesEnc_errors :
    gives .aesEnc (load 0#16 [(.key, K.take 15), (.aux, zeros 15)]) 0x0014#16 0 [] [] = true ∧
      gives .aesEnc (load 0#16 [(.key, K), (.aux, zeros 17)]) 0x0012#16 0 [] [] = true := by decide +kernel

/-- V3. -/
theorem test_ccmEnc :
    gives (.ccmEnc 4#8) (load 0#16 [(.key, K), (.nonce, N0), (.aad, zeros 4), (.aux, hex 4 0x01020304)]) 0x0010#16 0
      [] (hex 8 0x1736b78cfce0ce86) = true := by decide +kernel

/-- V32: the size limit. -/
theorem test_ccmEnc_limit :
    gives (.ccmEnc 16#8) (load 0#16 [(.key, K), (.nonce, N0), (.aux, zeros 112)]) 0x001b#16 0 [] [] = true := by
  decide +kernel

/-- V3. -/
theorem test_ccmDec :
    gives (.ccmDec 4#8) (load 0#16 [(.key, K), (.nonce, N0), (.aad, zeros 4), (.aux, hex 8 0x1736b78cfce0ce86)])
      0x0050#16 0 [] (hex 4 0x01020304) = true := by decide +kernel

/-- P4: one bit of the MIC flipped. -/
theorem test_ccmDec_failure :
    gives (.ccmDec 4#8) (load 0#16 [(.key, K), (.nonce, N0), (.aad, zeros 4), (.aux, hex 8 0x1736b78cfce0ce87)])
      0x0015#16 0 [] [] = true := by decide +kernel

/-- V36, first row. -/
theorem test_secDecrypt :
    gives .secDecrypt (load 0#16 [(.frame, sealedFrame), (.key, K)]) 0x0050#16 0 [] (hex 5 0x68656c6c6f) = true := by
  decide +kernel

/-- V38: the level is tested before the key. -/
theorem test_secDecrypt_order :
    gives .secDecrypt (load 0#16 [(.frame, hdr23 ++ [0x05#8] ++ (sealedFrame.drop 24)), (.key, K.take 15)])
      0x0013#16 0 [] [] = true := by decide +kernel

/-- V34, first row. -/
theorem test_secEncrypt :
    gives .secEncrypt (load 0#16 [(.frame, hdr23 ++ pre), (.aux, hex 5 0x68656c6c6f), (.key, K)]) 0x0010#16 0 []
      sealedTail = true := by decide +kernel

/-- V35, last row: a short source address gives no nonce. -/
theorem test_secEncrypt_noNonce :
    gives .secEncrypt (load 0#16 [(.frame, hex 9 0x69882a341202000100 ++ pre), (.aux, hex 5 0x68656c6c6f), (.key, K)])
      0x001c#16 0 [] [] = true := by decide +kernel

/-- V1. -/
theorem test_fcsCalc : gives .fcsCalc (frameOnly ones20) 0x0010#16 0 [] (hex 2 0xa7f7) = true := by decide +kernel

/-- V40, rows 1 and 3. -/
theorem test_fcsCheck :
    gives .fcsCheck (frameOnly (ones20 ++ hex 2 0xa7f7)) 0x0030#16 0 [] [] = true ∧
      gives .fcsCheck (frameOnly (ones20 ++ hex 2 0xf7a7)) 0x0010#16 0 [] [] = true := by decide +kernel

/-- V41. -/
theorem test_fcsAppend :
    gives .fcsAppend (frameOnly (hex 3 0x02002a)) 0x0010#16 0 [] (hex 5 0x02002ae03b) = true ∧
      gives .fcsAppend (frameOnly (zeros 126)) 0x001b#16 0 [] [] = true := by decide +kernel

/-! ### The bus (V44, V45) -/

/-- `f1` loaded and MAC_CHOP done. -/
def chopped : State :=
  match step ((frameOnly f1).withFetchWord 16 0x0012) with
  | .next t => t
  | .fault _ => State.reset
  | .refused _ => State.reset

theorem test_bus_reads :
    (busRead chopped 0x002, busRead chopped 0x003, busRead chopped 0x006, busRead chopped 0x060, busRead chopped 0x061,
      busRead chopped 0x046, busRead chopped 0x047, busRead chopped 0x008, busRead chopped 0x080, busRead chopped 0x000)
      = (0x10#8, 0x00#8, 9#8, 9#8, 2#8, 0x05#8, 0x02#8, 11#8, 0x61#8, 0x00#8) := by decide +kernel

theorem test_bus_key_is_write_only :
    after (busWrite 0x00B 16#8 State.reset) (fun t => after (busWrite 0x020 0x5A#8 t) fun u =>
      busRead u 0x020 = 0#8 && busRead u 0x00B = 0#8 && u.keyLen = 16#8 && u.mem = [(0x020, 0x5A#8)]) = true := by
  decide +kernel

theorem test_bus_cfg :
    after (perform (.write16 0x004#10 0xFFFF#16) State.reset) (fun t => t.cfg = 0x0001#16) = true := by
  decide +kernel

/-- V44 (b). -/
theorem test_bus_capacity :
    after (busWrite 0x008 200#8 State.reset) (fun t =>
      gives .macHdrlen t 0x001b#16 0 [] [] && gives .aesEnc t 0x0014#16 0 [] [] &&
        after (executeWord 0x0110#16 t) (recordIs 0x001a#16 0 [] [])) = true := by decide +kernel

/-- U1: an unwritten operand byte is refused. -/
theorem test_unwritten :
    refusedFor .frame (exec .fcsCalc ((frameOnly (hex 3 0x010203)).setLen .frame 4#8)) = true := by decide +kernel

/-! ### Witnesses: states and operands that meet the hypotheses of the statements, clause by clause -/

theorem hasFrame_frameOnly (f : List Byte) (h : f.length ≤ 127) : HasFrame (frameOnly f) f := by
  have hc : ¬ (frameOnly f).cfg.getLsbD 0 = true := by
    simp [frameOnly, load]
  exact ⟨f, State.setBuffer_value (s := { State.reset with cfg := 0#16 }) (b := .frame) h, by rw [if_neg hc]⟩

theorem hasFrame_frameWithFcs (f : List Byte) (h : f.length ≤ 125) : HasFrame (frameWithFcs f) f := by
  have h2 : (f ++ [0x00#8, 0x00#8]).length ≤ 127 := by simp; omega
  have hc : (frameWithFcs f).cfg.getLsbD 0 = true := by
    simp [frameWithFcs, load]
  refine ⟨f ++ [0x00#8, 0x00#8],
    State.setBuffer_value (s := { State.reset with cfg := 1#16 }) (b := .frame) h2, ?_⟩
  rw [if_pos hc]
  simp

/-- Some state with the buffer's length register one above its capacity. -/
def above (b : Buf) : State := State.reset.setLen b (BitVec.ofNat 8 (b.cap + 1))

/-- The capacity clauses (`CapacityChecked`, CapacityComesFirst): each operand buffer one above its capacity. -/
theorem witness_CapacityChecked :
    ∀ b ∈ [Buf.frame, .aux, .aad, .key, .nonce], b ≠ .out ∧ b.cap < ((above b).len b).toNat := by decide

/-- The argument clauses (`ArgumentIsZero`). -/
theorem witness_ArgumentIsZero : (0x01#8 : Byte) ≠ 0x00#8 ∧ (0xFF#8 : Byte) ≠ 0x00#8 := by decide

/-- The clauses on a frame too short under FCS_PRESENT (`FcsTooShort`): lengths 0 and 1. -/
theorem witness_FcsTooShort :
    ∀ f ∈ [[], [0x01#8]], let s := load 1#16 [(.frame, f), (.aux, [0x41#8]), (.key, K)]
      s.cfg.getLsbD 0 = true ∧ s.frameLen.toNat < 2 ∧
        ∀ b ∈ [Buf.frame, .aux, .key], (s.value b).isSome = true := by decide +kernel

/-- The invariant on a state with a record in it, whose step runs MAC_CHOP. -/
theorem witness_StepKeepsInvariant :
    (chopped.withFetchWord 16 0x0012).Inv ∧ ∃ t, step (chopped.withFetchWord 16 0x0012) = .next t := by
  refine ⟨⟨?_, ?_, ?_, ?_, ?_, ?_, ?_, ?_, ?_⟩, ?_⟩
  any_goals decide +kernel
  obtain ⟨t, ht, _⟩ := after_next (p := fun _ => true) (r := step (chopped.withFetchWord 16 0x0012)) (by decide +kernel)
  exact ⟨t, ht⟩

/-- A word of the table, and one that decodes with an illegal argument (DecodeEncodeAgree). -/
theorem witness_DecodeEncodeAgree :
    decode 0x0450#16 = .ok (.ccmEnc 4#8) ∧ decode 0x1108#16 = .ok (.narrow 17#8) := by decide

/-- The two kinds of byte (SboxIsInverseThenAffine), and R153's own example. -/
theorem witness_SboxIsInverseThenAffine :
    (0x00#8 : Byte) = 0#8 ∧ (0x53#8 : Byte) ≠ 0#8 ∧ sbox 0x53#8 = 0xed#8 := by decide +kernel

/-- A buffer with a value: its length is within capacity and its bytes are defined (BufferValue). -/
theorem witness_BufferValue : (frameOnly f1).value .frame = some f1 := by decide +kernel

/-- Words next to the legal ones (R71, R72, R74). -/
theorem witness_IllegalWordsChangeNothing :
    legalWord 0x00#8 0x01#8 = false ∧ legalWord 0x02#8 0x00#8 = false ∧ legalWord 0x08#8 17#8 = false ∧
      legalWord 0x0B#8 128#8 = false ∧ legalWord 0x50#8 0#8 = false ∧ legalWord 0x50#8 5#8 = false ∧
      legalWord 0x51#8 32#8 = false ∧ legalWord 0xFF#8 0x00#8 = false := by
  refine ⟨?_, ?_, ?_, ?_, ?_, ?_, ?_, ?_⟩ <;> rfl

theorem witness_StepRunsDecodedCommand :
    ((frameOnly f1).withFetchWord 16 0x0012).pending = .write16 0x000#10 0x0012#16 :: [] ∧
      decode 0x0012#16 = .ok .macChop := by decide +kernel

theorem witness_ByteWritesFormTheWord :
    ({ frameOnly f1 with pending := [.write8 0x000#10 0x50#8, .write8 0x001#10 0x04#8] } : State).pending =
      .write8 0x000#10 0x50#8 :: .write8 0x001#10 0x04#8 :: [] := rfl

theorem witness_ErrorsHaveNoPartialEffects :
    ∃ t, executeWord 0x0010#16 (frameOnly (zeros 8)) = .next t ∧ t.code ≠ 0x0#4 := by
  obtain ⟨t, ht, h⟩ := after_next (p := fun t => decide (t.code ≠ 0x0#4))
    (r := executeWord 0x0010#16 (frameOnly (zeros 8))) (by decide +kernel)
  exact ⟨t, ht, of_decide_eq_true h⟩

/-- Each operand buffer defined, but FRAME above its capacity. -/
theorem witness_EveryWordEnds :
    (∀ b, b ≠ .out → ((above .frame).setBuffer .key K).overCapacity b = true ∨
      (((above .frame).setBuffer .key K).value b).isSome = true) ∧
      (((above .frame).setBuffer .key K).value .out).isSome = true := by
  refine ⟨fun b => ?_, by decide +kernel⟩
  cases b <;> decide +kernel

/-- The last byte of FRAME is unwritten, at length 1 and at length 127. -/
theorem witness_UnwrittenOperandIsRefused :
    Instr.fcsCalc.wf = true ∧ Buf.frame ∈ Instr.fcsCalc.reads ∧
      ∀ n ∈ [1, 127], let s := (frameOnly (zeros (n - 1))).setLen .frame (BitVec.ofNat 8 n)
        (∀ b' ∈ Instr.fcsCalc.reads, (s.len b').toNat ≤ b'.cap) ∧
          n - 1 < (s.len .frame).toNat ∧ s.mem.read (Buf.frame.base + (n - 1)) = none := by decide +kernel

/-- A command that ends `Ok`, and one that ends with a status of its row. -/
theorem witness_StatusesOfEachCommand :
    (∃ t, exec .macHdrlen (frameOnly f1) = .next t ∧ t.code = 0x0#4) ∧
      ∃ t, exec .macHdrlen (frameOnly (zeros 8)) = .next t ∧ t.code = 0x1#4 := by
  obtain ⟨t, ht, h⟩ := after_next (p := fun t => decide (t.code = 0x0#4))
    (r := exec .macHdrlen (frameOnly f1)) (by decide +kernel)
  obtain ⟨u, hu, h'⟩ := after_next (p := fun t => decide (t.code = 0x1#4))
    (r := exec .macHdrlen (frameOnly (zeros 8))) (by decide +kernel)
  exact ⟨⟨t, ht, of_decide_eq_true h⟩, u, hu, of_decide_eq_true h'⟩

/-- Both flags are reached. -/
theorem witness_FlagsOfEachCommand :
    (∃ t, exec .fcsCheck (frameOnly (ones20 ++ hex 2 0xa7f7)) = .next t ∧ t.crcOk = true) ∧
      ∃ t, exec .secDecrypt (load 0#16 [(.frame, sealedFrame), (.key, K)]) = .next t ∧ t.authOk = true :=
  ⟨after_next (by decide +kernel), after_next (by decide +kernel)⟩

/-- `f1` loaded over a longer frame, with an old record: the same operands as `f1` loaded after reset. -/
def stale : State := { (chopped.setBuffer .frame (f1 ++ f1)).setBuffer .frame f1 with cmdLo := 0x5A#8 }

theorem witness_RecordIsFunctionOfOperands :
    SameOperands (frameOnly f1) stale ∧ (frameOnly f1).status ≠ stale.status ∧ (frameOnly f1).mem ≠ stale.mem ∧
      (∀ k, Instr.macChop ≠ .narrow k) ∧ Instr.macChop ≠ .movof ∧ Instr.macChop ≠ .movoa := by
  refine ⟨⟨by decide +kernel, fun b => ?_⟩, by decide +kernel, by decide +kernel, ?_, ?_, ?_⟩
  · cases b <;> decide +kernel
  · intro k h; cases h
  · intro h; cases h
  · intro h; cases h

/-- `s` with one host action to come. -/
def presented (s : State) (x : HostAction) : State := { s with pending := [x] }

/-- The last address of each width, and the one address whose second byte is in no map. -/
theorem witness_ReadsHaveNoSideEffect :
    ∀ a ∈ [0x000#10, 0x3FE#10, (0x3FF#10 : BusAddr)],
      (presented chopped (.read8 a)).pending = .read8 a :: [] ∧
        (presented chopped (.read16 a)).pending = .read16 a :: [] := by decide +kernel

/-- The first and last reserved address of each gap (R52). -/
def reservedEdges : List Nat :=
  [0x00E, 0x00F, 0x01D, 0x01F, 0x062, 0x07F, 0x0FF, 0x17F, 0x1FF, 0x27F, 0x3FF]

theorem witness_AddressMapReads :
    (∀ a ∈ reservedEdges, reservedAddress a = true) ∧
      (∀ b ∈ [Buf.frame, .aux, .aad, .nonce],
        ((State.reset.mem.write (b.base + 0) 0x5A#8).read (b.base + 0) = some 0x5A#8 ∧
          (State.reset.mem.write (b.base + (b.cap - 1)) 0x5A#8).read (b.base + (b.cap - 1)) = some 0x5A#8 ∧
          reservedAddress b.base = false ∧ reservedAddress (b.base + (b.cap - 1)) = false)) ∧
      126 < (State.reset.setLen .out 127#8).outLen.toNat ∧
      (State.reset.mem.write (0x200 + 126) 0x5A#8).read (0x200 + 126) = some 0x5A#8 ∧
      reservedAddress 0x040 = false ∧ reservedAddress 0x061 = false ∧ reservedAddress 0x03F = false := by decide +kernel

/-- The read-only addresses' edges; none of them is in an operand array. A one- and a two-byte write at the first
address, at both bytes of CMD and at the last address. -/
theorem witness_AddressMapWrites :
    (∀ a ∈ [0x002, 0x003, 0x006, 0x007, 0x00D, 0x040, 0x061, 0x200, 0x27E] ++ reservedEdges,
      (a = 0x002 ∨ a = 0x003 ∨ a = 0x006 ∨ a = 0x007 ∨ a = 0x00D ∨ (0x040 ≤ a ∧ a ≤ 0x061) ∨
        (0x200 ≤ a ∧ a ≤ 0x27E) ∨ reservedAddress a = true) ∧
        ∀ b ∈ [Buf.frame, .aux, .aad, .key, .nonce], b.holds a = false) ∧
      (∀ b ∈ [Buf.frame, .aux, .aad, .key, .nonce], b ≠ .out ∧ 0 < b.cap ∧ b.cap - 1 < b.cap) ∧
      ∀ a ∈ [0x000#10, 0x001#10, 0x004#10, 0x3FE#10, (0x3FF#10 : BusAddr)],
        (presented chopped (.write8 a 0x12#8)).pending = .write8 a 0x12#8 :: [] ∧
          (presented chopped (.write16 a 0x0012#16)).pending = .write16 a 0x0012#16 :: [] := by decide +kernel

/-- `20_memory.md` R60: two bytes at 0x3FF are read as two zeros: 0x3FF is reserved, and what lies behind it is CMD
or in no map (assumption log 7). -/
theorem test_read16_last (s : State) : perform (.read16 0x3FF#10) s = .next { s with reply := [0x00#8, 0x00#8] } := by
  show Host.Outcome.next _ = _
  rw [busRead_secondAddress_last]
  rfl

/-- `20_memory.md` R60: two bytes at an odd address, the lower address first: RESULT's high byte and FRAME_LEN. -/
theorem test_write16_odd :
    after (perform (.write16 0x007#10 0x2155#16) chopped) (fun t => t.frameLen = 0x21#8 ∧ t.result = chopped.result) =
      true := by decide +kernel

/-- The state `s` with another key. -/
def withKey (s : State) (k : List Byte) : State := s.setBuffer .key k

/-- Two states that differ in KEY, and actions that complete no command that reads KEY. -/
theorem witness_KeyIsNotObservable :
    AgreeButKey (withKey chopped K) (withKey chopped [0x77#8]) ∧ withKey chopped K ≠ withKey chopped [0x77#8] ∧
      (∀ w, completedWord (withKey chopped K) (.write16 0x000#10 0x0012#16) = some w → opcOf w ∉ keyOpcodes) ∧
      ∀ w, completedWord (withKey chopped K) (.read8 0x020#10) = some w → opcOf w ∉ keyOpcodes := by
  refine ⟨⟨?_, ?_, ?_, ?_, ?_, ?_, ?_, ?_, ?_, ?_⟩, by decide +kernel, ?_, ?_⟩
  · intro b hb
    simp [withKey, hb]
  · intro a ha
    unfold withKey
    have hk : ∀ v : List Byte, v.length ≤ 32 → ((chopped.setBuffer .key v).mem.read a) = chopped.mem.read a :=
      fun v hv => (State.setBuffer_kept (s := chopped) (b := .key) hv).mem a fun b hb => by
        rw [List.mem_singleton.mp hb]; exact ha
    rw [hk _ (by decide), hk _ (by decide)]
  all_goals first | rfl | skip
  · intro w hw
    have : (0x0012#16 : Half) = w := Option.some.inj hw
    subst this
    decide
  · intro w hw
    cases hw

/-- Slot indices 16 and 17; a range that ends at the end of FRAME and one that reaches past it. -/
theorem witness_NarrowTakesTheSlot :
    16 < (17#8 : Byte).toNat ∧ (16#8 : Byte).toNat ≤ 16 ∧ (0#8 : Byte).toNat ≤ 16 ∧
      chopped.value .frame = some f1 ∧ f1.length = (chopped.slot 16).off.toNat + (chopped.slot 16).len.toNat ∧
      (chopped.setBuffer .frame (f1.take 10)).value .frame = some (f1.take 10) ∧
      (f1.take 10).length < ((chopped.setBuffer .frame (f1.take 10)).slot 16).off.toNat +
        ((chopped.setBuffer .frame (f1.take 10)).slot 16).len.toNat := by decide +kernel

/-- OUT empty, and OUT full (MovofMovesOutToFrame, MovoaMovesOutToAux). -/
theorem witness_MovesOut :
    (frameOnly f1).value .out = some [] ∧
      (load 0#16 [(.out, zeros 127)]).value .out = some (zeros 127) := by decide +kernel

/-- Counts 127 and 128, a count above FRAME's length, results of 127 and of 128 bytes. -/
theorem witness_SpliceAssembles :
    127 < (128#8 : Byte).toNat ∧ (127#8 : Byte).toNat ≤ 127 ∧
      (let s := load 0#16 [(.frame, f1), (.aux, zeros 117)];
        s.value .frame = some f1 ∧ s.value .aux = some (zeros 117) ∧
          f1.length < (12#8 : Byte).toNat ∧ f1.length = (11#8 : Byte).toNat ∧
          127 < (11#8 : Byte).toNat + (zeros 117).length ∧ (10#8 : Byte).toNat + (zeros 117).length = 127) := by
  decide +kernel

/-- MAC_CHOP on a frame with a payload and on one without. -/
theorem witness_SpliceUndoesMacChop :
    ∀ f ∈ [f1, hdr23], (frameOnly f).value .frame = some f ∧ (frameOnly f).cfg.getLsbD 0 = false ∧
      after (exec .macChop (frameOnly f)) (fun t =>
        let pay := (f.drop (t.slot 16).off.toNat).take (t.slot 16).len.toNat
        t.code = 0x0#4 && (t.setBuffer .aux pay).value .frame = some f &&
          (t.setBuffer .aux pay).value .aux = some pay) = true := by decide +kernel

/-- 8 and 9 bytes, without and with an FCS. -/
theorem witness_MacHdrlenResult :
    (HasFrame (frameOnly (zeros 8)) (zeros 8) ∧ (zeros 8).length < 9) ∧
      (HasFrame (frameOnly (zeros 9)) (zeros 9) ∧ ¬ (zeros 9).length < 9) ∧
      (HasFrame (frameWithFcs (zeros 8)) (zeros 8)) ∧ HasFrame (frameWithFcs f1) f1 :=
  ⟨⟨hasFrame_frameOnly _ (by decide), by decide⟩, ⟨hasFrame_frameOnly _ (by decide), by decide⟩,
    hasFrame_frameWithFcs _ (by decide), hasFrame_frameWithFcs _ (by decide)⟩

/-- A header as long as the frame, and one byte longer. -/
theorem witness_MacPaylenResult :
    (HasFrame (frameOnly (zeros 8)) (zeros 8) ∧ (zeros 8).length < 9) ∧
      (HasFrame (frameOnly (hdr23.take 22)) (hdr23.take 22) ∧ (hdr23.take 22).length < macHeaderLength (hdr23.take 22)) ∧
      HasFrame (frameOnly hdr23) hdr23 ∧ ¬ (hdr23.length < 9 ∨ hdr23.length < macHeaderLength hdr23) :=
  ⟨⟨hasFrame_frameOnly _ (by decide), by decide⟩, ⟨hasFrame_frameOnly _ (by decide), by decide⟩,
    hasFrame_frameOnly _ (by decide), by decide⟩

/-- 2 and 3 bytes; a header cut by one byte, whole, and with a payload. -/
theorem witness_MacChopResult :
    (HasFrame (frameOnly (zeros 2)) (zeros 2) ∧ (zeros 2).length < 3) ∧
      (HasFrame (frameOnly (hdr23.take 22)) (hdr23.take 22) ∧ (hdr23.take 22).length < macHeaderEnd (hdr23.take 22)) ∧
      (HasFrame (frameOnly (hex 3 0x02002a)) (hex 3 0x02002a) ∧ macHeaderEnd (hex 3 0x02002a) = 3) ∧
      (HasFrame (frameOnly hdr23) hdr23 ∧ hdr23.length = macHeaderEnd hdr23) ∧ HasFrame (frameWithFcs f1) f1 :=
  ⟨⟨hasFrame_frameOnly _ (by decide), by decide⟩, ⟨hasFrame_frameOnly _ (by decide), by decide⟩,
    ⟨hasFrame_frameOnly _ (by decide), by decide⟩, ⟨hasFrame_frameOnly _ (by decide), by decide⟩,
    hasFrame_frameWithFcs _ (by decide)⟩

/-- Every branch: too short, not secured, header cut, a short address, 4 and 5 bytes after the header. -/
theorem witness_MacNonceResult :
    (∀ f ∈ [zeros 2, f1, hdr23.take 22, hex 9 0x69882a341202000100 ++ pre, hdr23 ++ pre.take 4, hdr23 ++ pre.take 5],
      HasFrame (frameOnly f) f) ∧
      (zeros 2).length < 3 ∧ sec f1 = false ∧ ¬ f1.length < 3 ∧ sec (hdr23.take 22) = true ∧
      (hdr23.take 22).length < macHeaderEnd (hdr23.take 22) ∧ sam (hex 9 0x69882a341202000100 ++ pre) ≠ 3#2 ∧
      (hdr23 ++ pre.take 4).length < macHeaderEnd (hdr23 ++ pre.take 4) + 5 ∧
      (hdr23 ++ pre.take 5).length = macHeaderEnd (hdr23 ++ pre.take 5) + 5 ∧ sam (hdr23 ++ pre.take 5) = 3#2 := by
  refine ⟨fun f hf => hasFrame_frameOnly f ?_, ?_⟩
  · revert f; decide
  · decide

/-- Both addresses, one, and none; with and without the source PAN. -/
theorem witness_MacHeaderLengthAgainstEnd :
    ∀ f ∈ [hex 2 0x4188, hex 2 0x01cc, hex 2 0x0180, hex 2 0x4108, hex 2 0x0108, hex 2 0x0100],
      (macHdrlen (f ++ zeros 25)).toBool = true ∧ (macAddr (f ++ zeros 25)).toBool = true := by decide +kernel

/-- Frames that the codecs accept (MacChopPartitions, NwkChopPartitions, ApsChopPartitions, MacLengthsAddUp). -/
theorem witness_ChopPartitions :
    (macChop f1).toBool = true ∧ (macChop hdr23).toBool = true ∧ (macPayloadlen f1).toBool = true ∧
      (macPayloadlen hdr23).toBool = true ∧ (nwkChop n2).toBool = true ∧ (nwkChop (n2.take 31)).toBool = true ∧
      (apsChop a11).toBool = true ∧ (apsChop (a11.take 11)).toBool = true := by decide +kernel

/-- 7 and 8 bytes; a relay list cut by one byte, whole, and followed by a payload (NwkHdrlenResult,
NwkPaylenResult, NwkChopResult). -/
theorem witness_NwkResults :
    (∀ f ∈ [zeros 7, zeros 8, n2.take 30, n2.take 31, n2], HasFrame (frameOnly f) f ∧ HasFrame (frameWithFcs f) f) ∧
      (zeros 7).length < 8 ∧ ¬ ((zeros 8).length < 8 ∨ (zeros 8).length < nwkHeaderLength (zeros 8)) ∧
      (n2.take 30).length < nwkHeaderLength (n2.take 30) ∧ (n2.take 31).length = nwkHeaderLength (n2.take 31) ∧
      nwkHeaderLength n2 < n2.length := by
  refine ⟨fun f hf => ⟨hasFrame_frameOnly f ?_, hasFrame_frameWithFcs f ?_⟩, ?_⟩
  · revert f; decide
  · revert f; decide
  · decide

/-- 0 bytes; a header cut by one byte, whole, and followed by a payload (ApsHdrlenResult, ApsPaylenResult,
ApsChopResult). -/
theorem witness_ApsResults :
    (∀ f ∈ [[], a11.take 10, a11.take 11, a11], HasFrame (frameOnly f) f ∧ HasFrame (frameWithFcs f) f) ∧
      ([] : List Byte).length < 1 ∧ (a11.take 10).length < apsHeaderLength (a11.take 10) ∧
      (a11.take 11).length = apsHeaderLength (a11.take 11) ∧ apsHeaderLength a11 < a11.length := by
  refine ⟨fun f hf => ⟨hasFrame_frameOnly f ?_, hasFrame_frameWithFcs f ?_⟩, ?_⟩
  · revert f; decide
  · revert f; decide
  · decide

/-- A key and a block (AesIsTheMatrixCipher), a byte of the message (CounterModeByByte), and the shortest and
longest MIC (CcmRoundTrip). -/
theorem witness_Ciphers :
    K.length = 16 ∧ (zeros 16).length = 16 ∧ N0.length = 13 ∧ 0 < (zeros 17).length ∧ 16 < (zeros 17).length ∧
      0 ≤ 16 ∧ 16 ≤ 16 := by decide

/-- Key and block lengths on both sides of 16. -/
theorem witness_AesEncResult :
    ∀ k ∈ [15, 16, 17, 32], ∀ n ∈ [15, 16, 17],
      (load 0#16 [(.key, zeros k), (.aux, zeros n)]).value .key = some (zeros k) ∧
        (load 0#16 [(.key, zeros k), (.aux, zeros n)]).value .aux = some (zeros n) := by decide +kernel

/-- The worked example of `45_ccm_security.md` R182: `B0` with its first byte 0x59, and the value `T`. -/
theorem test_macTag_example :
    (macText (hex 13 0x01020304050607080000000106) (hdr23 ++ pre) (hex 5 0x68656c6c6f) 8).head? = some 0x59#8 ∧
      macTag K (hex 13 0x01020304050607080000000106) (hdr23 ++ pre) (hex 5 0x68656c6c6f) 8 =
        hex 8 0x5b6a34b2f89add6c := by decide +kernel

/-- MIC lengths, legal and not; each check of CCM_ENC and CCM_DEC fails alone; the longest result fits, and one
byte more does not; a MIC that agrees and one that does not. -/
theorem witness_CcmResults :
    (∀ m ∈ [4#8, 8#8, (16#8 : Byte)], m = 4#8 ∨ m = 8#8 ∨ m = 16#8) ∧
      (∀ m ∈ [0#8, 5#8, (32#8 : Byte)], m ≠ 4#8 ∧ m ≠ 8#8 ∧ m ≠ 16#8) ∧
      (∀ x ∈ [(15, 13, 3), (16, 12, 3), (16, 13, 3), (16, 13, 123), (16, 13, 124)],
        let s := load 0#16 [(.key, zeros x.1), (.nonce, zeros x.2.1), (.aad, [0x41#8]), (.aux, zeros x.2.2)]
        s.value .key = some (zeros x.1) ∧ s.value .nonce = some (zeros x.2.1) ∧ s.value .aad = some [0x41#8] ∧
          s.value .aux = some (zeros x.2.2)) ∧
      123 + (4#8 : Byte).toNat = 127 ∧ 127 < 124 + (4#8 : Byte).toNat ∧ 3 < (4#8 : Byte).toNat ∧
      (let u := hex 4 0xfce0ce86;
        xorBytes (tagMask K N0 4) u = macTag K N0 (zeros 4) (ctr K N0 (hex 4 0x1736b78c)) 4) ∧
      (let u := hex 4 0xfce0ce87;
        xorBytes (tagMask K N0 4) u ≠ macTag K N0 (zeros 4) (ctr K N0 (hex 4 0x1736b78c)) 4) := by decide +kernel

/-- The state of V3, and one with the longest plaintext. -/
theorem witness_CcmCommandsRoundTrip :
    (∀ p ∈ [hex 4 0x01020304, zeros 123],
      let s := load 0#16 [(.key, K), (.nonce, N0), (.aad, zeros 4), (.aux, p)]
      s.value .key = some K ∧ s.value .nonce = some N0 ∧ s.value .aad = some (zeros 4) ∧ s.value .aux = some p ∧
        p.length + (4#8 : Byte).toNat ≤ 127) ∧ K.length = 16 ∧ N0.length = 13 := by decide +kernel

/-- Frames for the branches of the frame security commands, in their order: 8 bytes, addressing cut, security
bit clear, no preamble, another level, the preamble or payload one byte short, a short source address. -/
def secFrames : List (List Byte) :=
  [sealedFrame.take 8, hdr23.take 22, hex 2 0x01cc ++ sealedFrame.drop 2, hdr23, hdr23 ++ [0x05#8],
    hdr23 ++ pre.take 5, sealedFrame.take 37, hex 9 0x69882a341202000100 ++ pre ++ zeros 13, sealedFrame.take 38,
    sealedFrame]

/-- A frame, a key and a plaintext loaded. -/
def secState (f key aux : List Byte) : State := load 0#16 [(.aux, aux), (.key, key), (.frame, f)]

theorem hasFrame_secState (f key aux : List Byte) (h : f.length ≤ 127) : HasFrame (secState f key aux) f := by
  have hc : ¬ (secState f key aux).cfg.getLsbD 0 = true := by
    simp [secState, load]
  exact ⟨f, State.setBuffer_value (s := load 0#16 [(.aux, aux), (.key, key)]) (b := .frame) h, by rw [if_neg hc]⟩

/-- Every branch of SEC_DECRYPT and SEC_ENCRYPT is reached. -/
theorem witness_SecResults :
    (∀ f ∈ secFrames, HasFrame (secState f K (zeros 5)) f ∧ HasFrame (secState f (K.take 15) []) f) ∧
      (∀ f ∈ secFrames, (secState f K (zeros 5)).value .key = some K ∧
        (secState f K (zeros 5)).value .aux = some (zeros 5) ∧ (secState f K []).value .aux = some [] ∧
        (secState f (K.take 15) []).value .key = some (K.take 15)) ∧
      (sealedFrame.take 8).length < 9 ∧ (hdr23.take 22).length < macHeaderEnd (hdr23.take 22) ∧
      sec (hex 2 0x01cc ++ sealedFrame.drop 2) = false ∧ hdr23.length = macHeaderEnd hdr23 ∧
      at' (hdr23 ++ [0x05#8]) 23 ≠ 0x06#8 ∧ (hdr23 ++ pre.take 5).length < macHeaderEnd hdr23 + 6 ∧
      (sealedFrame.take 37).length < macHeaderEnd sealedFrame + 15 ∧
      sam (hex 9 0x69882a341202000100 ++ pre ++ zeros 13) ≠ 3#2 ∧
      (sealedFrame.take 38).length = macHeaderEnd sealedFrame + 15 ∧ 127 < macHeaderEnd hdr23 + 6 + 91 + 8 ∧
      macHeaderEnd hdr23 + 6 + 90 + 8 = 127 := by
  refine ⟨fun f hf => ?_, by decide +kernel, by decide⟩
  have h : f.length ≤ 127 := by revert f; decide
  exact ⟨hasFrame_secState f _ _ h, hasFrame_secState f _ _ h⟩

/-- The transmit path of P2, and the longest plaintext. -/
theorem witness_SealedFrameDecrypts :
    ∀ p ∈ [hex 5 0x68656c6c6f, zeros 90],
      (secState (hdr23 ++ pre) K p).cfg.getLsbD 0 = false ∧
        (secState (hdr23 ++ pre) K p).value .frame = some (hdr23 ++ pre) ∧
        (secState (hdr23 ++ pre) K p).value .aux = some p ∧
        after (exec .secEncrypt (secState (hdr23 ++ pre) K p)) (fun t => t.code = 0x0#4) = true := by decide +kernel

/-- Frames of 1 and 2, of 125 and 126 bytes (FcsCalcResult, FcsCheckResult, FcsAppendResult). -/
theorem witness_FcsResults :
    ∀ n ∈ [1, 2, 125, 126], (frameOnly (zeros n)).value .frame = some (zeros n) := by decide +kernel

/-- A frame with its FCS at the largest length, and one with a bit of its first and of its last byte changed. -/
theorem witness_FcsLaws :
    (∀ d ∈ [ones20, zeros 125], d.length ≤ 125 ∧ (frameOnly (d ++ fcs d)).value .frame = some (d ++ fcs d)) ∧
      ∀ i ∈ [0, 21], ∀ k ∈ [0, 7], i < ones20.length + 2 ∧ k < 8 ∧
        (frameOnly ((ones20 ++ fcs ones20).set i (at' (ones20 ++ fcs ones20) i ^^^ (1#8 <<< k)))).value .frame =
          some ((ones20 ++ fcs ones20).set i (at' (ones20 ++ fcs ones20) i ^^^ (1#8 <<< k))) := by decide +kernel

/-- The empty load and the largest load of each operand buffer, and the addresses on both sides of the bytes. -/
theorem witness_LoadLineLoads :
    chopped.pending = [] ∧ ∀ b ∈ [Buf.frame, .aux, .aad, .key, .nonce],
      ScriptLine.legal chopped (.load b []) = true ∧ ScriptLine.legal chopped (.load b (zeros b.cap)) = true ∧
        ¬ (b.base ≤ b.base ∧ b.base < b.base + ([] : List Byte).length) ∧
        (∀ a ∈ [b.base - 1, b.base + b.cap], ¬ (b.base ≤ a ∧ a < b.base + (zeros b.cap).length)) := by
  decide +kernel

/-- Every buffer defined, and one legal line of each kind. -/
theorem witness_ScriptsNeverRefused :
    chopped.pending = [] ∧ chopped.AllDefined ∧
      ∀ line ∈ [ScriptLine.load .key K, .cfg 0xFFFF#16, .command 0xFF#8 0x00#8, .rdStatus, .rdResult, .rdOut 127,
        .rdSlot 16, .fcsStrip 11#8, .sealFrame 255#8], line.legal chopped = true := by
  refine ⟨by decide +kernel, fun b => ?_, by decide +kernel⟩
  cases b <;> decide +kernel

end Sys2Proof.Tests
end

section
/-! PROOF. `00_scope.md` R19: header and payload length of a MAC frame add up to its length. -/

namespace Sys2Proof.Machine

/-- `mac_hdrlen` has a value only on frames of at least `MIN_MAC` bytes (R101). -/
theorem le_length_of_macHdrlen_ok {f : List Byte} {h : Nat} (hh : macHdrlen f = .ok h) : 9 ≤ f.length := by
  unfold macHdrlen Config.minMac at hh
  split at hh
  case isTrue => cases hh
  case isFalse hmin => exact Nat.le_of_not_lt hmin

/-- `mac_payloadlen` is the part of the frame that `mac_hdrlen` leaves (R102). -/
theorem macPayloadlen_ok_iff {f : List Byte} {p : Nat} :
    macPayloadlen f = .ok p ↔ ∃ h, macHdrlen f = .ok h ∧ h + p = f.length := by
  unfold macPayloadlen
  constructor
  · intro hp
    obtain ⟨h, hh, hp⟩ := bind_ok hp
    split at hp
    case isTrue => cases hp
    case isFalse hfits =>
      cases hp
      exact ⟨h, hh, Nat.add_sub_of_le (Nat.le_of_not_lt hfits)⟩
  · rintro ⟨h, hh, hsum⟩
    have hfits : ¬ f.length < h := by omega
    have hrest : f.length - h = p := by omega
    rw [hh, ← hrest]
    exact if_neg hfits

/-- Settles O34: the payload length is defined as the difference, and the header length it is taken from has a
value only from `MIN_MAC` bytes on. -/
theorem macLengthsAddUp : Obligations.MacLengthsAddUp := by
  intro f p hp
  obtain ⟨h, hh, hsum⟩ := macPayloadlen_ok_iff.mp hp
  exact ⟨h, hh, hsum, le_length_of_macHdrlen_ok hh⟩

end Sys2Proof.Machine
end

section
/-! PROOF. How a command ends, in one function of its operands: what the operand checks and the body say, before any
state is written. Two states with the same operands end a command the same way. -/

namespace Sys2Proof.Machine

variable {i : Instr} {s t : State} {b : Buf} {bs : List Buf} {x : Effect} {r : Ending} {e : ErrorStatus} {n : Nat}

/-! ### The verdict -/

/-- What a command other than RESET ends with, or the operand buffer for which it is refused. -/
def verdict (i : Instr) (s : State) : Except Buf Ending :=
  if i.wf = false then .ok (.error .illegalCommand)
  else if s.anyOverCapacity i.reads then .ok (.error .frameTooLong)
  else match s.firstUndefined i.reads with
    | some b => .error b
    | none => .ok (commandBody i s)

/-- Carries out a verdict. -/
def conclude (v : Except Buf Ending) (s : State) : Result :=
  match v with
  | .ok r => .next (finish r s)
  | .error b => .refused (.undefinedOperand b)

@[simp] theorem conclude_ok : conclude (.ok r) s = .next (finish r s) := rfl

@[simp] theorem conclude_error : conclude (.error b) s = .refused (.undefinedOperand b) := rfl

@[simp] theorem finish_ok : finish (.ok x) s = complete x s := rfl

@[simp] theorem finish_error : finish (.error e) s = raise e s := rfl

theorem exec_reset : exec .reset s = .next s.resetBlock := rfl

/-- Every command other than RESET carries out its verdict. -/
theorem exec_eq_conclude (hr : i ≠ .reset) : exec i s = conclude (verdict i s) s := by
  cases hw : i.wf with
  | false => simp [exec_not_wf hw, verdict, hw]
  | true =>
    rw [exec_eq_withOperands hw hr]
    simp only [verdict, withOperands, hw, Bool.true_eq_false, if_false]
    split
    · rfl
    · cases s.firstUndefined i.reads <;> rfl

/-- A verdict that is an ending comes from an illegal argument, a length above capacity, or the body on defined
operands. -/
theorem verdict_ok (h : verdict i s = .ok r) :
    r = .error .illegalCommand ∨ r = .error .frameTooLong ∨
      ((∀ b ∈ i.reads, s.value b = some (s.bytes b)) ∧ r = commandBody i s) := by
  unfold verdict at h
  split at h
  · cases h; exact .inl rfl
  split at h
  · cases h; exact .inr (.inl rfl)
  split at h
  · cases h
  next hf =>
    cases h
    refine .inr (.inr ⟨fun b hb => ?_, rfl⟩)
    have hsome : s.value b ≠ none := by simpa using List.find?_eq_none.mp hf b hb
    obtain ⟨v, hv⟩ := Option.ne_none_iff_exists'.mp hsome
    rw [hv, State.bytes_eq hv]

/-- A command that ends `Ok` has run its body on defined operands. -/
theorem verdict_ok_ok (h : verdict i s = .ok (.ok x)) :
    (∀ b ∈ i.reads, s.value b = some (s.bytes b)) ∧ commandBody i s = .ok x := by
  rcases verdict_ok h with h | h | ⟨hb, h⟩
  · cases h
  · cases h
  · exact ⟨hb, h.symm⟩

theorem verdict_bounded (h : verdict i s = .ok (.ok x)) : x.bounded := by
  obtain ⟨hb, h⟩ := verdict_ok_ok h
  exact commandBody_ok hb h

/-- The two ways a command answers a next state: the block is reset, or its verdict is an ending. -/
theorem exec_eq_next (h : exec i s = .next t) :
    (i = .reset ∧ t = s.resetBlock) ∨ (i ≠ .reset ∧ ∃ r, verdict i s = .ok r ∧ t = finish r s) := by
  by_cases hr : i = .reset
  · subst hr; cases h; exact .inl ⟨rfl, rfl⟩
  · rw [exec_eq_conclude hr] at h
    cases hv : verdict i s with
    | ok r => rw [hv] at h; cases h; exact .inr ⟨hr, r, rfl, rfl⟩
    | error b => rw [hv] at h; cases h

/-! ### A verdict is a function of the operands -/

/-- What a command can see of a state: CFG, the buffers it reads and, for NARROW, the slots. -/
structure SeesSame (i : Instr) (s t : State) : Prop where
  cfg : t.cfg = s.cfg
  len : ∀ b ∈ i.reads, t.len b = s.len b
  value : ∀ b ∈ i.reads, t.value b = s.value b
  slots : ∀ k, i = .narrow k → t.slots = s.slots

theorem anyOverCapacity_congr (h : ∀ b ∈ bs, t.len b = s.len b) :
    t.anyOverCapacity bs = s.anyOverCapacity bs := by
  unfold State.anyOverCapacity State.overCapacity
  rw [Bool.eq_iff_iff, List.any_eq_true, List.any_eq_true]
  exact exists_congr fun b => and_congr_right fun hb => by rw [h b hb]

theorem firstUndefined_congr (h : ∀ b ∈ bs, t.value b = s.value b) :
    t.firstUndefined bs = s.firstUndefined bs :=
  List.find?_congr fun b hb => by rw [h b hb]

/-- The body of a command depends on what the command can see only. -/
theorem commandBody_congr (h : SeesSame i s t) : commandBody i t = commandBody i s := by
  have hb : ∀ b ∈ i.reads, t.bytes b = s.bytes b := fun b hm => by simp only [State.bytes, h.value b hm]
  have hc := h.cfg
  cases i
  case narrow k => simp only [commandBody, State.slot, h.slots k rfl, hb .frame (by simp [Instr.reads])]
  all_goals
    simp only [Instr.reads, List.mem_cons, List.not_mem_nil, or_false, forall_eq_or_imp, forall_eq] at hb
    simp only [commandBody, hb, hc]

theorem verdict_congr (h : SeesSame i s t) : verdict i t = verdict i s := by
  unfold verdict
  rw [anyOverCapacity_congr h.len, firstUndefined_congr h.value, commandBody_congr h]

end Sys2Proof.Machine
end

section
/-! PROOF. What the end of a command leaves as it was, and what the host's next write of one byte leaves. -/

namespace Sys2Proof.Machine

variable {s : State} {b : Buf} {x : Effect} {r : Ending}

@[simp] theorem replaceBuffer_none (h : x.replaces = none) : x.replaceBuffer s = s := by
  simp [Effect.replaceBuffer, h]

theorem replaceBuffer_some {bytes : List Byte} (h : x.replaces = some (b, bytes)) :
    x.replaceBuffer s = s.setBuffer b bytes := by
  simp [Effect.replaceBuffer, h]

@[simp] theorem replaceBuffer_cfg : (x.replaceBuffer s).cfg = s.cfg := by
  unfold Effect.replaceBuffer; split <;> simp

@[simp] theorem replaceBuffer_pending : (x.replaceBuffer s).pending = s.pending := by
  unfold Effect.replaceBuffer; split <;> simp

@[simp] theorem complete_status : (complete x s).status = statusWord okCode x.crcOk x.authOk := rfl
@[simp] theorem complete_result : (complete x s).result = BitVec.ofNat 16 x.result := rfl
@[simp] theorem complete_slots : (complete x s).slots = slotsOf x.fields := rfl
@[simp] theorem complete_pending : (complete x s).pending = s.pending := replaceBuffer_pending

@[simp] theorem finish_pending : (finish r s).pending = s.pending := by
  cases r <;> simp

/-! ### The fields of a status word -/

theorem statusWord_crcOk (c : BitVec 4) (x y : Bool) : (statusWord c x y).getLsbD 5 = x := by
  revert c x y; decide

theorem statusWord_authOk (c : BitVec 4) (x y : Bool) : (statusWord c x y).getLsbD 6 = y := by
  revert c x y; decide

theorem statusWord_reserved (c : BitVec 4) (x y : Bool) : (statusWord c x y).extractLsb' 7 9 = 0#9 := by
  revert c x y; decide

@[simp] theorem complete_code : (complete x s).code = okCode := statusWord_code _ _ _
@[simp] theorem complete_crcOk : (complete x s).crcOk = x.crcOk := statusWord_crcOk _ _ _
@[simp] theorem complete_authOk : (complete x s).authOk = x.authOk := statusWord_authOk _ _ _
@[simp] theorem raise_crcOk {e : ErrorStatus} : (raise e s).crcOk = false := statusWord_crcOk _ _ _
@[simp] theorem raise_authOk {e : ErrorStatus} : (raise e s).authOk = false := statusWord_authOk _ _ _

theorem cfgWord_reserved (p : Bool) : (cfgWord p).extractLsb' 1 15 = 0#15 := by
  revert p; decide

end Sys2Proof.Machine
end

section
/-! PROOF. The invariant of the block: it holds at reset and every host action keeps it. -/

namespace Sys2Proof.Machine

variable {s t : State} {b : Buf} {bytes out : List Byte} {x : Effect} {r : Ending} {i : Instr} {w : Half}
  {status result : Half} {slots : Vector Slot Config.nslot}

/-! ### Slots -/

/-- The slot lies within 127 bytes and is empty only as `(0, 0)` (`10_state.md` R29). -/
def Slot.fits (x : Slot) : Prop := x.off.toNat + x.len.toNat ≤ Config.maxFrame ∧ (x.len = 0#8 → x.off = 0#8)

theorem toSlot_fits {r : Range} (h : r.within 127) : r.toSlot.fits := by
  obtain ⟨hle, hz⟩ := h
  have hoff : (BitVec.ofNat 8 r.off).toNat = r.off := by rw [BitVec.toNat_ofNat]; omega
  have hlen : (BitVec.ofNat 8 r.len).toNat = r.len := by rw [BitVec.toNat_ofNat]; omega
  refine ⟨by simp only [Range.toSlot, hoff, hlen]; exact hle, fun h0 => ?_⟩
  have hr : r.len = 0 := by rw [← hlen]; exact congrArg BitVec.toNat h0
  simp only [Range.toSlot, hz hr]

/-- What SLOT[k] holds once the given fields stand in the slots. -/
theorem slot_slotsOf {fields : List Range} (h : t.slots = slotsOf fields) {k : Nat} (hk : k < Config.nslot) :
    t.slot k = (fields.getD k Range.absent).toSlot := by
  simp [State.slot, h, slotsOf, hk]

theorem slotsOf_fits {fields : List Range} (h : t.slots = slotsOf fields) (hf : ∀ r ∈ fields, r.within 127)
    {k : Nat} (hk : k < Config.nslot) : (t.slot k).fits := by
  rw [slot_slotsOf h hk]
  refine toSlot_fits ?_
  by_cases hl : k < fields.length
  · rw [List.getD_eq_getElem _ _ hl]; exact hf _ (List.getElem_mem hl)
  · rw [List.getD_eq_default _ _ (by omega)]; exact absent_within

/-! ### Canonical memory -/

theorem bufferAddress_base_add {k : Nat} (h : k < b.cap) : bufferAddress (b.base + k) = true :=
  bufferAddress_of_holds (b := b) (Buf.holds_iff.mpr ⟨by omega, by omega⟩)

theorem setBuffer_wf (hm : s.mem.wf = true) (hl : bytes.length ≤ b.cap) : (s.setBuffer b bytes).mem.wf = true := by
  rw [State.setBuffer_mem]
  exact Memory.wf_writeAll (fun k hk => bufferAddress_base_add (by omega)) hm

theorem setRecord_wf (hm : s.mem.wf = true) (hl : out.length ≤ 127) :
    (s.setRecord status result slots out).mem.wf = true := by
  rw [State.setRecord_mem]
  exact Memory.wf_writeAll (fun k hk => bufferAddress_base_add (b := .out) (Nat.lt_of_lt_of_le hk hl))
    (Memory.wf_erase hm)

theorem replaceBuffer_wf (hm : s.mem.wf = true) (hx : x.bounded) : (x.replaceBuffer s).mem.wf = true := by
  rcases hx.replaces with h | ⟨b, bytes, h, -, hl, -⟩
  · rwa [replaceBuffer_none h]
  · rw [replaceBuffer_some h]; exact setBuffer_wf hm hl

/-! ### The ends of a command -/

/-- OUT_mem lists the bytes of the record's OUT and no others. -/
theorem setRecord_out_isSome (hl : out.length ≤ 127) {k : Nat} (hk : k < Config.maxFrame) :
    ((s.setRecord status result slots out).mem.read (Buf.out.base + k)).isSome ↔
      k < (s.setRecord status result slots out).outLen.toNat := by
  rw [setRecord_outBytes hk, (setRecord_recordIs hl).outLen]
  simp

/-- An `Ok` end with a bounded effect meets the invariant, whatever the record was before. -/
theorem complete_inv (hm : s.mem.wf = true) (hc : s.cfg.extractLsb' 1 15 = 0#15) (hx : x.bounded) :
    (complete x s).Inv where
  memory := setRecord_wf (replaceBuffer_wf hm hx) hx.out
  outLen := (setRecord_recordIs hx.out).outLen.trans_le hx.out
  out _ hk := setRecord_out_isSome hx.out hk
  cfg := (congrArg (BitVec.extractLsb' 1 15) replaceBuffer_cfg).trans hc
  result := by
    have := hx.result
    rw [complete_result, BitVec.toNat_ofNat]
    exact (Nat.mod_le _ _).trans this
  status := statusWord_reserved _ _ _
  code := by rw [complete_code]; decide
  slots _ hk := slotsOf_fits rfl hx.fields hk
  afterError h := absurd complete_code h

theorem ErrorStatus.code_mem_produced (e : ErrorStatus) : e.code ∈ producedCodes := by
  cases e <;> decide

/-- An error status meets the invariant, whatever the record was before. -/
theorem raise_inv {e : ErrorStatus} (hm : s.mem.wf = true) (hc : s.cfg.extractLsb' 1 15 = 0#15) :
    (raise e s).Inv where
  memory := setRecord_wf hm (Nat.zero_le _)
  outLen := by simp
  out _ hk := setRecord_out_isSome (Nat.zero_le _) hk
  cfg := hc
  result := by simp
  status := statusWord_reserved _ _ _
  code := by rw [raise_code]; exact e.code_mem_produced
  slots _ hk := slotsOf_fits (fields := []) rfl (by simp) hk
  afterError _ := ⟨rfl, rfl, rfl, raise_crcOk, raise_authOk⟩

/-- Settles O3: memory is empty, and the slots are `(0, 0)`. -/
theorem invariantAtReset : Obligations.InvariantAtReset where
  memory := rfl
  outLen := by decide
  out _ _ := by simp [State.reset]
  cfg := by decide
  result := by decide
  status := by decide
  code := by decide
  slots := by decide
  afterError h := absurd rfl h

/-! ### What the invariant does not look at -/

/-- The invariant looks at the record, at OUT_mem, at the reserved bits of CFG and at the form of memory only. -/
theorem inv_of_same_record (h : s.Inv) (hm : t.mem.wf = true) (hc : t.cfg.extractLsb' 1 15 = 0#15)
    (hout : ∀ k, k < Config.maxFrame → t.mem.read (Buf.out.base + k) = s.mem.read (Buf.out.base + k))
    (hl : t.outLen = s.outLen) (hr : t.result = s.result) (hst : t.status = s.status) (hsl : t.slots = s.slots) :
    t.Inv := by
  have hcode : t.code = s.code := by simp only [State.code, hst]
  have hslot (k : Nat) : t.slot k = s.slot k := by simp only [State.slot, hsl]
  exact
    { memory := hm
      outLen := hl ▸ h.outLen
      out := fun k hk => by rw [hout k hk, hl]; exact h.out k hk
      cfg := hc
      result := hr ▸ h.result
      status := hst ▸ h.status
      code := hcode ▸ h.code
      slots := fun k hk => by rw [hslot]; exact h.slots k hk
      afterError := fun he => by
        simp only [State.crcOk, State.authOk, hr, hsl, hl, hst]
        exact h.afterError (hcode ▸ he) }

/-- The invariant is about the block: CMD_LO and the host's side of the bus do not enter. -/
theorem inv_host {lo : Byte} {rest : List HostAction} {reply : List Byte} {n : Nat} (h : s.Inv) :
    State.Inv { s with cmdLo := lo, pending := rest, reply := reply, accesses := n } :=
  inv_of_same_record h h.memory h.cfg (fun _ _ => rfl) rfl rfl rfl rfl

/-! ### Every host action -/

theorem exec_inv (h : s.Inv) (he : exec i s = .next t) : t.Inv := by
  rcases exec_eq_next he with ⟨-, rfl⟩ | ⟨-, r, hv, rfl⟩
  · exact inv_host invariantAtReset
  · cases r with
    | error e => exact raise_inv h.memory h.cfg
    | ok x => exact complete_inv h.memory h.cfg (verdict_bounded hv)

theorem executeWord_inv (h : s.Inv) (he : executeWord w s = .next t) : t.Inv := by
  rcases executeWord_cases w s with ⟨i, -, hi⟩ | ⟨-, hi⟩
  · exact exec_inv h (hi ▸ he)
  · rw [hi] at he; cases he; exact raise_inv h.memory h.cfg

theorem busWrite_inv {a : Nat} {v : Byte} (h : s.Inv) (he : busWrite a v s = .next t) : t.Inv := by
  rcases busWrite_cases a v s with ⟨-, hw⟩ | hw | hw | ⟨b, hb, hw⟩ | ⟨b, k, hb, hk, hw⟩ | hw <;> rw [hw] at he
  case inl =>
    obtain ⟨u, hu, he⟩ := Result.andThen_eq_next he
    cases he
    exact inv_host (executeWord_inv h hu)
  all_goals cases he
  · exact inv_host h
  · exact inv_of_same_record h h.memory (cfgWord_reserved _) (fun _ _ => rfl) rfl rfl rfl rfl
  · have hlen : (s.setLen b v).outLen = s.outLen := (State.setLen_len (b' := .out)).trans (if_neg hb.symm)
    exact inv_of_same_record h (by simpa using h.memory) (by simpa using h.cfg) (by simp) hlen (by simp) (by simp)
      (by simp)
  · refine inv_of_same_record h (Memory.wf_write (bufferAddress_base_add hk) h.memory) h.cfg (fun j hj => ?_)
      rfl rfl rfl rfl
    refine Memory.read_write_other fun heq => ?_
    have hout : Buf.out.holds (Buf.out.base + j) = true := Buf.holds_iff.mpr ⟨by omega, Nat.add_lt_add_left hj _⟩
    have hin : b.holds (Buf.out.base + j) = true := Buf.holds_iff.mpr ⟨by omega, by omega⟩
    simp [Buf.holds_disjoint hb hin] at hout
  · exact h

theorem perform_inv {x : HostAction} (h : s.Inv) (he : perform x s = .next t) : t.Inv := by
  cases x with
  | read8 => cases he; exact inv_host h
  | read16 => cases he; exact inv_host h
  | write8 => exact busWrite_inv h he
  | write16 =>
    obtain ⟨u, hu, he⟩ := Result.andThen_eq_next he
    exact busWrite_inv (busWrite_inv h hu) he
  | powerOn => cases he; exact inv_host invariantAtReset

/-- Settles O4: each host action keeps the invariant, and a step is the next of them or none. -/
theorem stepKeepsInvariant : Obligations.StepKeepsInvariant := by
  intro s t h he
  cases hp : s.pending with
  | nil => rw [step_idle hp] at he; cases he; exact h
  | cons x rest => rw [step_next hp] at he; exact perform_inv (inv_host h) he

end Sys2Proof.Machine
end

section
/-! PROOF. The key is not observable: two states that differ in KEY only go on differing in KEY only, as long as no
command that reads KEY runs. -/

namespace Sys2Proof

variable {i j : Instr} {opc arg : Byte} {w : Half}

/-! ### Decoding keeps the two bytes of the word -/

theorem withoutArg_ok (h : withoutArg opc arg j = .ok i) : i = j ∧ arg = 0#8 := by
  unfold withoutArg at h
  split at h
  next harg => cases h; exact ⟨rfl, harg⟩
  next => cases h

theorem withoutArg_fields (hopc : j.opcode = opc) (harg : j.argument = 0#8) (h : withoutArg opc arg j = .ok i) :
    i.opcode = opc ∧ i.argument = arg := by
  obtain ⟨rfl, rfl⟩ := withoutArg_ok h
  exact ⟨hopc, harg⟩

/-- A command that is decoded has the OPC and the ARG of its word. -/
theorem decodeFields_ok (h : decodeFields opc arg = .ok i) : i.opcode = opc ∧ i.argument = arg := by
  unfold decodeFields at h
  split at h <;> first
    | exact withoutArg_fields rfl rfl h
    | cases h <;> exact ⟨rfl, rfl⟩

theorem opcode_of_decode (h : decode w = .ok i) : i.opcode = opcOf w := (decodeFields_ok h).1

end Sys2Proof

namespace Sys2Proof.Machine

variable {s t : State} {i : Instr} {a : Nat} {w : Half} {r r' : Result}
  {R S : State → State → Prop}

/-! ### Two runs side by side -/

/-- Both runs answer next states that stand in the relation, or both are refused for the same reason. -/
def RunAlike (R : State → State → Prop) (r r' : Result) : Prop :=
  (∃ t t', r = .next t ∧ r' = .next t' ∧ R t t') ∨ ∃ x, r = .refused x ∧ r' = .refused x

theorem RunAlike.next (h : R s t) : RunAlike R (.next s) (.next t) := .inl ⟨s, t, rfl, rfl, h⟩

theorem RunAlike.andThen {k k' : State → Result} (h : RunAlike R r r')
    (hk : ∀ u u', R u u' → RunAlike S (k u) (k' u')) :
    RunAlike S (Result.andThen r k) (Result.andThen r' k') := by
  rcases h with ⟨u, u', rfl, rfl, hu⟩ | ⟨x, rfl, rfl⟩
  · exact hk u u' hu
  · exact .inr ⟨x, rfl, rfl⟩

/-- Two states on which a command sees the same: it is refused on both or ends on both as the same verdict says. -/
theorem exec_alike (h : SeesSame i s t) (hreset : i = .reset → R s.resetBlock t.resetBlock)
    (hfinish : ∀ e, verdict i s = .ok e → R (finish e s) (finish e t)) : RunAlike R (exec i s) (exec i t) := by
  by_cases hr : i = .reset
  · subst hr; exact .next (hreset rfl)
  · rw [exec_eq_conclude hr, exec_eq_conclude hr, verdict_congr h]
    cases hv : verdict i s with
    | ok e => exact .next (hfinish e hv)
    | error b => exact .inr ⟨_, rfl, rfl⟩

/-! ### The address of the command word -/

theorem arrayTarget_ne_cmdHigh : arrayTarget a ≠ .cmdHigh := by
  unfold arrayTarget
  split
  · split <;> simp
  · split <;> simp

/-- Only a write to 0x001 executes a command. -/
theorem eq_one_of_cmdHigh (h : busTarget a = .cmdHigh) : a = 1 := by
  unfold busTarget at h
  split at h <;> first | rfl | cases h | exact absurd h arrayTarget_ne_cmdHigh

/-- The write of a whole command word holds its low byte and executes at its high byte. -/
theorem perform_commandWord :
    perform (.write16 0x000#10 w) s = writeCommandHigh (highByte w) { s with cmdLo := lowByte w } := rfl

/-- A 2-byte access that does not start at 0x000 has no second byte at 0x001. -/
theorem secondAddress_ne_one {x : BusAddr} (h : x ≠ 0x000#10) : secondAddress s x ≠ 1 := by
  have hx : x.toNat ≠ 0 := fun e => h (BitVec.eq_of_toNat_eq e)
  unfold secondAddress
  simp only [Config.busBytes]
  split
  · omega
  · split <;> simp

end Sys2Proof.Machine

namespace Sys2Proof.Claims

open Sys2Proof.Machine

variable {s t : State} {i : Instr} {b : Buf} {a : Nat} {v : Byte}

/-! ### Operations keep the agreement -/

theorem AgreeButKey.value (h : AgreeButKey s t) (hb : b ≠ .key) : t.value b = s.value b :=
  State.value_congr (h.len b hb) fun _ hi => h.mem _ (Buf.holds_disjoint hb (Buf.holds_iff.mpr ⟨by omega, by omega⟩))

theorem AgreeButKey.slot (h : AgreeButKey s t) (k : Nat) : t.slot k = s.slot k := by
  simp only [State.slot, h.slots]

theorem AgreeButKey.seesSame (h : AgreeButKey s t) (hk : Buf.key ∉ i.reads) : SeesSame i s t where
  cfg := h.cfg
  len _ hb := h.len _ (ne_of_mem_of_not_mem hb hk)
  value _ hb := h.value (ne_of_mem_of_not_mem hb hk)
  slots _ _ := h.slots

theorem AgreeButKey.cmdLo_set (h : AgreeButKey s t) : AgreeButKey { s with cmdLo := v } { t with cmdLo := v } :=
  { h with len := fun b hb => by cases b <;> exact h.len _ hb, cmdLo := rfl }

theorem AgreeButKey.cfg_set {c : Half} (h : AgreeButKey s t) : AgreeButKey { s with cfg := c } { t with cfg := c } :=
  { h with len := fun b hb => by cases b <;> exact h.len _ hb, cfg := rfl }

theorem AgreeButKey.reply_set {y : List Byte} (h : AgreeButKey s t) :
    AgreeButKey { s with reply := y } { t with reply := y } :=
  { h with len := fun b hb => by cases b <;> exact h.len _ hb, reply := rfl }

theorem AgreeButKey.write (h : AgreeButKey s t) :
    AgreeButKey { s with mem := s.mem.write a v } { t with mem := t.mem.write a v } :=
  { h with
    len := fun b hb => by cases b <;> exact h.len _ hb
    mem := fun x hx => by simp only [Memory.read_write, h.mem x hx] }

theorem AgreeButKey.setLen (h : AgreeButKey s t) : AgreeButKey (s.setLen b v) (t.setLen b v) where
  len b' hb := by simp only [State.setLen_len, h.len b' hb]
  mem x hx := by simpa using h.mem x hx
  cfg := by simpa using h.cfg
  slots := by simpa using h.slots
  result := by simpa using h.result
  status := by simpa using h.status
  cmdLo := by simpa using h.cmdLo
  pending := by simpa using h.pending
  reply := by simpa using h.reply
  accesses := by simpa using h.accesses

theorem AgreeButKey.setBuffer {bytes : List Byte} (h : AgreeButKey s t) :
    AgreeButKey (s.setBuffer b bytes) (t.setBuffer b bytes) := by
  have hm : AgreeButKey { s with mem := s.mem.writeAll b.base bytes } { t with mem := t.mem.writeAll b.base bytes } :=
    { h with
      len := fun b hb => by cases b <;> exact h.len _ hb
      mem := fun x hx => by simp only [Memory.read_writeAll, h.mem x hx] }
  exact hm.setLen

theorem AgreeButKey.setRecord {status result : Half} {slots : Vector Slot Config.nslot} {out : List Byte}
    (h : AgreeButKey s t) :
    AgreeButKey (s.setRecord status result slots out) (t.setRecord status result slots out) where
  len b hb := by
    by_cases ho : b = .out
    · subst ho; rfl
    · rw [State.setRecord_len_operand ho, State.setRecord_len_operand ho, h.len b hb]
  mem x hx := by simp only [State.setRecord_mem, Memory.read_writeAll, Memory.read_erase, h.mem x hx]
  cfg := h.cfg
  slots := rfl
  result := rfl
  status := rfl
  cmdLo := h.cmdLo
  pending := h.pending
  reply := h.reply
  accesses := h.accesses

theorem AgreeButKey.finish {e : Ending} (h : AgreeButKey s t) : AgreeButKey (finish e s) (finish e t) := by
  cases e with
  | error e => exact h.setRecord
  | ok x =>
    have hr : AgreeButKey (x.replaceBuffer s) (x.replaceBuffer t) := by
      unfold Effect.replaceBuffer
      split
      · exact h.setBuffer
      · exact h
    exact hr.setRecord

theorem AgreeButKey.resetBlock (h : AgreeButKey s t) : AgreeButKey s.resetBlock t.resetBlock where
  len b _ := by cases b <;> rfl
  mem _ _ := rfl
  cfg := rfl
  slots := rfl
  result := rfl
  status := rfl
  cmdLo := rfl
  pending := h.pending
  reply := h.reply
  accesses := h.accesses

end Sys2Proof.Claims

namespace Sys2Proof.Machine

open Sys2Proof.Claims

variable {s t : State} {i : Instr} {b : Buf} {a : Nat} {v : Byte} {w : Half}

/-! ### Commands and bus accesses -/

/-- The commands that read KEY are those with an opcode of the list (`30_encoding.md` R73). -/
theorem key_mem_reads_iff : Buf.key ∈ i.reads ↔ i.opcode ∈ keyOpcodes := by
  cases i <;> simp [Instr.reads, Instr.opcode, keyOpcodes]

theorem executeWord_alike (h : AgreeButKey s t) (hk : opcOf w ∉ keyOpcodes) :
    RunAlike AgreeButKey (executeWord w s) (executeWord w t) := by
  unfold executeWord
  cases hd : decode w with
  | error => exact .next h.setRecord
  | ok i =>
    have hread : Buf.key ∉ i.reads := by rwa [key_mem_reads_iff, opcode_of_decode hd]
    exact exec_alike (h.seesSame hread) (fun _ => h.resetBlock) fun _ _ => h.finish

theorem writeCommandHigh_alike (h : AgreeButKey s t) (hk : s.cmdLo ∉ keyOpcodes) :
    RunAlike AgreeButKey (writeCommandHigh v s) (writeCommandHigh v t) := by
  unfold writeCommandHigh
  rw [h.cmdLo]
  exact (executeWord_alike h (by rwa [opcOf_commandWord])).andThen fun _ _ hu => .next hu.cmdLo_set

/-- A byte write keeps the agreement, unless it executes a command that reads KEY. -/
theorem busWrite_alike (h : AgreeButKey s t) (hk : a = 1 → s.cmdLo ∉ keyOpcodes) :
    RunAlike AgreeButKey (busWrite a v s) (busWrite a v t) := by
  unfold busWrite
  cases ht : busTarget a with
  | cmdLow => exact .next h.cmdLo_set
  | cmdHigh => exact writeCommandHigh_alike h (hk (eq_one_of_cmdHigh ht))
  | cfgLow => exact .next h.cfg_set
  | length b => cases b <;> first | exact .next h.setLen | exact .next h
  | array b k => cases b <;> first | exact .next h.write | exact .next h
  | statusLow | statusHigh | cfgHigh | resultLow | resultHigh | slotOff | slotLen | reserved => exact .next h

theorem arrayByte_agree {k : Nat} (h : AgreeButKey s t) (hk : k < b.cap) : arrayByte t b k = arrayByte s b k := by
  by_cases hb : b = .key
  · subst hb; rfl
  · have hm : t.mem.read (b.base + k) = s.mem.read (b.base + k) :=
      h.mem _ (Buf.holds_disjoint hb (Buf.holds_iff.mpr ⟨by omega, by omega⟩))
    have hout : t.outLen = s.outLen := h.len .out (by simp)
    simp only [arrayByte, hm, hout, h.accesses]

/-- A byte read shows nothing of KEY. -/
theorem busRead_agree (h : AgreeButKey s t) : busRead t a = busRead s a := by
  unfold busRead
  cases ht : busTarget a with
  | length b =>
    by_cases hb : b = .key
    · subst hb; rfl
    · simp only [h.len b hb]
  | array b k => exact arrayByte_agree h (busTarget_eq_array ht).2
  | cmdLow | cmdHigh | statusLow | statusHigh | cfgLow | cfgHigh | resultLow | resultHigh | slotOff | slotLen
    | reserved => simp only [h.status, h.cfg, h.result, h.slot]

theorem secondAddress_agree {x : BusAddr} (h : AgreeButKey s t) : secondAddress t x = secondAddress s x := by
  simp only [secondAddress, h.accesses]

/-- Settles O21: a byte read shows nothing of KEY, a byte write depends on KEY only through the command it
executes, and a command that does not read KEY ends the same way on both states. -/
theorem keyIsNotObservable : Obligations.KeyIsNotObservable := by
  intro s s' x h hk
  show RunAlike AgreeButKey (perform x s) (perform x s')
  cases x with
  | read8 a =>
    simp only [perform, busRead_agree h]
    exact .next h.reply_set
  | read16 a =>
    simp only [perform, busRead_agree h, secondAddress_agree h]
    exact .next h.reply_set
  | write8 a v =>
    refine busWrite_alike h fun ha => ?_
    have hw := hk (v ++ s.cmdLo) (if_pos (BitVec.eq_of_toNat_eq ha))
    rwa [show v ++ s.cmdLo = commandWord s.cmdLo v from rfl, opcOf_commandWord] at hw
  | write16 a w =>
    by_cases h0 : a = 0x000#10
    · subst h0
      simp only [perform_commandWord]
      exact writeCommandHigh_alike h.cmdLo_set (hk w rfl)
    · have hfirst : a.toNat = 1 → s.cmdLo ∉ keyOpcodes := fun ha => by
        have hw := hk (lowByte w ++ s.cmdLo) ((if_neg h0).trans (if_pos (BitVec.eq_of_toNat_eq ha)))
        rwa [show lowByte w ++ s.cmdLo = commandWord s.cmdLo (lowByte w) from rfl, opcOf_commandWord] at hw
      simp only [perform, secondAddress_agree h]
      exact (busWrite_alike h hfirst).andThen fun u u' hu =>
        busWrite_alike hu fun h1 => absurd h1 (secondAddress_ne_one h0)
  | powerOn => exact .next h.resetBlock

end Sys2Proof.Machine
end

section
/-! PROOF. When a buffer has a value, and what a script of legal lines keeps: every buffer has one. -/

namespace Sys2Proof.Machine

variable {s t : State} {b : Buf} {a n : Nat} {v : Byte} {m : Memory} {i : Instr} {r : Ending} {x : Effect} {w : Half}

/-! ### Defined buffers -/

/-- A run of bytes has a value when each of its bytes has one. -/
theorem readAll_isSome_iff : (m.readAll a n).isSome ↔ ∀ k, k < n → (m.read (a + k)).isSome := by
  constructor
  · intro h k hk
    obtain ⟨bs, hbs⟩ := Option.isSome_iff_exists.mp h
    obtain ⟨hl, hread⟩ := Memory.readAll_eq_some.mp hbs
    rw [hread k hk, List.getElem?_eq_getElem (by omega)]
    rfl
  · induction n generalizing a with
    | zero => intro _; rfl
    | succ n ih =>
      intro h
      obtain ⟨c, hc⟩ := Option.isSome_iff_exists.mp (h 0 (by omega))
      have hrest : (m.readAll (a + 1) n).isSome :=
        ih fun k hk => by simpa [Nat.add_assoc, Nat.add_comm 1 k] using h (k + 1) (by omega)
      obtain ⟨bs, hbs⟩ := Option.isSome_iff_exists.mp hrest
      rw [Nat.add_zero] at hc
      rw [Memory.readAll, hc, hbs]
      rfl

/-- A buffer has a value when its length is within capacity and each of its bytes has a value (`10_state.md` R22,
R23, R25). -/
theorem value_isSome_iff : (s.value b).isSome ↔
    (s.len b).toNat ≤ b.cap ∧ ∀ k, k < (s.len b).toNat → (s.mem.read (b.base + k)).isSome := by
  unfold State.value State.overCapacity
  by_cases h : b.cap < (s.len b).toNat
  · simp [h]
  · simp [h, Nat.not_lt.mp h, readAll_isSome_iff]

theorem allDefined_of_same_buffers (h : s.AllDefined) (hl : ∀ b, t.len b = s.len b) (hm : t.mem = s.mem) :
    t.AllDefined := fun b => by
  rw [State.value_congr (hl b) fun k _ => by rw [hm]]
  exact h b

/-- CFG, CMD_LO and the host's side of the bus are no part of a buffer. -/
theorem allDefined_host {lo : Byte} {c : Half} {rest : List HostAction} {reply : List Byte} (h : s.AllDefined) :
    State.AllDefined { s with cmdLo := lo, cfg := c, pending := rest, reply := reply, accesses := n } :=
  allDefined_of_same_buffers h (fun b => by cases b <;> rfl) rfl

/-- A byte write takes no byte's value away. -/
theorem read_write_isSome {a' : Nat} (h : (m.read a').isSome) : ((m.write a v).read a').isSome := by
  rw [Memory.read_write]
  split
  · rfl
  · exact h

theorem allDefined_write (h : s.AllDefined) : State.AllDefined { s with mem := s.mem.write a v } := fun b => by
  have hl : State.len { s with mem := s.mem.write a v } b = s.len b := by cases b <;> rfl
  obtain ⟨hcap, hread⟩ := value_isSome_iff.mp (h b)
  rw [value_isSome_iff, hl]
  exact ⟨hcap, fun k hk => read_write_isSome (hread k hk)⟩

/-- A length register may take any value up to which the bytes of its array have values. -/
theorem allDefined_setLen (h : s.AllDefined) (hcap : v.toNat ≤ b.cap)
    (hread : ∀ k, k < v.toNat → (s.mem.read (b.base + k)).isSome) : (s.setLen b v).AllDefined := fun b' => by
  by_cases hb : b' = b
  · subst hb
    rw [value_isSome_iff]
    simpa using ⟨hcap, hread⟩
  · have hv : (s.setLen b v).value b' = s.value b' :=
      State.value_congr (by rw [State.setLen_len, if_neg hb]) fun k _ => by rw [State.setLen_mem]
    rw [hv]
    exact h b'

/-! ### Commands -/

theorem allDefined_of_kept {writes : List Buf} (h : s.AllDefined) (hk : Kept writes s t)
    (hw : ∀ b ∈ writes, (t.value b).isSome) : t.AllDefined := fun b => by
  by_cases hb : b ∈ writes
  · exact hw b hb
  · rw [hk.value hb]; exact h b

theorem complete_value_out (hx : x.bounded) : (complete x s).value .out = some x.out :=
  (setRecord_recordIs hx.out).value_out hx.out

theorem raise_value_out {e : ErrorStatus} : (raise e s).value .out = some [] :=
  raise_endsWith.1.value_out (by simp)

theorem raise_allDefined {e : ErrorStatus} (h : s.AllDefined) : (raise e s).AllDefined :=
  allDefined_of_kept h raise_endsWith.2 (by simp [raise_value_out])

theorem complete_allDefined (h : s.AllDefined) (hx : x.bounded) : (complete x s).AllDefined := by
  rcases hx.replaces with hr | ⟨b, bytes, hr, hb, hl, -⟩
  · exact allDefined_of_kept h (complete_record hr hx.out).2 (by simp [complete_value_out hx])
  · obtain ⟨-, hk, hv, -⟩ := complete_replace (s := s) hr hb hl hx.out
    exact allDefined_of_kept h hk (by simp [hv, complete_value_out hx])

theorem resetBlock_value : s.resetBlock.value b = some [] := by cases b <;> rfl

/-- A refusal names an operand buffer without a value. -/
theorem verdict_error (h : verdict i s = .error b) : b ∈ i.reads ∧ s.value b = none := by
  unfold verdict at h
  split at h
  · cases h
  split at h
  · cases h
  split at h
  next hf =>
    cases h
    exact ⟨List.mem_of_find?_eq_some hf, by simpa using List.find?_some hf⟩
  · cases h

/-- A command on defined buffers ends, and leaves them defined. -/
theorem exec_allDefined (i : Instr) (h : s.AllDefined) :
    ∃ t, exec i s = .next t ∧ t.AllDefined ∧ t.pending = s.pending := by
  by_cases hr : i = .reset
  · subst hr
    exact ⟨_, exec_reset, fun b => by rw [resetBlock_value]; rfl, rfl⟩
  rw [exec_eq_conclude hr]
  cases hv : verdict i s with
  | error b => simpa [(verdict_error hv).2] using h b
  | ok r =>
    refine ⟨_, rfl, ?_, finish_pending⟩
    cases r with
    | error e => exact raise_allDefined h
    | ok x => exact complete_allDefined h (verdict_bounded hv)

/-- A command word, legal or not, ends on defined buffers and leaves them defined. -/
theorem writeCommandHigh_allDefined (v : Byte) (h : s.AllDefined) :
    ∃ t, writeCommandHigh v s = .next t ∧ t.AllDefined ∧ t.pending = s.pending := by
  have hword : ∃ t, executeWord (commandWord s.cmdLo v) s = .next t ∧ t.AllDefined ∧ t.pending = s.pending := by
    rcases executeWord_cases (commandWord s.cmdLo v) s with ⟨i, -, hi⟩ | ⟨-, hi⟩ <;> rw [hi]
    · exact exec_allDefined i h
    · exact ⟨_, rfl, raise_allDefined h, rfl⟩
  obtain ⟨t, ht, hd, hp⟩ := hword
  exact ⟨{ t with cmdLo := 0#8 }, by rw [writeCommandHigh, ht]; rfl, allDefined_host hd, hp⟩

/-! ### Runs of host actions -/

/-- A run that goes on after some of its steps. -/
theorem run_add {M : Host.Core} {k l : Nat} {s t : M.State} (h : M.run k s = .next t) :
    M.run (k + l) s = M.run l t := by
  induction k generalizing s with
  | zero => cases h; rw [Nat.zero_add]
  | succ k ih =>
    rw [Nat.succ_add]
    cases hs : M.step s with
    | next u => simp only [Host.Core.run, hs] at h ⊢; exact ih h
    | fault => simp [Host.Core.run, hs] at h
    | refused => simp [Host.Core.run, hs] at h

/-- From a state with `P`, the host actions `xs` all take place and lead to one with `Q`; the actions issued after
them still wait. -/
def Performs (P : State → Prop) (xs : List HostAction) (Q : State → Prop) : Prop :=
  ∀ s rest, P s → s.pending = xs ++ rest →
    ∃ t : State, Host.Core.run core xs.length s = .next t ∧ Q t ∧ t.pending = rest

variable {P Q R : State → Prop} {xs ys : List HostAction} {y : HostAction}

theorem Performs.nil : Performs P [] P := fun s _ hP hp => ⟨s, rfl, hP, hp⟩

theorem Performs.append (h : Performs P xs Q) (h' : Performs Q ys R) : Performs P (xs ++ ys) R := by
  intro s rest hP hp
  obtain ⟨t, ht, hQ, hpt⟩ := h s (ys ++ rest) hP (by rw [hp, List.append_assoc])
  obtain ⟨u, hu, hR, hpu⟩ := h' t rest hQ hpt
  exact ⟨u, by rw [List.length_append, run_add ht, hu], hR, hpu⟩

theorem Performs.cons (h : Performs P [y] Q) (h' : Performs Q ys R) : Performs P (y :: ys) R := h.append h'

theorem Performs.one (h : ∀ s rest, P s → ∃ t, perform y (s.taken rest) = .next t ∧ Q t ∧ t.pending = rest) :
    Performs P [y] Q := by
  intro s rest hP hp
  obtain ⟨t, ht, hQ, hpt⟩ := h s rest hP
  exact ⟨t, (run_succ ((step_next hp).trans ht) : Host.Core.run core 1 s = _).trans rfl, hQ, hpt⟩

theorem Performs.all (h : ∀ y ∈ xs, Performs P [y] P) : Performs P xs P := by
  induction xs with
  | nil => exact .nil
  | cons y ys ih =>
    rw [List.forall_mem_cons] at h
    exact h.1.cons (ih h.2)

/-! ### The lines of a script -/

theorem taken_allDefined {rest : List HostAction} (h : s.AllDefined) : (s.taken rest).AllDefined :=
  allDefined_host h

theorem performs_read8 (x : BusAddr) : Performs State.AllDefined [.read8 x] State.AllDefined :=
  .one fun _ _ h => ⟨_, rfl, allDefined_host h, rfl⟩

theorem performs_read16 (x : BusAddr) : Performs State.AllDefined [.read16 x] State.AllDefined :=
  .one fun _ _ h => ⟨_, rfl, allDefined_host h, rfl⟩

theorem performs_cfg (v : Half) : Performs State.AllDefined [.write16 0x004#10 v] State.AllDefined :=
  .one fun _ _ h => ⟨_, rfl, allDefined_host h, rfl⟩

theorem performs_command (opc arg : Byte) :
    Performs State.AllDefined [commandAction opc arg] State.AllDefined :=
  .one fun s rest h => by
    rw [commandAction, perform_commandWord]
    exact writeCommandHigh_allDefined (s := { s.taken rest with cmdLo := _ }) _ (allDefined_host h)

theorem busWrite_lengthAddress (hb : b ≠ .out) : busWrite (lengthAddress b).toNat v s = .next (s.setLen b v) := by
  cases b <;> first | rfl | exact absurd rfl hb

/-- Every buffer is defined, and so are the first `n` bytes of the buffer's array. -/
def LoadedTo (b : Buf) (n : Nat) (s : State) : Prop :=
  s.AllDefined ∧ ∀ k, k < n → (s.mem.read (b.base + k)).isSome

/-- One more byte of a load line. -/
theorem performs_loadByte (hb : b ≠ .out) (hn : n < b.cap) :
    Performs (LoadedTo b n) [.write8 (BitVec.ofNat 10 (b.base + n)) v] (LoadedTo b (n + 1)) := by
  refine .one fun s rest ⟨hd, hread⟩ => ?_
  have haddr : (BitVec.ofNat 10 (b.base + n)).toNat = b.base + n := by
    have hbase : b.base ≤ 0x200 := by cases b <;> decide
    have hcap : b.cap ≤ 127 := Buf.cap_le
    rw [BitVec.toNat_ofNat]
    omega
  refine ⟨_, by rw [perform, haddr, busWrite_array hb hn],
    ⟨allDefined_write (taken_allDefined hd), fun k hk => ?_⟩, rfl⟩
  rcases Nat.lt_succ_iff_lt_or_eq.mp hk with hk | rfl
  · exact read_write_isSome (hread k hk)
  · simp only [Memory.read_write_same, Option.isSome_some]

theorem performs_loadBytes (hb : b ≠ .out) (vs : List Byte) (hn : n + vs.length ≤ b.cap) :
    Performs (LoadedTo b n) (writesFrom (b.base + n) vs) (LoadedTo b (n + vs.length)) := by
  induction vs generalizing n with
  | nil => exact .nil
  | cons v vs ih =>
    rw [List.length_cons] at hn ⊢
    have hrest := ih (n := n + 1) (by omega)
    rw [show n + 1 + vs.length = n + (vs.length + 1) by omega] at hrest
    exact (performs_loadByte hb (by omega)).cons hrest

/-- The write of a length register over bytes that are defined. -/
theorem performs_length (hb : b ≠ .out) (hv : v.toNat ≤ b.cap) :
    Performs (LoadedTo b v.toNat) [.write8 (lengthAddress b) v] State.AllDefined :=
  .one fun s rest ⟨hd, hread⟩ =>
    ⟨_, by rw [perform, busWrite_lengthAddress hb], allDefined_setLen (taken_allDefined hd) hv hread, by simp⟩

theorem performs_load (hb : b ≠ .out) (bytes : List Byte) (hl : bytes.length ≤ b.cap) :
    Performs State.AllDefined (ScriptLine.actions (.load b bytes)) State.AllDefined := by
  have hcap : b.cap ≤ 127 := Buf.cap_le
  have hv : (BitVec.ofNat 8 bytes.length).toNat = bytes.length := by rw [BitVec.toNat_ofNat]; omega
  have hbytes := performs_loadBytes (n := 0) hb bytes (by omega)
  have hlength := performs_length (v := BitVec.ofNat 8 bytes.length) hb (by omega)
  rw [Nat.zero_add] at hbytes
  rw [hv] at hlength
  intro s rest hd
  exact (hbytes.append hlength) s rest ⟨hd, fun k hk => absurd hk (Nat.not_lt_zero k)⟩

/-- A buffer's array is defined below its length register. -/
theorem loadedTo_of_le (h : s.AllDefined) (hn : n ≤ (s.len b).toNat) : LoadedTo b n s :=
  ⟨h, fun k hk => (value_isSome_iff.mp (h b)).2 k (by omega)⟩

/-- FCS_STRIP lowers FRAME_LEN, so no byte comes under it that was not before. -/
theorem performs_fcsStrip {c : Byte} (hc : 2 ≤ c.toNat) :
    Performs (fun u => u.AllDefined ∧ u.frameLen = c) (ScriptLine.actions (.fcsStrip c)) State.AllDefined := by
  rintro s rest ⟨hd, hf⟩
  have hsub : (c - 2#8).toNat = c.toNat - 2 := by bv_omega
  have hlen : (s.len .frame).toNat = c.toNat := by rw [State.len_frame, hf]
  have hcap := (value_isSome_iff.mp (hd .frame)).1
  exact performs_length (b := .frame) (by simp) (by omega) s rest (loadedTo_of_le hd (by omega))

/-- Every legal line takes place whole on defined buffers and leaves them defined. -/
theorem performs_line (line : ScriptLine) (hl : line.legal s = true) :
    Performs (fun u => u.AllDefined ∧ u.frameLen = s.frameLen) line.actions State.AllDefined := by
  have of_defined {xs : List HostAction} (hx : Performs State.AllDefined xs State.AllDefined) :
      Performs (fun u => u.AllDefined ∧ u.frameLen = s.frameLen) xs State.AllDefined :=
    fun u rest hu => hx u rest hu.1
  cases line with
  | load b bytes =>
    simp only [ScriptLine.legal, Bool.and_eq_true, decide_eq_true_eq] at hl
    exact of_defined (performs_load hl.1 bytes hl.2)
  | cfg v => exact of_defined (performs_cfg v)
  | command opc arg => exact of_defined (performs_command opc arg)
  | rdStatus => exact of_defined (performs_read16 _)
  | rdResult => exact of_defined (performs_read16 _)
  | rdOut n =>
    refine of_defined (.all fun y hy => ?_)
    simp only [ScriptLine.actions, List.mem_cons, List.mem_map] at hy
    rcases hy with rfl | ⟨k, -, rfl⟩ <;> exact performs_read8 _
  | rdSlot k => exact of_defined (performs_read16 _)
  | fcsStrip c =>
    simp only [ScriptLine.legal, Bool.and_eq_true, decide_eq_true_eq] at hl
    rw [← hl.2]
    exact performs_fcsStrip hl.1
  | sealFrame n =>
    refine of_defined (.all fun y hy => ?_)
    obtain ⟨i, -, rfl⟩ := List.mem_map.mp hy
    exact performs_command _ _

/-- Settles O60: each kind of line keeps every buffer defined, and a command on defined buffers is not refused. -/
theorem scriptsNeverRefused : Obligations.ScriptsNeverRefused := by
  intro s line hp h hl
  refine performs_line line hl (s.issue line.actions) [] ⟨allDefined_host h, rfl⟩ ?_
  simp [State.issue, hp]

end Sys2Proof.Machine
end

section
/-! PROOF. The command port: a command word written whole runs the command it decodes to, and written as two bytes
runs it once, at the second byte. -/

namespace Sys2Proof.Machine

variable {s : State} {b : Buf} {i : Instr} {w : Half} {v : Byte}

/-! ### The count of host actions -/

/-- One host action more has taken place (assumption log 5). -/
def State.counted (s : State) : State := { s with accesses := s.accesses + 1 }

@[simp] theorem State.counted_len : s.counted.len b = s.len b := by cases b <;> rfl

theorem State.counted_value : s.counted.value b = s.value b := State.value_congr State.counted_len fun _ _ => rfl

theorem counted_seesSame : SeesSame i s s.counted :=
  ⟨rfl, fun _ _ => State.counted_len, fun _ _ => State.counted_value, fun _ _ => rfl⟩

theorem setBuffer_counted {bytes : List Byte} : s.counted.setBuffer b bytes = (s.setBuffer b bytes).counted := by
  cases b <;> rfl

/-- The end of a command neither reads nor writes the count. -/
theorem finish_counted {r : Ending} : finish r s.counted = (finish r s).counted := by
  cases r with
  | error e => rfl
  | ok x =>
    have hr : x.replaceBuffer s.counted = (x.replaceBuffer s).counted := by
      unfold Effect.replaceBuffer
      split
      · exact setBuffer_counted
      · rfl
    simp only [finish_ok, complete, hr]
    rfl

theorem executeWord_counted :
    RunAlike (fun t t' => t' = t.counted) (executeWord w s) (executeWord w s.counted) := by
  unfold executeWord
  cases decode w with
  | error => exact .next rfl
  | ok i => exact exec_alike counted_seesSame (fun _ => rfl) fun _ _ => finish_counted

/-- The command that a write of CMD's high byte completes runs the same whatever the count. -/
theorem writeCommandHigh_counted :
    RunAlike (fun t t' => t' = t.counted) (writeCommandHigh v s) (writeCommandHigh v s.counted) :=
  executeWord_counted.andThen fun _ _ hu => .next (hu ▸ rfl)

/-! ### The command word -/

/-- Settles O9: both ways write the same CMD_LO before they execute, and the command does not see the count. -/
theorem byteWritesFormTheWord : Obligations.ByteWritesFormTheWord := by
  intro s lo hi rest hp
  refine ⟨_, step_next hp, rfl, ?_⟩
  have hpair : step { s with pending := .write16 0x000#10 (hi ++ lo) :: rest } =
      writeCommandHigh hi { s.taken rest with cmdLo := lo } := by
    rw [step_next rfl, perform_commandWord, lowByte, highByte, extractLow_append, extractHigh_append]
    rfl
  rw [hpair]
  rcases writeCommandHigh_counted (v := hi) (s := { s.taken rest with cmdLo := lo })
    with ⟨t, t', ht, ht', rfl⟩ | ⟨x, hx, hx'⟩
  · rw [ht]; exact ht'
  · rw [hx]; exact hx'

/-- Settles O8: the two bytes of the word are put together again at the command port. -/
theorem stepRunsDecodedCommand : Obligations.StepRunsDecodedCommand := by
  intro s w i rest hp hd
  have hword : commandWord (lowByte w) (highByte w) = w := commandWord_self w
  have hport : ∀ u : State, writeCommandHigh (highByte w) { u with cmdLo := lowByte w } =
      Result.andThen (exec i { u with cmdLo := lowByte w }) fun t => .next { t with cmdLo := 0#8 } := fun u => by
    rw [writeCommandHigh, hword, executeWord, hd]
  rw [step_next hp, perform_commandWord, hport]
  rfl

end Sys2Proof.Machine
end

section
/-! PROOF. Rules of every command: the order of the operand checks, the two flags, and what the result record
depends on. -/

namespace Sys2Proof.Machine

open Sys2Proof.Claims

variable {s t : State} {b : Buf} {i : Instr} {x : Effect} {r : Ending}

/-! ### The operand checks -/

theorem ne_reset_of_reads (hb : b ∈ i.reads) : i ≠ .reset := by
  rintro rfl
  simp [Instr.reads] at hb

/-- R205, priority 2, is about the operand buffers: OUT is a result buffer. -/
theorem hasCapacityCheck_iff : b.hasCapacityCheck = true ↔ b ≠ .out := by
  cases b <;> simp [Buf.hasCapacityCheck]

theorem anyOverCapacity_iff {bs : List Buf} :
    s.anyOverCapacity bs = true ↔ ∃ b ∈ bs, b ≠ .out ∧ b.cap < (s.len b).toNat := by
  simp only [State.anyOverCapacity, State.overCapacity, List.any_eq_true, Bool.and_eq_true, hasCapacityCheck_iff,
    decide_eq_true_eq]

/-- Settles O12: the other answers of a command are excluded, a completed one because it has found each operand
defined. -/
theorem unwrittenOperandIsRefused : Obligations.UnwrittenOperandIsRefused := by
  rintro i s b hw hb hcap ⟨k, hk, hnone⟩
  rcases exec_cases i s with
    ⟨hw', -⟩ | ⟨hr, -⟩ | ⟨-, -, hover, -⟩ | ⟨-, -, -, b', hb', -, href⟩ | ⟨-, -, -, hdef, -⟩
  · simp [hw] at hw'
  · exact absurd hr (ne_reset_of_reads hb)
  · obtain ⟨b', hb', -, hlt⟩ := anyOverCapacity_iff.mp hover
    exact absurd (hcap b' hb') (Nat.not_le.mpr hlt)
  · exact ⟨b', hb', href⟩
  · have hsome : (s.value b).isSome := by rw [hdef b hb]; rfl
    simpa [hnone] using (value_isSome_iff.mp hsome).2 k hk

/-- Settles O13: the capacity check is the first that looks at the state. -/
theorem capacityComesFirst : Obligations.CapacityComesFirst := by
  intro i s b hw hb hout hlt
  have hover : s.anyOverCapacity i.reads = true := anyOverCapacity_iff.mpr ⟨b, hb, hout, hlt⟩
  have hv : verdict i s = .ok (.error .frameTooLong) := by simp [verdict, hw, hover]
  exact ⟨_, by rw [exec_eq_conclude (ne_reset_of_reads hb), hv]; rfl, raise_endsWith⟩

/-- Settles O17: the value of a buffer is its array up to the length register, byte by byte. -/
theorem bufferValue : Obligations.BufferValue := by
  intro s b v
  rw [State.value_eq_some]
  refine and_congr_right fun _ => and_congr_right fun hl => forall₂_congr fun k hk => ?_
  rw [at', List.getElem?_eq_getElem (by omega), List.getD_eq_getElem _ _ (by omega)]

/-! ### The flags -/

/-- The bodies of all commands but three leave both flags 0. -/
theorem commandBody_flags_false (h : commandBody i s = .ok x) (hc : i ≠ .fcsCheck) (hs : i ≠ .secDecrypt)
    (hd : ∀ m, i ≠ .ccmDec m) : x.crcOk = false ∧ x.authOk = false := by
  cases i <;> simp only [commandBody] at h
  case nop | reset | movof | movoa | fcsCalc => cases h; exact ⟨rfl, rfl⟩
  case macHdrlen | macPaylen | macChop | macNonce | nwkHdrlen | nwkPaylen | nwkChop | apsHdrlen | apsPaylen
    | apsChop =>
    obtain ⟨f, -, h⟩ := bind_ok h
    obtain ⟨n, -, rfl⟩ := map_ok h
    exact ⟨rfl, rfl⟩
  case narrow => unfold narrow at h; split at h <;> cases h; exact ⟨rfl, rfl⟩
  case fcsAppend => unfold fcsAppendBody at h; split at h <;> cases h; exact ⟨rfl, rfl⟩
  case splice =>
    unfold splice at h
    split at h
    · cases h
    split at h <;> cases h
    exact ⟨rfl, rfl⟩
  case aesEnc =>
    unfold aesEncBody at h
    split at h
    · cases h
    split at h <;> cases h
    exact ⟨rfl, rfl⟩
  case ccmEnc =>
    unfold ccmEncBody at h
    split at h
    · cases h
    split at h
    · cases h
    split at h <;> cases h
    exact ⟨rfl, rfl⟩
  case secEncrypt =>
    obtain ⟨f, -, h⟩ := bind_ok h
    obtain ⟨_, -, h⟩ := bind_ok h
    split at h
    · cases h
    split at h
    · cases h
    obtain ⟨n, -, h⟩ := bind_ok h
    cases h
    exact ⟨rfl, rfl⟩
  case fcsCheck => exact absurd rfl hc
  case secDecrypt => exact absurd rfl hs
  case ccmDec m => exact absurd rfl (hd m)

theorem fcsCheckBody_flags {frame : List Byte} (h : fcsCheckBody frame = .ok x) : x.authOk = false := by
  unfold fcsCheckBody at h
  split at h <;> cases h
  rfl

/-- The two decryptions set AUTH_OK, and no other flag, when they end `Ok`. -/
theorem decryptBody_flags (h : commandBody i s = .ok x) (hi : i = .secDecrypt ∨ ∃ m, i = .ccmDec m) :
    x.crcOk = false ∧ x.authOk = true := by
  rcases hi with rfl | ⟨m, rfl⟩ <;> simp only [commandBody] at h
  · obtain ⟨f, -, h⟩ := bind_ok h
    obtain ⟨_, -, h⟩ := bind_ok h
    obtain ⟨n, -, h⟩ := bind_ok h
    obtain ⟨p, -, rfl⟩ := map_ok h
    exact ⟨rfl, rfl⟩
  · unfold ccmDecBody at h
    split at h
    · cases h
    split at h
    · cases h
    split at h
    · cases h
    obtain ⟨p, -, rfl⟩ := map_ok h
    exact ⟨rfl, rfl⟩

/-- The flags of a command that ends `Ok` (`10_state.md` R33, R34). -/
theorem commandBody_flags (h : commandBody i s = .ok x) :
    (x.crcOk = true → i = .fcsCheck) ∧ (x.authOk = true ↔ i = .secDecrypt ∨ ∃ m, i = .ccmDec m) := by
  by_cases hdec : i = .secDecrypt ∨ ∃ m, i = .ccmDec m
  · obtain ⟨hcrc, hauth⟩ := decryptBody_flags h hdec
    simp [hcrc, hauth, hdec]
  by_cases hcheck : i = .fcsCheck
  · subst hcheck
    simp [fcsCheckBody_flags h]
  · obtain ⟨hs, hd⟩ := not_or.mp hdec
    obtain ⟨hcrc, hauth⟩ := commandBody_flags_false h hcheck hs (not_exists.mp hd)
    simp [hcrc, hauth, hdec]

/-- Settles O15: an error status and RESET leave both flags 0, and an `Ok` end leaves those of the body. -/
theorem flagsOfEachCommand : Obligations.FlagsOfEachCommand := by
  intro i s t he
  rcases exec_eq_next he with ⟨rfl, rfl⟩ | ⟨-, r, hv, rfl⟩
  · simp [State.crcOk, State.authOk, State.reset]
  · cases r with
    | error e => simpa using fun h : e.code = 0x0#4 => absurd h ErrorStatus.code_ne_ok
    | ok x =>
      obtain ⟨hcrc, hauth⟩ := commandBody_flags (verdict_ok_ok hv).2
      simpa [okCode] using And.intro hcrc hauth

/-! ### What the result record depends on -/

theorem out_mem_reads (h : Buf.out ∈ i.reads) : i = .movof ∨ i = .movoa := by
  cases i <;> simp_all [Instr.reads]

/-- The record that an ending leaves is the same on every state. -/
theorem finish_sameRecord (h : verdict i s = .ok r) : SameRecord (finish r s) (finish r t) := by
  cases r with
  | error e => exact ⟨rfl, rfl, rfl, raise_value_out.trans raise_value_out.symm⟩
  | ok x =>
    have hx := verdict_bounded h
    exact ⟨rfl, rfl, rfl, (complete_value_out hx).trans (complete_value_out hx).symm⟩

/-- Settles O16: the verdict is a function of the operands, and the record a function of the verdict. -/
theorem recordIsFunctionOfOperands : Obligations.RecordIsFunctionOfOperands := by
  rintro i s s' ⟨hcfg, hops⟩ hnarrow hmovof hmovoa
  have hout : Buf.out ∉ i.reads := fun h => (out_mem_reads h).elim hmovof hmovoa
  have hne {b : Buf} (hb : b ∈ i.reads) : b ≠ .out := ne_of_mem_of_not_mem hb hout
  have hsees : SeesSame i s s' :=
    ⟨hcfg, fun b hb => (hops b (hne hb)).1, fun b hb => (hops b (hne hb)).2, fun k hk => absurd hk (hnarrow k)⟩
  refine Or.symm (exec_alike hsees (fun _ => ⟨rfl, rfl, rfl, ?_⟩) fun _ hv => finish_sameRecord hv)
  rw [resetBlock_value, resetBlock_value]

/-! ### Reset -/

/-- Settles O1: field by field, from the literal state of reset. -/
theorem resetValues : Obligations.ResetValues := by
  refine ⟨fun b => ?_, rfl, rfl, by decide, by decide, by decide, by decide, rfl, by decide, rfl, fun _ => rfl,
    fun b => ?_⟩
  · cases b <;> rfl
  · exact resetBlock_value (s := State.reset)

end Sys2Proof.Machine
end

section
/-! PROOF. The host bus: what a read of each address returns, what a write to each address does, and the byte order of a
2-byte access (`20_memory.md` R50 to R62). -/

namespace Sys2Proof.Machine

open Sys2Proof.Claims

variable {s : State} {b : Buf} {a i k : Nat} {v : Byte} {w : Half}

/-! ### The address map -/

/-- Behind the registers, the map holds slots, arrays and reserved addresses. -/
theorem busTarget_eq_arrayTarget (h : 0x00D < a) : busTarget a = arrayTarget a := by
  unfold busTarget
  split
  case h_15 => rfl
  all_goals omega

/-- A reserved address lies behind the registers, and neither in the slots nor in a buffer's array (R52). -/
theorem reservedAddress_outside (h : reservedAddress a = true) :
    0x00D < a ∧ ¬ (0x040 ≤ a ∧ a < 0x040 + 2 * Config.nslot) ∧ ∀ b : Buf, b.holds a = false := by
  simp only [reservedAddress, Bool.or_eq_true, Bool.and_eq_true, decide_eq_true_eq] at h
  refine ⟨by omega, by simp only [Config.nslot]; omega, fun b => ?_⟩
  rw [← Bool.not_eq_true, Buf.holds_iff]
  cases b <;> simp only [Buf.base, Buf.cap, Config.maxFrame, Config.keyCap, Config.nonceLen] <;> omega

theorem busTarget_reserved (h : reservedAddress a = true) : busTarget a = .reserved := by
  obtain ⟨hreg, hslot, harray⟩ := reservedAddress_outside h
  have hnone : Buf.all.find? (fun b => b.holds a) = none :=
    List.find?_eq_none.mpr fun b _ => by simp [harray b]
  rw [busTarget_eq_arrayTarget hreg, arrayTarget, if_neg (by simpa using hslot), hnone]

/-! ### Byte reads -/

theorem busRead_array (h : i < b.cap) : busRead s (b.base + i) = arrayByte s b i := by
  rw [busRead, busTarget_array h]

theorem busRead_slot (h : k < 17) :
    busRead s (0x040 + 2 * k) = (s.slot k).off ∧ busRead s (0x041 + 2 * k) = (s.slot k).len := by
  obtain ⟨hoff, hlen⟩ := busTarget_slot h
  exact ⟨by rw [busRead, hoff], by rw [busRead, hlen]⟩

theorem busRead_reserved (h : reservedAddress a = true) : busRead s a = 0#8 := by
  rw [busRead, busTarget_reserved h]

/-- An operand buffer other than KEY shows its defined bytes. -/
theorem arrayByte_operand (hkey : b ≠ .key) (hout : b ≠ .out) (h : s.mem.read (b.base + i) = some v) :
    arrayByte s b i = v := by
  cases b with
  | key => exact absurd rfl hkey
  | out => exact absurd rfl hout
  | frame | aux | aad | nonce => simp only [arrayByte, h, Option.getD_some]

/-- OUT shows its defined bytes below OUT_LEN. -/
theorem arrayByte_out (hi : i < s.outLen.toNat) (h : s.mem.read (Buf.out.base + i) = some v) :
    arrayByte s .out i = v := by
  simp only [arrayByte, if_pos hi, h, Option.getD_some]

/-- Settles O19: address by address along the map; a register's two bytes are put together again. -/
theorem addressMapReads : Obligations.AddressMapReads := by
  intro s
  refine ⟨rfl, rfl, append_extract s.status, append_extract s.cfg, append_extract s.result, rfl, rfl, rfl, rfl, rfl,
    rfl, fun k hk => busRead_slot hk, fun i hi => busRead_array (b := .key) hi, ?_, ?_,
    fun a ha => busRead_reserved ha⟩
  · intro b i v hkey hout hi hv
    rw [busRead_array hi, arrayByte_operand hkey hout hv]
  · intro i v hi hlen hv
    exact (busRead_array (b := .out) hi).trans (arrayByte_out hlen hv)

/-- Settles O18: the answer is all that a read writes; its second byte is at the next address or reads 0. -/
theorem readsHaveNoSideEffect : Obligations.ReadsHaveNoSideEffect := by
  intro s rest a
  refine ⟨fun hp => step_next hp, fun hp => ?_⟩
  have hsecond : busRead (s.taken rest) (secondAddress (s.taken rest) a) =
      if a = 0x3FF#10 then 0x00#8 else busRead (s.taken rest) (a.toNat + 1) := by
    split
    next hlast => rw [hlast, busRead_secondAddress_last]
    next hlast => rw [secondAddress_next hlast]
  rw [step_next hp, perform, hsecond]
  rfl

/-! ### Byte writes -/

/-- Bits 15:1 of CFG stay 0 (`10_state.md` R35). -/
theorem cfgWord_eq_ite (p : Bool) : cfgWord p = if p then 0x0001#16 else 0x0000#16 := by
  cases p <;> rfl

/-- The host only reads the slots: a slot's offset lies at an even address, its length at the odd one behind it (R52). -/
theorem busWrite_slots (h : 0x040 ≤ a ∧ a ≤ 0x061) : busWrite a v s = .next s := by
  obtain ⟨hoff, hlen⟩ := busTarget_slot (i := (a - 0x040) / 2) (by omega)
  rcases Nat.mod_two_eq_zero_or_one a with hpar | hpar
  · rw [show a = 0x040 + 2 * ((a - 0x040) / 2) by omega, busWrite, hoff]
  · rw [show a = 0x041 + 2 * ((a - 0x040) / 2) by omega, busWrite, hlen]

theorem busWrite_out (h : 0x200 ≤ a ∧ a ≤ 0x27E) : busWrite a v s = .next s := by
  obtain ⟨i, rfl⟩ := Nat.exists_eq_add_of_le h.1
  have hi : i < Buf.out.cap := by simp only [Buf.cap, Config.maxFrame]; omega
  have ht : busTarget (0x200 + i) = .array .out i := busTarget_array (b := .out) hi
  rw [busWrite, ht]

theorem busWrite_reserved (h : reservedAddress a = true) : busWrite a v s = .next s := by
  rw [busWrite, busTarget_reserved h]

/-- The addresses at which a write is ignored: the registers the host only reads, the slots, OUT_mem and the reserved
addresses. -/
theorem busWrite_ignored (h : a = 0x002 ∨ a = 0x003 ∨ a = 0x006 ∨ a = 0x007 ∨ a = 0x00D ∨ (0x040 ≤ a ∧ a ≤ 0x061) ∨
    (0x200 ≤ a ∧ a ≤ 0x27E) ∨ reservedAddress a = true) : busWrite a v s = .next s := by
  rcases h with rfl | rfl | rfl | rfl | rfl | hslots | hout | hres
  · rfl
  · rfl
  · rfl
  · rfl
  · rfl
  · exact busWrite_slots hslots
  · exact busWrite_out hout
  · exact busWrite_reserved hres

/-- A 2-byte write below 0x3FF is the write of the low byte and then of the high byte at the next address (R53, R60). -/
theorem perform_write16_next {x : BusAddr} (h : x ≠ 0x3FF#10) :
    perform (.write16 x w) s =
      Result.andThen (busWrite x.toNat (lowByte w) s) (busWrite (x.toNat + 1) (highByte w)) := by
  rw [perform, secondAddress_next h]

/-- At 0x3FF the low byte goes nowhere, and the high byte goes nowhere or to CMD (assumption log 7). -/
theorem perform_write16_last :
    perform (.write16 0x3FF#10 w) s = .next s ∨
      perform (.write16 0x3FF#10 w) s = .next { s with cmdLo := highByte w } := by
  have hfirst : busWrite (0x3FF#10).toNat (lowByte w) s = .next s := busWrite_reserved (by decide)
  rw [perform, hfirst, Result.andThen_next]
  rcases secondAddress_last (s := s) with hcmd | hnone
  · rw [hcmd]; exact .inr rfl
  · rw [hnone]; exact .inl rfl

/-- Settles O20: address by address along the map, and the two widths of a step's write. -/
theorem addressMapWrites : Obligations.AddressMapWrites := by
  intro s v
  refine ⟨rfl, rfl, ?_, rfl, rfl, rfl, rfl, rfl, rfl, ?_, fun a ha => busWrite_ignored ha,
    fun rest a hp => step_next hp, ?_⟩
  · rw [← cfgWord_eq_ite]
    rfl
  · intro b i hout hi
    exact ⟨_, busWrite_array hout hi, Memory.read_write_same, fun a ha => Memory.read_write_other ha⟩
  · intro rest a w hp
    rw [step_next hp]
    split
    next hlast => subst hlast; exact perform_write16_last
    next hlast => exact perform_write16_next hlast

end Sys2Proof.Machine
end

section
/-! PROOF. The decoder and the encoder agree, and a command word that the opcode map does not allow changes nothing but
the result record (`30_encoding.md` R70 to R74). -/

namespace Sys2Proof

open Sys2Proof.Machine Sys2Proof.Claims

variable {i : Instr} {w : Half} {opc arg : Byte} {s : State}

/-! ### Decode and encode -/

/-- The opcode map gives every command back from its own OPC and ARG (R72). -/
theorem decodeFields_opcode_argument (i : Instr) : decodeFields i.opcode i.argument = .ok i := by
  cases i <;> rfl

theorem decode_encode (i : Instr) : decode (encode i) = .ok i := by
  rw [encode, decode_commandWord, decodeFields_opcode_argument]

/-- A word is put together again from the OPC and the ARG of the command it decodes to. -/
theorem encode_of_decode (h : decode w = .ok i) : encode i = w := by
  obtain ⟨hopc, harg⟩ := decodeFields_ok h
  rw [encode, hopc, harg, commandWord_self]

/-! ### Legal words -/

/-- NARROW's row of the legal words: a slot index (R71). -/
theorem legalWord_narrow (k : Byte) : legalWord 0x08#8 k = legalSlot k := by
  simp [legalWord, plainOpcodes, legalSlot, Nat.lt_succ_iff]

/-- SPLICE's row: a byte count (R71). -/
theorem legalWord_splice (n : Byte) : legalWord 0x0B#8 n = legalCount n := by
  simp [legalWord, plainOpcodes, legalCount]

/-- CCM_ENC's and CCM_DEC's rows: a MIC length (R71). -/
theorem legalWord_ccm (m : Byte) (h : opc = 0x50#8 ∨ opc = 0x51#8) : legalWord opc m = legalMic m := by
  rcases h with rfl | rfl <;> simp [legalWord, plainOpcodes, legalMic]

/-- A command's argument is legal when its word is (R74): the commands without an argument have ARG 0, and each of the
others has its own row. -/
theorem wf_eq_legalWord (i : Instr) : i.wf = legalWord i.opcode i.argument := by
  cases i
  case narrow k => exact (legalWord_narrow k).symm
  case splice n => exact (legalWord_splice n).symm
  case ccmEnc m => exact (legalWord_ccm m (.inl rfl)).symm
  case ccmDec m => exact (legalWord_ccm m (.inr rfl)).symm
  all_goals rfl

/-- Settles O6: both directions go through the two bytes of the word, OPC and ARG. -/
theorem decodeEncodeAgree : Obligations.DecodeEncodeAgree := by
  refine ⟨decode_encode, fun w i => encode_of_decode, fun i => ?_⟩
  rw [encode, opcOf_commandWord, argOf_commandWord, wf_eq_legalWord]

/-! ### Illegal words -/

/-- An illegal word is no command, or a command with an illegal argument (assumption log 9); both raise
`IllegalCommand`. -/
theorem executeWord_illegal (h : legalWord opc arg = false) :
    executeWord (commandWord opc arg) s = .next (raise .illegalCommand s) := by
  rcases executeWord_cases (commandWord opc arg) s with ⟨i, hd, hi⟩ | ⟨-, hi⟩
  · rw [decode_commandWord] at hd
    obtain ⟨rfl, rfl⟩ := decodeFields_ok hd
    rw [hi, exec_not_wf (by rw [wf_eq_legalWord, h])]
  · exact hi

/-- Settles O7: an illegal word raises `IllegalCommand`, and raising a status leaves all but the record as it was. -/
theorem illegalWordsChangeNothing : Obligations.IllegalWordsChangeNothing :=
  fun _ _ _ h => ⟨_, executeWord_illegal h, raise_endsWith⟩

/-- Settles O5: each word is the encoding of the command it stands for. -/
theorem decodesTheMap : Obligations.DecodesTheMap :=
  ⟨decode_encode .nop, decode_encode (.narrow 16#8), decode_encode (.splice 9#8), decode_encode .macChop,
    decode_encode .nwkPaylen, decode_encode .apsChop, decode_encode .aesEnc, decode_encode (.ccmEnc 4#8),
    decode_encode (.ccmDec 8#8), decode_encode .secDecrypt, decode_encode .fcsAppend⟩

end Sys2Proof
end

section
/-! PROOF. A load line gives its buffer exactly its bytes: the writes of the line replace the buffer whole
(`30_encoding.md` R78). -/

namespace Sys2Proof.Machine

variable {s t : State} {b b' : Buf} {v : Byte} {n : Nat}

/-! ### The block without the host's queue -/

/-- The states differ at most in the host actions still waiting and in the count of those that took place (assumption
logs 1, 5). -/
def SameBlock (s t : State) : Prop := ∃ rest n, t = { s with pending := rest, accesses := n }

theorem SameBlock.refl : SameBlock s s := ⟨s.pending, s.accesses, rfl⟩

theorem SameBlock.taken {rest : List HostAction} (h : SameBlock s t) : SameBlock s (t.taken rest) := by
  obtain ⟨r, k, rfl⟩ := h
  exact ⟨rest, k + 1, rfl⟩

theorem SameBlock.write (h : SameBlock s t) :
    SameBlock { s with mem := s.mem.write n v } { t with mem := t.mem.write n v } := by
  obtain ⟨r, k, rfl⟩ := h
  exact ⟨r, k, rfl⟩

theorem SameBlock.setLen (h : SameBlock s t) : SameBlock (s.setLen b v) (t.setLen b v) := by
  obtain ⟨r, k, rfl⟩ := h
  exact ⟨r, k, by cases b <;> rfl⟩

theorem SameBlock.mem (h : SameBlock s t) : t.mem = s.mem := by
  obtain ⟨r, k, rfl⟩ := h
  rfl

theorem SameBlock.len (h : SameBlock s t) : t.len b = s.len b := by
  obtain ⟨r, k, rfl⟩ := h
  cases b <;> rfl

theorem SameBlock.value (h : SameBlock s t) : t.value b = s.value b :=
  State.value_congr h.len fun _ _ => by rw [h.mem]

/-! ### The writes of a load line -/

/-- Every array lies within the 10-bit addresses (`20_memory.md` R52). -/
theorem toNat_arrayAddress (h : n < b.cap) : (BitVec.ofNat 10 (b.base + n)).toNat = b.base + n := by
  have hbase : b.base ≤ 0x200 := by cases b <;> decide
  have hcap : b.cap ≤ 127 := Buf.cap_le
  exact Nat.mod_eq_of_lt (by omega)

/-- The write of one array byte of an operand buffer is a memory write. -/
theorem performs_arrayByte (hb : b ≠ .out) (hn : n < b.cap) :
    Performs (SameBlock s) [.write8 (BitVec.ofNat 10 (b.base + n)) v]
      (SameBlock { s with mem := s.mem.write (b.base + n) v }) :=
  .one fun _ _ h => ⟨_, by rw [perform, toNat_arrayAddress hn, busWrite_array hb hn], h.taken.write, rfl⟩

theorem performs_arrayBytes (hb : b ≠ .out) (vs : List Byte) (hn : n + vs.length ≤ b.cap) :
    Performs (SameBlock s) (writesFrom (b.base + n) vs)
      (SameBlock { s with mem := s.mem.writeAll (b.base + n) vs }) := by
  induction vs generalizing n s with
  | nil => exact .nil
  | cons v vs ih =>
    rw [List.length_cons] at hn
    exact (performs_arrayByte hb (by omega)).cons (ih (n := n + 1) (by omega))

theorem performs_lengthByte (hb : b ≠ .out) :
    Performs (SameBlock s) [.write8 (lengthAddress b) v] (SameBlock (s.setLen b v)) :=
  .one fun _ _ h => ⟨_, by rw [perform, busWrite_lengthAddress hb], h.taken.setLen, by simp⟩

/-- The bytes and then the length: together the buffer is replaced whole. -/
theorem performs_loadLine (hb : b ≠ .out) (bytes : List Byte) (hl : bytes.length ≤ b.cap) :
    Performs (SameBlock s) (ScriptLine.actions (.load b bytes)) (SameBlock (s.setBuffer b bytes)) :=
  (performs_arrayBytes (n := 0) hb bytes (by omega)).append (performs_lengthByte hb)

theorem writesFrom_length (a : Nat) (vs : List Byte) : (writesFrom a vs).length = vs.length := by
  induction vs generalizing a with
  | nil => rfl
  | cons v vs ih => rw [writesFrom, List.length_cons, ih, List.length_cons]

theorem loadLine_length (b : Buf) (bytes : List Byte) :
    (ScriptLine.actions (.load b bytes)).length = bytes.length + 1 := by
  rw [ScriptLine.actions, List.length_append, writesFrom_length, List.length_singleton]

/-- Settles O59: the line replaces the buffer whole, which gives it the bytes and keeps everything else. -/
theorem loadLineLoads : Obligations.LoadLineLoads := by
  intro s b bytes hp hl
  simp only [ScriptLine.legal, Bool.and_eq_true, decide_eq_true_eq] at hl
  obtain ⟨hb, hl⟩ := hl
  have hissued : SameBlock s (s.issue (ScriptLine.actions (.load b bytes))) := ⟨_, _, rfl⟩
  obtain ⟨t, ht, hsame, hpt⟩ := performs_loadLine hb bytes hl _ [] hissued (by simp [State.issue, hp])
  rw [loadLine_length] at ht
  have hkept : Kept [b] s (s.setBuffer b bytes) := State.setBuffer_kept hl
  refine ⟨t, ht, hsame.value.trans (State.setBuffer_value hl), fun b' hb' => ?_, fun a ha => ?_, ?_⟩
  · have hmem : b' ∉ [b] := by simpa using hb'
    exact ⟨hsame.len.trans (hkept.len b' hmem), hsame.value.trans (hkept.value hmem)⟩
  · rw [hsame.mem, State.setBuffer_read ha]
  · obtain ⟨rest, k, rfl⟩ := hsame
    exact ⟨hkept.cfg, State.setBuffer_status, State.setBuffer_result, State.setBuffer_slots, hkept.cmdLo, hpt⟩

end Sys2Proof.Machine
end

section
/-! PROOF. How a command ends that takes no argument or finds its operands defined: one lemma for each way, from the
ending its body computes. -/

namespace Sys2Proof.Claims

open Sys2Proof.Machine

variable {i : Instr} {s : State} {b : Buf} {bs : List Buf} {bytes : List Byte} {x : Effect} {e : ErrorStatus}
  {opc arg : Byte}

/-! ### Commands without an argument -/

theorem argument_of_plain (h : i.opcode ∈ plainOpcodes) : i.argument = 0x00#8 := by
  cases i
  case narrow | splice | ccmEnc | ccmDec => simp [Instr.opcode, plainOpcodes] at h
  all_goals rfl

/-- The rows of the commands that take an argument do not cover the others (R71, R72). -/
theorem ne_argument_opcode_of_plain (h : opc ∈ plainOpcodes) :
    opc ≠ 0x08#8 ∧ opc ≠ 0x0B#8 ∧ opc ≠ 0x50#8 ∧ opc ≠ 0x51#8 := by
  revert opc
  decide

theorem legalWord_plain_ne_zero (h : opc ∈ plainOpcodes) (ha : arg ≠ 0x00#8) : legalWord opc arg = false := by
  obtain ⟨hnarrow, hsplice, henc, hdec⟩ := ne_argument_opcode_of_plain h
  simp [legalWord, ha, hnarrow, hsplice, henc, hdec]

/-- A command that takes no argument is its OPC with ARG 0; with any other ARG the word is illegal (R70, R74). -/
theorem argumentIsZero_of_plain (h : i.opcode ∈ plainOpcodes) : ArgumentIsZero i.opcode i s := by
  refine ⟨?_, fun arg ha => ⟨_, executeWord_illegal (legalWord_plain_ne_zero h ha), raise_endsWith⟩⟩
  rw [← argument_of_plain h]
  exact decode_encode i

/-! ### The checks before the body -/

theorem endsInError_illegal (hw : i.wf = false) : EndsInError i s .illegalCommand :=
  ⟨_, exec_not_wf hw, raise_endsWith⟩

theorem capacityChecked (hw : i.wf = true) (hb : ∀ b ∈ bs, b ∈ i.reads ∧ b ≠ .out) : CapacityChecked i s bs := by
  rintro ⟨b, hmem, hcap⟩
  obtain ⟨hread, hout⟩ := hb b hmem
  exact capacityComesFirst i s b hw hread hout hcap

/-- A legal command whose operands are defined ends as its body says. -/
theorem exec_defined (hw : i.wf = true) (hr : i ≠ .reset) (hdef : ∀ b ∈ i.reads, ∃ v, s.value b = some v) :
    exec i s = .next (finish (commandBody i s) s) := by
  rw [exec_eq_withOperands hw hr, withOperands_defined hdef]

/-! ### The ends of a body -/

theorem statusWord_ok : statusWord okCode false false = 0x0010#16 := by decide

theorem endsInError_of_finish (h : exec i s = .next (finish (.error e) s)) : EndsInError i s e :=
  ⟨_, h, raise_endsWith⟩

/-- An `Ok` end that replaces no operand buffer leaves the record of the effect. -/
theorem endsAs_of_finish (h : exec i s = .next (finish (.ok x) s)) (hr : x.replaces = none)
    (hl : x.out.length ≤ 127) :
    EndsAs i s (statusWord okCode x.crcOk x.authOk) (BitVec.ofNat 16 x.result) (slotsOf x.fields) x.out :=
  ⟨_, h, complete_record hr hl⟩

/-- An `Ok` end that only answers bytes. -/
theorem endsWithBytes_of_finish (h : exec i s = .next (finish (.ok { out := bytes }) s))
    (hl : bytes.length ≤ 127) : EndsWithBytes i s bytes := by
  have hends := endsAs_of_finish h rfl hl
  simp only [statusWord_ok, slotsOf_nil] at hends
  exact hends

/-- The command ends `Ok` with the cleared record and a new value of an operand buffer; all other bytes are as before,
those of the buffer's array behind the new value included (assumption log 10). -/
def EndsReplacing (i : Instr) (s : State) (b : Buf) (bytes : List Byte) : Prop :=
  ∃ t, exec i s = .next t ∧ RecordIs t 0x0010#16 0x0000#16 noSlots [] ∧ Kept [b, .out] s t ∧ t.value b = some bytes ∧
    ∀ a, a < b.base ∨ b.base + bytes.length ≤ a → Buf.out.holds a = false → t.mem.read a = s.mem.read a

theorem endsReplacing_of_finish (h : exec i s = .next (finish (.ok { replaces := some (b, bytes) }) s)) (hb : b ≠ .out)
    (hl : bytes.length ≤ b.cap) : EndsReplacing i s b bytes := by
  obtain ⟨hrec, hkept, hval, hmem⟩ :=
    complete_replace (s := s) (x := { replaces := some (b, bytes) }) rfl hb hl (Nat.zero_le _)
  simp only [statusWord_ok, slotsOf_nil] at hrec
  exact ⟨_, h, hrec, hkept, hval, fun a ha => hmem a (by omega)⟩

end Sys2Proof.Claims
end

section
/-! PROOF. The system commands and the data movement between FRAME, AUX and OUT (`40_system_move.md` R90 to R95). -/

namespace Sys2Proof.Machine

open Sys2Proof.Claims

variable {i : Instr} {s : State} {b : Buf} {k n : Byte} {v fr aux : List Byte} {slot : Slot}

/-! ### System commands -/

/-- Settles O22: NOP completes the empty effect, whatever the state. -/
theorem nopClearsRecord : Obligations.NopClearsRecord := fun _ =>
  ⟨argumentIsZero_of_plain (i := .nop) (by decide), endsWithBytes_of_finish rfl (Nat.zero_le _)⟩

/-- Settles O2: RESET and power-on are one operation, the reset of the block. -/
theorem resetCommandAndPowerOn : Obligations.ResetCommandAndPowerOn := fun _ =>
  ⟨argumentIsZero_of_plain (i := .reset) (by decide), rfl, exec_reset⟩

/-! ### NARROW -/

theorem narrow_tooShort (h : fr.length < slot.off.toNat + slot.len.toNat) :
    narrow slot fr = .error .tooShort := by
  rw [narrow, if_pos h]

theorem narrow_fits (h : slot.off.toNat + slot.len.toNat ≤ fr.length) :
    narrow slot fr = .ok { replaces := some (.frame, (fr.drop slot.off.toNat).take slot.len.toNat) } := by
  rw [narrow, if_neg (Nat.not_lt.mpr h), slice, Nat.add_sub_cancel_left]

theorem exec_narrow_defined (hk : legalSlot k = true) (hfr : s.value .frame = some fr) :
    exec (.narrow k) s = .next (finish (narrow (s.slot k.toNat) fr) s) := by
  rw [exec_defined (i := .narrow k) hk (by simp) (by simp [Instr.reads, hfr]), commandBody, State.bytes_eq hfr]

/-- Settles O23: behind the checks of the index and of FRAME's length, NARROW replaces FRAME by the bytes of the
slot. -/
theorem narrowTakesTheSlot : Obligations.NarrowTakesTheSlot := by
  intro s k
  refine ⟨decode_encode (.narrow k), fun hk => endsInError_illegal ?_, fun hk => ?_⟩
  · simpa [Instr.wf, legalSlot, Nat.succ_le_iff] using hk
  have hlegal : legalSlot k = true := by simpa [legalSlot, Nat.lt_succ_iff] using hk
  refine ⟨capacityChecked hlegal (by simp [Instr.reads]), fun fr hfr => ?_⟩
  have hexec := exec_narrow_defined hlegal hfr
  dsimp only
  split
  case isTrue hshort => exact endsInError_of_finish (by rw [hexec, narrow_tooShort hshort])
  case isFalse hfits =>
    rw [narrow_fits (Nat.not_lt.mp hfits)] at hexec
    have hcap := State.value_length_le hfr
    have hlen : ((fr.drop (s.slot k.toNat).off.toNat).take (s.slot k.toNat).len.toNat).length =
        (s.slot k.toNat).len.toNat := by
      rw [List.length_take, List.length_drop]; omega
    have hends := endsReplacing_of_finish hexec (by simp) (by omega)
    rwa [EndsReplacing, hlen] at hends

/-! ### MOVOF and MOVOA -/

/-- Both moves give an operand buffer of OUT's capacity the bytes of OUT. -/
theorem endsReplacing_movesOut
    (h : exec i s = withOperands [.out] s (.ok { replaces := some (b, s.bytes .out) })) (hb : b ≠ .out)
    (hcap : b.cap = Buf.out.cap) (hv : s.value .out = some v) : EndsReplacing i s b v := by
  rw [withOperands_defined (by simp [hv]), State.bytes_eq hv] at h
  exact endsReplacing_of_finish h hb (hcap ▸ State.value_length_le hv)

/-- Settles O24: MOVOF is the move to FRAME. -/
theorem movofMovesOutToFrame : Obligations.MovofMovesOutToFrame := fun _ =>
  ⟨argumentIsZero_of_plain (i := .movof) (by decide), fun _ hv => endsReplacing_movesOut rfl (by simp) rfl hv⟩

/-- Settles O25: MOVOA is the move to AUX. -/
theorem movoaMovesOutToAux : Obligations.MovoaMovesOutToAux := fun _ =>
  ⟨argumentIsZero_of_plain (i := .movoa) (by decide), fun _ hv => endsReplacing_movesOut rfl (by simp) rfl hv⟩

/-! ### SPLICE -/

theorem splice_tooShort {m : Nat} (h : fr.length < m) : splice m fr aux = .error .tooShort := by
  rw [splice, if_pos h]

theorem splice_frameTooLong {m : Nat} (h : m ≤ fr.length) (hl : 127 < m + aux.length) :
    splice m fr aux = .error .frameTooLong := by
  rw [splice, if_neg (Nat.not_lt.mpr h), if_pos hl]

theorem splice_fits {m : Nat} (h : m ≤ fr.length) (hl : m + aux.length ≤ 127) :
    splice m fr aux = .ok { out := fr.take m ++ aux } := by
  rw [splice, if_neg (Nat.not_lt.mpr h), if_neg (Nat.not_lt.mpr hl), slice, List.drop_zero, Nat.sub_zero]

theorem exec_splice_defined (hn : legalCount n = true) (hfr : s.value .frame = some fr)
    (haux : s.value .aux = some aux) :
    exec (.splice n) s = .next (finish (splice n.toNat fr aux) s) := by
  rw [exec_defined (i := .splice n) hn (by simp) (by simp [Instr.reads, hfr, haux]), commandBody, State.bytes_eq hfr,
    State.bytes_eq haux]

/-- SPLICE on a count within FRAME and a result within OUT's capacity. -/
theorem exec_splice_fits (hfr : s.value .frame = some fr) (haux : s.value .aux = some aux)
    (h : n.toNat ≤ fr.length) (hl : n.toNat + aux.length ≤ 127) :
    EndsWithBytes (.splice n) s (fr.take n.toNat ++ aux) := by
  have hlegal : legalCount n = true := decide_eq_true (show n.toNat ≤ 127 by omega)
  have hexec := exec_splice_defined hlegal hfr haux
  rw [splice_fits h hl] at hexec
  refine endsWithBytes_of_finish hexec ?_
  rw [List.length_append, List.length_take]
  omega

/-- Settles O26: behind the checks of the count and of the two lengths, SPLICE joins the two byte sequences. -/
theorem spliceAssembles : Obligations.SpliceAssembles := by
  intro s n
  refine ⟨decode_encode (.splice n), fun hn => endsInError_illegal ?_, fun hn => ?_⟩
  · simpa [Instr.wf, legalCount] using hn
  have hlegal : legalCount n = true := decide_eq_true hn
  refine ⟨capacityChecked hlegal (by simp [Instr.reads]), fun fr aux hfr haux => ?_⟩
  have hexec := exec_splice_defined hlegal hfr haux
  split
  case isTrue hshort => exact endsInError_of_finish (by rw [hexec, splice_tooShort hshort])
  case isFalse hcount =>
    rw [Nat.not_lt] at hcount
    split
    case isTrue hlong => exact endsInError_of_finish (by rw [hexec, splice_frameTooLong hcount hlong])
    case isFalse hfits => exact exec_splice_fits hfr haux hcount (Nat.not_lt.mp hfits)

end Sys2Proof.Machine
end

section
/-! PROOF. SPLICE undoes MAC_CHOP: SLOT[16] names what the frame holds behind the offset in RESULT
(`40_system_move.md` R95, `41_mac_codec.md` R112). -/

namespace Sys2Proof.Machine

open Sys2Proof.Claims

variable {s t : State} {f fr : List Byte} {c : Chop} {off : Nat}

/-! ### The payload slot -/

/-- SLOT[16] of a MAC chop is everything from the offset the chop answers (R105, R106). -/
theorem macChop_payloadSlot (h : macChop f = .ok c) : c.fields.getD 16 Range.absent = restOf f c.off := by
  obtain ⟨a, ha, h⟩ := bind_ok h
  obtain ⟨-, -, -, -, hoff, -⟩ := macAddr_ok ha
  obtain ⟨-, -, hcount⟩ := beaconPart_within hoff
  generalize beaconPart f a.off = beacon at h hcount
  injection h with h
  subst h
  simp [List.getD, hcount]

/-- An offset or a length within a frame survives in a slot and in RESULT. -/
theorem toNat_ofNat_frameLength {w m : Nat} (hm : m ≤ 127) (hw : 7 ≤ w) : (BitVec.ofNat w m).toNat = m := by
  rw [BitVec.toNat_ofNat]
  have : 2 ^ 7 ≤ 2 ^ w := Nat.pow_le_pow_right (by omega) hw
  exact Nat.mod_eq_of_lt (by omega)

theorem restOf_toSlot_of_lt (h : off < f.length) (hl : f.length ≤ 127) :
    (restOf f off).toSlot.off.toNat = off ∧ (restOf f off).toSlot.len.toNat = f.length - off := by
  rw [restOf, if_pos h]
  have hrest : f.length - off ≤ 127 := (Nat.sub_le _ _).trans hl
  exact ⟨toNat_ofNat_frameLength (h.le.trans hl) (by omega), toNat_ofNat_frameLength hrest (by omega)⟩

theorem restOf_toSlot_of_le (h : f.length ≤ off) : (restOf f off).toSlot = ⟨0#8, 0#8⟩ := by
  rw [restOf, if_neg (Nat.not_lt.mpr h)]
  rfl

/-- The bytes that the payload slot names are the rest of the frame, empty when nothing is left. -/
theorem bytes_of_payloadSlot (hl : f.length ≤ 127) :
    (f.drop (restOf f off).toSlot.off.toNat).take (restOf f off).toSlot.len.toNat = f.drop off := by
  rcases Nat.lt_or_ge off f.length with h | h
  · obtain ⟨hoff, hlen⟩ := restOf_toSlot_of_lt h hl
    rw [hoff, hlen, ← List.length_drop, List.take_length]
  · rw [restOf_toSlot_of_le h, List.drop_eq_nil_of_le h]
    rfl

/-! ### MAC_CHOP without FCS_PRESENT -/

/-- An `Ok` MAC_CHOP on the whole of FRAME has completed the chop of FRAME. -/
theorem exec_macChop_ok (hfr : s.value .frame = some fr) (hcfg : s.cfg.getLsbD 0 = false)
    (he : exec .macChop s = .next t) (hok : t.code = okCode) :
    ∃ c, macChop fr = .ok c ∧ t = complete (chopEffect c) s := by
  have hframe : HasFrame s fr := ⟨fr, hfr, by rw [hcfg]; rfl⟩
  have hexec : exec .macChop s = .next (finish ((macChop fr).map chopEffect) s) := withFrame_defined hframe
  rw [hexec] at he
  cases hc : macChop fr with
  | error e =>
    rw [hc] at he
    cases he
    exact absurd (raise_code.symm.trans hok) ErrorStatus.code_ne_ok
  | ok c =>
    rw [hc] at he
    cases he
    exact ⟨c, rfl, rfl⟩

/-- The low byte of a result register that holds an offset within a frame is that offset. -/
theorem toNat_lowByte_ofNat (h : off ≤ 127) : ((BitVec.ofNat 16 off).extractLsb' 0 8).toNat = off := by
  rw [BitVec.extractLsb'_toNat, toNat_ofNat_frameLength h (by omega), Nat.shiftRight_zero]
  exact Nat.mod_eq_of_lt (by omega)

/-- Settles O27: RESULT and SLOT[16] cut FRAME in two, and SPLICE puts the two parts together again. -/
theorem spliceUndoesMacChop : Obligations.SpliceUndoesMacChop := by
  intro s t u fr hfr hcfg he hok hufr huaux
  obtain ⟨c, hc, rfl⟩ := exec_macChop_ok hfr hcfg he hok
  have hcap : fr.length ≤ 127 := State.value_length_le hfr
  obtain ⟨-, hoff, -⟩ := macChop_ok hc
  have hresult : (complete (chopEffect c) s).result = BitVec.ofNat 16 c.off := rfl
  have hslot : (complete (chopEffect c) s).slot 16 = (restOf fr c.off).toSlot := by
    rw [slot_slotsOf complete_slots (by decide), ← macChop_payloadSlot hc]
    rfl
  have hnum : (BitVec.ofNat 16 c.off).toNat = c.off := toNat_ofNat_frameLength (by omega) (by omega)
  have hcount := toNat_lowByte_ofNat (hoff.trans hcap)
  rw [hslot, bytes_of_payloadSlot hcap] at huaux
  rw [hresult, hslot, hnum]
  refine ⟨hoff, ?_, ?_⟩
  · split
    case isTrue hlt =>
      obtain ⟨hstart, hlen⟩ := restOf_toSlot_of_lt hlt hcap
      exact ⟨hstart, by omega⟩
    case isFalse hge => exact restOf_toSlot_of_le (Nat.not_lt.mp hge)
  · have hjoin := exec_splice_fits hufr huaux (hcount.trans_le hoff) (by rw [hcount, List.length_drop]; omega)
    rwa [hcount, List.take_append_drop] at hjoin

end Sys2Proof.Machine
end

section
/-! PROOF. How a command on the effective frame ends: its checks once, and the ways in which its body ends `Ok`. -/

namespace Sys2Proof.Claims

open Sys2Proof.Machine

variable {i : Instr} {s : State} {bs : List Buf} {f fr : List Byte} {body : List Byte → Ending}

/-! ### The effective frame -/

/-- A command without an argument has no illegal argument (R71). -/
theorem wf_of_plain (h : i.opcode ∈ plainOpcodes) : i.wf = true := by
  cases i
  case narrow | splice | ccmEnc | ccmDec => simp [Instr.opcode, plainOpcodes] at h
  all_goals rfl

theorem effectiveFrame_tooShort {cfg : Half} (hfcs : cfg.getLsbD 0 = true) (h : fr.length < 2) :
    effectiveFrame cfg fr = .error .tooShort := by
  rw [effectiveFrame, fcsPresent, if_pos hfcs, if_pos h]

/-- A command that goes on from EF ends with `TooShort` where there is no EF, whatever its other operands. -/
theorem fcsTooShort (hw : i.wf = true) (hr : i ≠ .reset) (hbs : ∀ b ∈ i.reads, b ∈ bs) (hframe : .frame ∈ bs)
    (hbody : commandBody i s = effectiveFrame s.cfg (s.bytes .frame) >>= body) : FcsTooShort i s bs := by
  intro hfcs hlen hdef
  have hvalue : ∀ b ∈ bs, ∃ v, s.value b = some v := fun b hb => Option.isSome_iff_exists.mp (hdef b hb)
  obtain ⟨fr, hfr⟩ := hvalue .frame hframe
  have hshort : effectiveFrame s.cfg (s.bytes .frame) = .error .tooShort := by
    rw [State.bytes_eq hfr]
    exact effectiveFrame_tooShort hfcs ((State.value_length hfr).trans_lt hlen)
  refine endsInError_of_finish ?_
  rw [exec_defined hw hr fun b hb => hvalue b (hbs b hb), hbody, hshort]
  rfl

/-- A command without an argument whose one operand is EF: it meets the checks before its body, and what holds of
every end of the body holds of the command. -/
theorem frameCommand {P : List Byte → Prop} (hplain : i.opcode ∈ plainOpcodes) (hreads : i.reads = [.frame])
    (hbody : commandBody i s = effectiveFrame s.cfg (s.bytes .frame) >>= body)
    (hends : ∀ f, f.length ≤ 127 → exec i s = .next (finish (body f) s) → P f) :
    ArgumentIsZero i.opcode i s ∧ CapacityChecked i s [.frame] ∧ FcsTooShort i s [.frame] ∧
      ∀ f, HasFrame s f → P f := by
  have hw : i.wf = true := wf_of_plain hplain
  have hr : i ≠ .reset := ne_reset_of_reads (b := .frame) (by simp [hreads])
  refine ⟨argumentIsZero_of_plain hplain, capacityChecked hw (by simp [hreads]),
    fcsTooShort hw hr (by simp [hreads]) (by simp) hbody, fun f hf => hends f hf.length_le ?_⟩
  have ⟨fr, hfr, _⟩ := hf
  rw [exec_defined hw hr (by simp [hreads, hfr]), hbody, effectiveFrame_eq hf]
  rfl

/-! ### The ends of a codec command -/

theorem endsWithNumber_of_finish {n : Nat} (h : exec i s = .next (finish (.ok (scalarEffect n)) s)) :
    EndsWithNumber i s n := by
  have hends := endsAs_of_finish h rfl (Nat.zero_le _)
  simp only [scalarEffect, statusWord_ok, slotsOf_nil] at hends
  exact hends

/-- A range given as the pair (offset, length) of the statements. -/
def rangeOf (p : Nat × Nat) : Range := ⟨p.1, p.2⟩

/-- Fields that are the given pairs, in order, stand in the slots as these pairs. -/
theorem slotsOf_eq_slotsAre {fields : List Range} {g : Nat → Nat × Nat}
    (h : ∀ k < 17, fields.getD k Range.absent = rangeOf (g k)) : slotsOf fields = slotsAre g := by
  ext1 k hk
  simp only [slotsOf, slotsAre, Vector.getElem_ofFn, h k hk]
  rfl

/-- An `Ok` end of a chop leaves the offset in RESULT and the fields in the slots. -/
theorem endsAs_of_finish_chop {c : Chop} {g : Nat → Nat × Nat}
    (h : exec i s = .next (finish (.ok (chopEffect c)) s))
    (hg : ∀ k < 17, c.fields.getD k Range.absent = rangeOf (g k)) :
    EndsAs i s 0x0010#16 (BitVec.ofNat 16 c.off) (slotsAre g) [] := by
  have hends := endsAs_of_finish h rfl (Nat.zero_le _)
  simp only [chopEffect, statusWord_ok, slotsOf_eq_slotsAre hg] at hends
  exact hends

/-! ### Ranges and pairs -/

theorem rangeAt_eq (off w : Nat) : rangeAt off w = rangeOf (fieldIf true off w) := by
  unfold rangeAt fieldIf rangeOf
  rcases Nat.eq_zero_or_pos w with h | h
  · simp [h]
  · simp [h, Nat.ne_of_gt h]

theorem restOf_eq (f : List Byte) (off : Nat) : restOf f off = rangeOf (restFrom f off) := by
  unfold restOf restFrom fieldIf rangeOf
  by_cases h : off < f.length <;> simp [h]

theorem absent_eq (off w : Nat) : Range.absent = rangeOf (fieldIf false off w) := rfl

/-! ### Partitions -/

variable {cur e off w : Nat} {rs : List Range}

@[simp] theorem coversFrom_nil : coversFrom cur [] = some cur := rfl

@[simp] theorem coversFrom_absent : coversFrom cur (Range.absent :: rs) = coversFrom cur rs := rfl

/-- A range that starts where the cover has come to moves it by its length, 0 or not. -/
@[simp] theorem coversFrom_next : coversFrom cur (⟨cur, w⟩ :: rs) = coversFrom (cur + w) rs := by
  rcases Nat.eq_zero_or_pos w with h | h
  · simp [coversFrom, h]
  · simp [coversFrom, Nat.ne_of_gt h]

@[simp] theorem coversFrom_rangeAt : coversFrom cur (rangeAt cur w :: rs) = coversFrom (cur + w) rs := by
  unfold rangeAt
  split
  next h => simp [h]
  next => exact coversFrom_next

theorem coversFrom_append (rs rs' : List Range) :
    coversFrom cur (rs ++ rs') = (coversFrom cur rs).bind fun e => coversFrom e rs' := by
  induction rs generalizing cur with
  | nil => rfl
  | cons r rs ih =>
    simp only [List.cons_append, coversFrom, ih]
    split
    · rfl
    split <;> rfl

@[simp] theorem coversFrom_replicate_absent {n : Nat} :
    coversFrom cur (List.replicate n Range.absent) = some cur := by
  induction n with
  | zero => rfl
  | succ n ih => rw [List.replicate_succ, coversFrom_absent, ih]

/-- The payload slot covers the rest of the frame. -/
theorem coversFrom_restOf (h : off ≤ f.length) : coversFrom off [restOf f off] = some f.length := by
  unfold restOf
  split
  next => rw [coversFrom_next, coversFrom_nil, Nat.add_sub_cancel' h]
  next hge => rw [coversFrom_absent, coversFrom_nil, Nat.le_antisymm h (Nat.not_lt.mp hge)]

/-- Ranges that follow one another name the bytes from where they start to where they end. -/
theorem bytes_of_coversFrom (h : coversFrom cur rs = some e) :
    cur ≤ e ∧ (rs.flatMap fun r => (f.drop r.off).take r.len) = (f.drop cur).take (e - cur) := by
  induction rs generalizing cur with
  | nil =>
    cases h
    simp
  | cons r rs ih =>
    rw [coversFrom] at h
    split at h
    next hzero =>
      obtain ⟨hle, ih⟩ := ih h
      exact ⟨hle, by rw [List.flatMap_cons, ih, hzero, List.take_zero, List.nil_append]⟩
    next =>
      split at h
      next hoff =>
        obtain ⟨hle, ih⟩ := ih h
        have hsum : e - cur = r.len + (e - (cur + r.len)) := by omega
        exact ⟨by omega, by rw [List.flatMap_cons, ih, hoff, hsum, List.take_add, List.drop_drop]⟩
      next => cases h

/-- Ranges that follow one another from 0 to the length make up the bytes. -/
theorem partitions_of_coversFrom (h : coversFrom 0 rs = some f.length) : Partitions f rs := by
  obtain ⟨-, hbytes⟩ := bytes_of_coversFrom (f := f) h
  exact ⟨h, by rw [hbytes, List.drop_zero, Nat.sub_zero, List.take_length]⟩

end Sys2Proof.Claims
end

section
/-! PROOF. The MAC header in closed form (`41_mac_codec.md`): its length by the FCF alone (R101), the addressing fields
(R104), and by how much the two differ (R103). -/

namespace Sys2Proof.Machine

open Sys2Proof.Claims

variable {f : List Byte} {a : MacAddr}

/-! ### The frame control field by its two bytes (R100) -/

theorem fcfType_macFcf (f : List Byte) : fcfType (macFcf f) = (at' f 0).extractLsb' 0 3 :=
  BitVec.extractLsb'_append_eq_of_add_le (by decide)

theorem fcfDam_macFcf (f : List Byte) : fcfDam (macFcf f) = dam f :=
  BitVec.extractLsb'_append_eq_of_le (by decide)

theorem fcfSam_macFcf (f : List Byte) : fcfSam (macFcf f) = sam f :=
  BitVec.extractLsb'_append_eq_of_le (by decide)

theorem fcfSec_macFcf (f : List Byte) : fcfSec (macFcf f) = sec f := BitVec.getLsbD_append

theorem fcfIntra_macFcf (f : List Byte) : fcfIntra (macFcf f) = intra f := BitVec.getLsbD_append

/-! ### Header and payload length -/

/-- `mac_hdrlen` in closed form (R101). -/
theorem macHdrlen_eq (f : List Byte) :
    macHdrlen f = if f.length < 9 then .error .tooShort else .ok (macHeaderLength f) := by
  unfold macHdrlen macHeaderLength ind
  simp only [fcfDam_macFcf, fcfSam_macFcf, fcfIntra_macFcf]
  cases intra f <;> simp

/-- `mac_payloadlen` in closed form (R102). -/
theorem macPayloadlen_eq (f : List Byte) :
    macPayloadlen f = if f.length < 9 ∨ f.length < macHeaderLength f then .error .tooShort
      else .ok (f.length - macHeaderLength f) := by
  rw [macPayloadlen, macHdrlen_eq]
  by_cases h : f.length < 9
  · rw [if_pos h, if_pos (.inl h)]; rfl
  · simp only [h, false_or]; rfl

/-! ### MAC_HDRLEN and MAC_PAYLEN -/

/-- Settles O28: the command ends as the closed form of `mac_hdrlen` says. -/
theorem macHdrlenResult : Obligations.MacHdrlenResult := by
  intro s
  refine frameCommand (i := .macHdrlen) (by decide) rfl rfl fun f _ hexec => ?_
  rw [macHdrlen_eq] at hexec
  split_ifs at hexec ⊢
  · exact endsInError_of_finish hexec
  · exact endsWithNumber_of_finish hexec

/-- Settles O29: the command ends as the closed form of `mac_payloadlen` says. -/
theorem macPaylenResult : Obligations.MacPaylenResult := by
  intro s
  refine frameCommand (i := .macPaylen) (by decide) rfl rfl fun f _ hexec => ?_
  rw [macPayloadlen_eq] at hexec
  split_ifs at hexec ⊢
  · exact endsInError_of_finish hexec
  · exact endsWithNumber_of_finish hexec

/-! ### Addressing fields (R104) -/

/-- An addressing mode is short, extended, or one that stands for no address. -/
theorem mode_cases (m : BitVec 2) : m = 2#2 ∨ m = 3#2 ∨ (m ≠ 2#2 ∧ m ≠ 3#2) := by
  revert m
  decide

/-- The destination's PAN and address lie behind the first three bytes, both or neither. -/
theorem dst_layout (f : List Byte) :
    rangeAt 3 (dstPanWidth (macFcf f)) = rangeOf (macSlots f 2) ∧
      rangeAt (3 + dstPanWidth (macFcf f)) (addrWidth (fcfDam (macFcf f))) = rangeOf (macSlots f 3) ∧
      dstPanWidth (macFcf f) + addrWidth (fcfDam (macFcf f)) = dstWidth f := by
  simp only [macSlots, rangeAt_eq, dstPanWidth, fcfDam_macFcf, dstWidth, addrWidth]
  rcases mode_cases (dam f) with h | h | ⟨h, h'⟩ <;> simp [fieldIf, *]

theorem srcPanWidth_eq (f : List Byte) : srcPanWidth (macFcf f) = 2 * ind (hasSrcPan f) := by
  simp only [srcPanWidth, hasSrcPan, ind, fcfSam_macFcf, fcfIntra_macFcf, addrWidth]
  rcases mode_cases (sam f) with h | h | ⟨h, h'⟩ <;> simp [*] <;> cases intra f <;> rfl

theorem srcAddrWidth_eq (f : List Byte) : addrWidth (fcfSam (macFcf f)) = srcWidth f := by
  rw [fcfSam_macFcf, addrWidth, srcWidth]

theorem rangeAt_two_ind (off : Nat) (p : Bool) : rangeAt off (2 * ind p) = rangeOf (fieldIf p off 2) := by
  cases p <;> rfl

/-- The addressing fields are the ranges of SLOT[2..5] (R106), and the header ends behind them. -/
def macAddrOf (f : List Byte) : MacAddr where
  dstPan := rangeOf (macSlots f 2)
  dstAddr := rangeOf (macSlots f 3)
  srcPan := rangeOf (macSlots f 4)
  srcAddr := rangeOf (macSlots f 5)
  off := macHeaderEnd f

@[simp] theorem macAddrOf_off : (macAddrOf f).off = macHeaderEnd f := rfl

/-- `mac_addr` in closed form (R104). -/
theorem macAddr_eq (f : List Byte) :
    macAddr f = if f.length < 3 ∨ f.length < macHeaderEnd f then .error .tooShort else .ok (macAddrOf f) := by
  obtain ⟨hpan, haddr, hdst⟩ := dst_layout f
  unfold macAddr
  simp only [Nat.add_assoc 3 (dstPanWidth _), hpan, haddr, hdst, srcPanWidth_eq, srcAddrWidth_eq, rangeAt_two_ind]
  simp only [rangeAt_eq]
  by_cases h : f.length < 3
  · rw [if_pos h, if_pos (.inl h)]
  · simp only [h, false_or, if_false]
    rfl

theorem macAddr_ok_iff : macAddr f = .ok a ↔ 3 ≤ f.length ∧ macHeaderEnd f ≤ f.length ∧ a = macAddrOf f := by
  rw [macAddr_eq]
  split
  next h => exact ⟨nofun, fun ⟨hmin, hend, _⟩ => absurd h (by omega)⟩
  next h =>
    rw [Except.ok.injEq]
    exact ⟨fun heq => ⟨by omega, by omega, heq.symm⟩, fun ⟨_, _, heq⟩ => heq.symm⟩

/-- The addressing fields cover the bytes from 3 to the end of the header. -/
theorem macAddr_covers (h : macAddr f = .ok a) :
    coversFrom 3 [a.dstPan, a.dstAddr, a.srcPan, a.srcAddr] = some a.off := by
  unfold macAddr at h
  split at h
  case isTrue => cases h
  dsimp only at h
  split at h <;> cases h
  simp only [coversFrom_rangeAt, coversFrom_nil]

/-! ### `mac_hdrlen` against the end of the header (R103) -/

/-- The destination's share of R103. -/
theorem dst_overshoot (f : List Byte) :
    4 + 6 * ind (dam f = 3#2) = dstWidth f + if dam f = 2#2 ∨ dam f = 3#2 then 0 else 4 := by
  unfold ind dstWidth
  rcases mode_cases (dam f) with h | h | ⟨h, h'⟩ <;> simp [*]

/-- The source's share of R103. -/
theorem src_overshoot (f : List Byte) :
    2 + 6 * ind (sam f = 3#2) + 2 * ind (!intra f) = 2 * ind (hasSrcPan f) + srcWidth f +
      if sam f = 2#2 ∨ sam f = 3#2 then 0 else if intra f = true then 2 else 4 := by
  unfold ind hasSrcPan srcWidth
  rcases mode_cases (sam f) with h | h | ⟨h, h'⟩ <;> cases intra f <;> simp [*]

/-- Settles O32: what `mac_hdrlen` counts beyond the header is the share of each address. -/
theorem macHeaderLengthAgainstEnd : Obligations.MacHeaderLengthAgainstEnd := by
  intro f h a hh ha
  obtain ⟨-, -, rfl⟩ := macAddr_ok_iff.mp ha
  rw [macHdrlen_eq] at hh
  split at hh <;> cases hh
  have hdst := dst_overshoot f
  have hsrc := src_overshoot f
  have hsum : macHeaderLength f = macHeaderEnd f + (if dam f = 2#2 ∨ dam f = 3#2 then 0 else 4) +
      (if sam f = 2#2 ∨ sam f = 3#2 then 0 else if intra f = true then 2 else 4) := by
    unfold macHeaderLength macHeaderEnd
    omega
  have hdst_zero : (if dam f = 2#2 ∨ dam f = 3#2 then 0 else 4) = 0 ↔ dam f = 2#2 ∨ dam f = 3#2 := by
    split <;> simp [*]
  have hsrc_zero : (if sam f = 2#2 ∨ sam f = 3#2 then 0 else if intra f = true then 2 else 4) = 0 ↔
      sam f = 2#2 ∨ sam f = 3#2 := by
    split
    · simp [*]
    · split <;> simp [*]
  refine ⟨Iff.trans ?_ (and_congr hdst_zero hsrc_zero), hsum⟩
  rw [hsum, macAddrOf_off]
  omega

end Sys2Proof.Machine
end

section
/-! PROOF. The beacon fields (R107) and with them `mac_chop` (R105, R106) in closed form, and that its slots partition
the frame. -/

namespace Sys2Proof.Machine

open Sys2Proof.Claims

variable {f : List Byte} {a : MacAddr} {c : Chop} {off len n p k : Nat} {ws : List Nat}

/-! ### The beacon fields (R107) -/

/-- Where fields of the given widths start from `p` on, and where the last one ends. -/
def fieldStarts (p : Nat) (ws : List Nat) : List Nat := ws.scanl (· + ·) p

theorem fieldStarts_nil : fieldStarts p [] = [p] := List.scanl_nil

theorem fieldStarts_cons {w : Nat} : fieldStarts p (w :: ws) = p :: fieldStarts (p + w) ws := List.scanl_cons

theorem fieldStarts_length : (fieldStarts p ws).length = ws.length + 1 := List.length_scanl

theorem fieldStarts_beaconWidths : fieldStarts 0 beaconWidths = beaconStarts := rfl

theorem fieldStarts_zero : (fieldStarts p ws).getD 0 0 = p := by
  cases ws <;> simp [fieldStarts_nil, fieldStarts_cons]

theorem le_of_mem_fieldStarts (h : n ∈ fieldStarts p ws) : p ≤ n := by
  induction ws generalizing p with
  | nil => simp_all [fieldStarts_nil]
  | cons w ws ih =>
    rw [fieldStarts_cons, List.mem_cons] at h
    rcases h with rfl | h
    · exact le_rfl
    · exact (Nat.le_add_right p w).trans (ih h)

/-- Field `k` is there when it ends within the frame: then all before it do. -/
theorem beaconFields_getD (hpos : ∀ w ∈ ws, 0 < w) (hk : k < ws.length) :
    (beaconFields len (off + p) ws).1.getD k Range.absent =
      rangeOf (fieldIf (off + (fieldStarts p ws).getD (k + 1) 0 ≤ len) (off + (fieldStarts p ws).getD k 0)
        ((fieldStarts p ws).getD (k + 1) 0 - (fieldStarts p ws).getD k 0)) := by
  induction ws generalizing p k with
  | nil => simp at hk
  | cons w ws ih =>
    have hmem : (fieldStarts (p + w) ws).getD k 0 ∈ fieldStarts (p + w) ws := by
      rw [List.getD_eq_getElem _ _ (by rw [fieldStarts_length]; simpa using hk)]
      exact List.getElem_mem _
    have hle : p + w ≤ (fieldStarts (p + w) ws).getD k 0 := le_of_mem_fieldStarts hmem
    rw [fieldStarts_cons, List.getD_cons_succ, beaconFields]
    split
    case isTrue hfits =>
      cases k with
      | zero =>
        have hw : 0 < w := hpos w List.mem_cons_self
        rw [List.getD_cons_zero, List.getD_cons_zero, fieldStarts_zero, Nat.add_sub_cancel_left, ← Nat.add_assoc]
        simp [fieldIf, rangeOf, hfits, hw]
      | succ k =>
        rw [List.getD_cons_succ, List.getD_cons_succ, Nat.add_assoc]
        exact ih (fun w hw => hpos w (List.mem_cons_of_mem _ hw)) (by simpa using hk)
    case isFalse hcut =>
      have hnot : ¬off + (fieldStarts (p + w) ws).getD k 0 ≤ len := by omega
      rw [List.getD_replicate _ (by simpa using hk), decide_eq_false hnot]
      rfl

/-- The beacon fields end where the last start lies that is still within the frame. -/
theorem beaconFields_end (h : off + p ≤ len) : (beaconFields len (off + p) ws).2 =
    off + (((fieldStarts p ws).filter fun q => off + q ≤ len).getLast?).getD 0 := by
  induction ws generalizing p with
  | nil => simp [beaconFields, fieldStarts_nil, h]
  | cons w ws ih =>
    rw [fieldStarts_cons, List.filter_cons_of_pos (by simpa using h), List.getLast?_cons, Option.getD_some,
      beaconFields]
    split
    case isTrue hfits =>
      rw [Nat.add_assoc] at hfits ⊢
      have hne : (fieldStarts (p + w) ws).filter (fun q => off + q ≤ len) ≠ [] := by
        cases ws <;> simp [fieldStarts_nil, fieldStarts_cons, hfits]
      obtain ⟨q, hq⟩ := Option.ne_none_iff_exists'.mp (List.getLast?_eq_none_iff.not.mpr hne)
      have hih := ih hfits
      rw [hq] at hih ⊢
      exact hih
    case isFalse hcut =>
      have hnone : (fieldStarts (p + w) ws).filter (fun q => off + q ≤ len) = [] := by
        rw [List.filter_eq_nil_iff]
        intro q hq
        have := le_of_mem_fieldStarts hq
        simp; omega
      rw [hnone]
      rfl

theorem beaconFields_covers : coversFrom off (beaconFields len off ws).1 = some (beaconFields len off ws).2 := by
  induction ws generalizing off with
  | nil => rfl
  | cons w ws ih =>
    rw [beaconFields]
    split
    · rw [coversFrom_next, ih]
    · exact coversFrom_replicate_absent

theorem beaconPart_covers : coversFrom off (beaconPart f off).1 = some (beaconPart f off).2 := by
  unfold beaconPart
  split
  · exact beaconFields_covers
  · exact coversFrom_replicate_absent

/-! ### `mac_chop` -/

theorem macSlots_beacon (hk : k < 9) : macSlots f (6 + k) =
    fieldIf (isBeacon f && macHeaderEnd f + beaconStarts.getD (k + 1) 0 ≤ f.length)
      (macHeaderEnd f + beaconStarts.getD k 0) (beaconStarts.getD (k + 1) 0 - beaconStarts.getD k 0) := by
  have hnext : 6 + k - 5 = k + 1 := by omega
  have hthis : 6 + k - 6 = k := by omega
  simp (disch := omega) only [macSlots, if_neg, if_pos, hnext, hthis]

/-- The beacon fields are the ranges of SLOT[6..14] (R107). -/
theorem beaconPart_getD (hk : k < 9) :
    (beaconPart f (macHeaderEnd f)).1.getD k Range.absent = rangeOf (macSlots f (6 + k)) := by
  have hfields := beaconFields_getD (len := f.length) (off := macHeaderEnd f) (p := 0) (ws := beaconWidths)
    (by decide) hk
  rw [Nat.add_zero, fieldStarts_beaconWidths] at hfields
  rw [beaconPart, fcfType_macFcf, macSlots_beacon hk, isBeacon]
  split
  case isTrue hbeacon => rw [hfields, decide_eq_true hbeacon, Bool.true_and]
  case isFalse hother =>
    rw [List.getD_replicate _ hk, decide_eq_false hother, Bool.false_and]
    rfl

/-- The payload starts behind the beacon fields that fit (R105). -/
theorem beaconPart_end (h : macHeaderEnd f ≤ f.length) :
    (beaconPart f (macHeaderEnd f)).2 = macPayloadStart f := by
  have hfields := beaconFields_end (off := macHeaderEnd f) (p := 0) (ws := beaconWidths) h
  rw [Nat.add_zero, fieldStarts_beaconWidths] at hfields
  rw [beaconPart, fcfType_macFcf, macPayloadStart, beaconBytes, isBeacon]
  simp only [decide_eq_true_eq]
  split
  · exact hfields
  · rfl

theorem macChop_of_macAddr (h : macAddr f = .ok a) :
    macChop f = .ok {
      fields := [⟨0, 2⟩, ⟨2, 1⟩, a.dstPan, a.dstAddr, a.srcPan, a.srcAddr] ++ (beaconPart f a.off).1
        ++ [Range.absent, restOf f (beaconPart f a.off).2]
      off := (beaconPart f a.off).2 } := by
  rw [macChop, h]
  rfl

/-- Settles O33: each part of the chop starts where the one before it has ended. -/
theorem macChopPartitions : Obligations.MacChopPartitions := by
  intro f c hc
  obtain ⟨a, ha, -⟩ := bind_ok hc
  rw [macChop_of_macAddr ha] at hc
  cases hc
  obtain ⟨-, -, -, -, hoff, -⟩ := macAddr_ok ha
  obtain ⟨-, hend, hcount⟩ := beaconPart_within hoff
  refine ⟨by simp [hcount], partitions_of_coversFrom ?_⟩
  have hhead : coversFrom 0 [⟨0, 2⟩, ⟨2, 1⟩, a.dstPan, a.dstAddr, a.srcPan, a.srcAddr] = some a.off := by
    rw [coversFrom_next, coversFrom_next, macAddr_covers ha]
  simp only [coversFrom_append, hhead, beaconPart_covers, Option.bind_some, coversFrom_absent, coversFrom_restOf hend]

/-- The fields of a chop, slot by slot (R106). -/
theorem macChop_fields (h : macChop f = .ok c) : c.off = macPayloadStart f ∧
    ∀ k < 17, c.fields.getD k Range.absent = rangeOf (macSlots f k) := by
  obtain ⟨a, ha, -⟩ := bind_ok h
  rw [macChop_of_macAddr ha] at h
  cases h
  obtain ⟨-, hend, rfl⟩ := macAddr_ok_iff.mp ha
  obtain ⟨-, -, hcount⟩ := beaconPart_within hend
  refine ⟨beaconPart_end hend, fun k hk => ?_⟩
  rw [macAddrOf_off, beaconPart_end hend, List.append_assoc]
  rcases Nat.lt_or_ge k 6 with h6 | h6
  · interval_cases k <;> rfl
  obtain ⟨j, rfl⟩ := Nat.exists_eq_add_of_le h6
  rw [List.getD_append_right _ _ _ _ h6]
  change List.getD _ (6 + j - 6) _ = _
  rw [Nat.add_sub_cancel_left]
  rcases Nat.lt_or_ge j 9 with h9 | h9
  · rw [List.getD_append _ _ _ _ (h9.trans_eq hcount.symm)]
    exact beaconPart_getD h9
  · rw [List.getD_append_right _ _ _ _ (hcount.trans_le h9), hcount, restOf_eq]
    obtain rfl | rfl : j = 9 ∨ j = 10 := by omega
    · rfl
    · rfl

/-- Settles O30: where the addressing fields are whole, the command ends with the slots of the chop. -/
theorem macChopResult : Obligations.MacChopResult := by
  intro s
  refine frameCommand (i := .macChop) (by decide) rfl rfl fun f _ hexec => ?_
  have haddr := macAddr_eq f
  split
  case isTrue h =>
    rw [if_pos h] at haddr
    rw [macChop, haddr] at hexec
    exact endsInError_of_finish hexec
  case isFalse h =>
    rw [if_neg h] at haddr
    have hchop := macChop_of_macAddr haddr
    obtain ⟨hoff, hfields⟩ := macChop_fields hchop
    rw [hchop] at hexec
    have hends := endsAs_of_finish_chop hexec hfields
    rwa [hoff] at hends

end Sys2Proof.Machine
end

section
/-! PROOF. The nonce of a secured MAC frame in closed form (`41_mac_codec.md` R108, R109). -/

namespace Sys2Proof.Machine

open Sys2Proof.Claims

variable {f : List Byte} {off n : Nat}

/-! ### `mac_nonce` -/

theorem slice_add_eq_map (h : off + n ≤ f.length) :
    slice f off (off + n) = (List.range n).map fun i => at' f (off + i) := by
  rw [slice, Nat.add_sub_cancel_left]
  refine List.ext_getElem (by simp; omega) fun i hi _ => ?_
  rw [List.length_take, List.length_drop] at hi
  rw [List.getElem_take, List.getElem_drop, List.getElem_map, List.getElem_range, at',
    List.getD_eq_getElem _ _ (by omega)]

theorem srcAddr_len (f : List Byte) : (macAddrOf f).srcAddr.len = srcWidth f := by
  change (rangeOf (fieldIf true _ (srcWidth f))).len = _
  rw [← rangeAt_eq, rangeAt_len]

/-- Only the extended source address has 8 bytes (R109). -/
theorem srcWidth_eq_eight : srcWidth f = 8 ↔ sam f = 3#2 := by
  unfold srcWidth
  rcases mode_cases (sam f) with h | h | ⟨h, h'⟩ <;> simp [*]

/-- The source address ends where the header ends. -/
theorem srcAddr_extended (h : sam f = 3#2) :
    ∃ off, macHeaderEnd f = off + 8 ∧ (macAddrOf f).srcAddr.off = off := by
  have hw : srcWidth f = 8 := srcWidth_eq_eight.mpr h
  refine ⟨3 + dstWidth f + 2 * ind (hasSrcPan f), by rw [macHeaderEnd, hw], ?_⟩
  change (rangeOf (fieldIf true _ (srcWidth f))).off = _
  rw [hw]
  rfl

/-- The nonce of a frame with an extended source address and five bytes behind the header (R108). -/
theorem nonce_slices (h : off + 13 ≤ f.length) :
    (slice f off (off + 8)).reverse ++ (slice f (off + 9) (off + 13)).reverse ++ slice f (off + 8) (off + 9) =
      nonceBytes f (off + 8) := by
  rw [slice_add_eq_map (by omega), slice_add_eq_map (n := 4) (by omega), slice_add_eq_map (n := 1) (by omega)]
  rfl

/-- `mac_nonce` in closed form (R109). -/
theorem macNonce_eq (f : List Byte) :
    macNonce f =
      if f.length < 3 then .error .tooShort
      else if sec f = false then .ok []
      else if f.length < macHeaderEnd f then .error .tooShort
      else if sam f ≠ 3#2 ∨ f.length < macHeaderEnd f + 5 then .ok []
      else .ok (nonceBytes f (macHeaderEnd f)) := by
  simp only [macNonce, fcfSec_macFcf, Bool.not_eq_true']
  split
  · rfl
  next hmin =>
  split
  · rfl
  rw [macAddr_eq]
  simp only [hmin, false_or]
  split
  · rfl
  next hend =>
  change (if _ then _ else _) = _
  have hrest : f.length - macHeaderEnd f < 5 ↔ f.length < macHeaderEnd f + 5 := by omega
  simp only [Bool.or_eq_true, decide_eq_true_eq, macAddrOf_off, srcAddr_len, ne_eq, srcWidth_eq_eight, hrest]
  split
  · rfl
  next hnonce =>
  rw [not_or, not_not, not_lt] at hnonce
  obtain ⟨hsam, hlen⟩ := hnonce
  obtain ⟨off, hoff, haddr⟩ := srcAddr_extended hsam
  rw [hoff] at hlen ⊢
  rw [haddr, nonce_slices hlen]

/-- Settles O31: the command ends as the closed form of `mac_nonce` says, and a nonce fits into OUT. -/
theorem macNonceResult : Obligations.MacNonceResult := by
  intro s
  refine frameCommand (i := .macNonce) (by decide) rfl rfl fun f _ hexec => ?_
  rw [macNonce_eq] at hexec
  split_ifs at hexec ⊢
  · exact endsInError_of_finish hexec
  · exact endsWithBytes_of_finish hexec (Nat.zero_le _)
  · exact endsInError_of_finish hexec
  · exact endsWithBytes_of_finish hexec (Nat.zero_le _)
  · exact endsWithBytes_of_finish hexec (by simp [nonceBytes])

end Sys2Proof.Machine
end

section
/-! PROOF. Optional fields in closed form, as the NWK and the APS codec take them (`42_nwk_codec.md` R123,
`43_aps_codec.md` R140): the range and the end of one field, and of a chop that goes on behind it. -/

namespace Sys2Proof.Machine

open Sys2Proof.Claims

variable {f : List Byte} {p : Bool} {off off' w w' : Nat} {r : Range} {rs : List Range}

/-- An announced field takes its width if it fits, any other field takes nothing. -/
theorem takeField_eq (hoff : off ≤ f.length) :
    takeField f p off w = if f.length < off + w * ind p then .error .tooShort
      else .ok (rangeOf (fieldIf p off w), off + w * ind p) := by
  cases p
  · rw [ind, if_neg Bool.false_ne_true, Nat.mul_zero, Nat.add_zero, if_neg hoff.not_gt]
    rfl
  · rw [ind, if_pos rfl, Nat.mul_one, takeField, if_pos rfl, rangeAt_eq]

/-- The width of a field that is not announced does not matter. -/
theorem takeField_congr_width (h : p = true → w = w') : takeField f p off w = takeField f p off w' := by
  cases p
  · rfl
  · rw [h rfl]

/-- A chop that goes on behind a field and needs `need` bytes in all needs no more for the field. -/
theorem takeField_bind {α : Type} {k : Range × Nat → Except ErrorStatus α} {a : α} {next need : Nat}
    (hoff : off ≤ f.length) (hnext : next = off + w * ind p) (hneed : next ≤ need)
    (hk : next ≤ f.length →
      k (rangeOf (fieldIf p off w), next) = if f.length < need then .error .tooShort else .ok a) :
    (takeField f p off w >>= k) = if f.length < need then .error .tooShort else .ok a := by
  rw [takeField_eq hoff, ← hnext]
  split
  next hcut => rw [if_pos (hcut.trans_le hneed)]; rfl
  next hfits => exact hk (Nat.not_lt.mp hfits)

/-- A field covers the bytes from where it is taken to where the next one is. -/
theorem takeField_covers (h : takeField f p off w = .ok (r, off')) :
    coversFrom off (r :: rs) = coversFrom off' rs := by
  unfold takeField at h
  split at h
  · split at h <;> cases h
    exact coversFrom_rangeAt
  · cases h
    exact coversFrom_absent

end Sys2Proof.Machine
end

section
/-! PROOF. The NWK codec in closed form (`42_nwk_codec.md` R123 to R125), its three commands (R127 to R129), and that
the slots partition the frame (R130). -/

namespace Sys2Proof.Machine

open Sys2Proof.Claims

variable {f : List Byte}

/-! ### The frame control field by its two bytes (R120) -/

theorem nfcMulticast_nwkNfc (f : List Byte) : nfcMulticast (nwkNfc f) = mc f := BitVec.getLsbD_append

theorem nfcSourceRoute_nwkNfc (f : List Byte) : nfcSourceRoute (nwkNfc f) = sr f := BitVec.getLsbD_append

theorem nfcExtDest_nwkNfc (f : List Byte) : nfcExtDest (nwkNfc f) = xd f := BitVec.getLsbD_append

theorem nfcExtSource_nwkNfc (f : List Byte) : nfcExtSource (nwkNfc f) = xs f := BitVec.getLsbD_append

/-! ### `nwk_chop` -/

/-- The fields are the ranges of SLOT[0..11] (R124), and the header ends where R125 says. -/
def nwkChopOf (f : List Byte) : Chop where
  fields := (List.range 12).map fun k => rangeOf (nwkSlots f k)
  off := nwkHeaderLength f

theorem nwkChopOf_getD {k : Nat} (hk : k < 17) :
    (nwkChopOf f).fields.getD k Range.absent = rangeOf (nwkSlots f k) := by
  interval_cases k <;> rfl

/-- The source-route subframe ends where its three fields do (R121). -/
theorem nwkHeaderLength_eq (f : List Byte) :
    nwkHeaderLength f = countAt f + ind (sr f) + ind (sr f) + relayWidth f * ind (sr f) := by
  rw [nwkHeaderLength]
  ring

/-- The fields as `nwk_chop` takes them one behind the other: the source-route fields stand at fixed distances from
`count`, as they are announced together. -/
theorem nwkChopOf_fields (f : List Byte) : (nwkChopOf f).fields =
    [⟨0, 2⟩, ⟨2, 2⟩, ⟨4, 2⟩, ⟨6, 1⟩, ⟨7, 1⟩, rangeOf (fieldIf (xd f) 8 8),
      rangeOf (fieldIf (xs f) (8 + 8 * ind (xd f)) 8),
      rangeOf (fieldIf (mc f) (8 + 8 * ind (xd f) + 8 * ind (xs f)) 1),
      rangeOf (fieldIf (sr f) (countAt f) 1),
      rangeOf (fieldIf (sr f) (countAt f + ind (sr f)) 1),
      rangeOf (fieldIf (sr f) (countAt f + ind (sr f) + ind (sr f)) (relayWidth f)),
      restOf f (nwkHeaderLength f)] := by
  have hindex : fieldIf (sr f) (countAt f + ind (sr f)) 1 = nwkSlots f 9 := by
    change _ = fieldIf (sr f) (countAt f + 1) 1
    cases sr f <;> rfl
  have hrelays : fieldIf (sr f) (countAt f + ind (sr f) + ind (sr f)) (relayWidth f) = nwkSlots f 10 := by
    change _ = fieldIf (sr f) (countAt f + 2) (relayWidth f)
    cases sr f <;> rfl
  rw [hindex, hrelays, restOf_eq]
  rfl

/-- `nwk_chop` in closed form (R123). -/
theorem nwkChop_eq (f : List Byte) :
    nwkChop f = if f.length < 8 ∨ f.length < nwkHeaderLength f then .error .tooShort else .ok (nwkChopOf f) := by
  have hsum := nwkHeaderLength_eq f
  have hcount : countAt f = 8 + 8 * ind (xd f) + 8 * ind (xs f) + ind (mc f) := rfl
  unfold nwkChop
  simp only [nfcExtDest_nwkNfc, nfcExtSource_nwkNfc, nfcMulticast_nwkNfc, nfcSourceRoute_nwkNfc]
  by_cases hmin : f.length < 8
  · rw [if_pos hmin, if_pos (.inl hmin)]
  simp only [hmin, false_or, if_false]
  refine takeField_bind (Nat.not_lt.mp hmin) rfl (by omega) fun hxd => ?_
  refine takeField_bind hxd rfl (by omega) fun hxs => ?_
  refine takeField_bind (next := countAt f) hxs (by omega) (by omega) fun hmc => ?_
  refine takeField_bind (next := countAt f + ind (sr f)) hmc (by omega) (by omega) fun hcnt => ?_
  refine takeField_bind (next := countAt f + ind (sr f) + ind (sr f)) hcnt (by omega) (by omega) fun hidx => ?_
  have hwidth (hsr : sr f = true) :
      2 * (byteAt f (rangeOf (fieldIf (sr f) (countAt f) 1)).off).toNat = relayWidth f := by
    rw [hsr]
    rfl
  rw [takeField_congr_width hwidth]
  refine takeField_bind (next := nwkHeaderLength f) hidx hsum le_rfl fun hend => ?_
  rw [if_neg hend.not_gt, ← nwkChopOf_fields]
  rfl

/-- `nwk_hdrlen` in closed form (R125). -/
theorem nwkHdrlen_eq (f : List Byte) : nwkHdrlen f =
    if f.length < 8 ∨ f.length < nwkHeaderLength f then .error .tooShort else .ok (nwkHeaderLength f) := by
  rw [nwkHdrlen, nwkChop_eq]
  split <;> rfl

/-- `nwk_payloadlen` in closed form (R125). -/
theorem nwkPayloadlen_eq (f : List Byte) : nwkPayloadlen f =
    if f.length < 8 ∨ f.length < nwkHeaderLength f then .error .tooShort
    else .ok (f.length - nwkHeaderLength f) := by
  rw [nwkPayloadlen, nwkHdrlen_eq]
  split <;> rfl

/-- Each field of the chop starts where the one before it has ended (R123). -/
theorem nwkChop_covers {c : Chop} (h : nwkChop f = .ok c) : coversFrom 0 c.fields = some f.length := by
  obtain ⟨-, hend, -⟩ := nwkChop_ok h
  unfold nwkChop at h
  split at h
  · cases h
  obtain ⟨⟨_, _⟩, hdest, h⟩ := bind_ok h
  obtain ⟨⟨_, _⟩, hsource, h⟩ := bind_ok h
  obtain ⟨⟨_, _⟩, hmulticast, h⟩ := bind_ok h
  obtain ⟨⟨_, _⟩, hcount, h⟩ := bind_ok h
  obtain ⟨⟨_, _⟩, hindex, h⟩ := bind_ok h
  obtain ⟨⟨_, _⟩, hrelays, h⟩ := bind_ok h
  cases h
  simp only [coversFrom_next]
  rw [takeField_covers hdest, takeField_covers hsource, takeField_covers hmulticast, takeField_covers hcount,
    takeField_covers hindex, takeField_covers hrelays, coversFrom_restOf hend]

/-! ### NWK_HDRLEN, NWK_PAYLEN and NWK_CHOP -/

/-- Settles O35: the command ends as the closed form of `nwk_hdrlen` says. -/
theorem nwkHdrlenResult : Obligations.NwkHdrlenResult := by
  intro s
  refine frameCommand (i := .nwkHdrlen) (by decide) rfl rfl fun f _ hexec => ?_
  rw [nwkHdrlen_eq] at hexec
  split_ifs at hexec ⊢
  · exact endsInError_of_finish hexec
  · exact endsWithNumber_of_finish hexec

/-- Settles O36: the command ends as the closed form of `nwk_payloadlen` says. -/
theorem nwkPaylenResult : Obligations.NwkPaylenResult := by
  intro s
  refine frameCommand (i := .nwkPaylen) (by decide) rfl rfl fun f _ hexec => ?_
  rw [nwkPayloadlen_eq] at hexec
  split_ifs at hexec ⊢
  · exact endsInError_of_finish hexec
  · exact endsWithNumber_of_finish hexec

/-- Settles O37: the command ends with the slots of the closed form of `nwk_chop`. -/
theorem nwkChopResult : Obligations.NwkChopResult := by
  intro s
  refine frameCommand (i := .nwkChop) (by decide) rfl rfl fun f _ hexec => ?_
  rw [nwkChop_eq] at hexec
  split_ifs at hexec ⊢
  · exact endsInError_of_finish hexec
  · exact endsAs_of_finish_chop hexec fun _ => nwkChopOf_getD

/-- Settles O38: the fields cover the frame from 0 to its length, and the header ends within it. -/
theorem nwkChopPartitions : Obligations.NwkChopPartitions := by
  intro f c hc
  obtain ⟨-, hend, -⟩ := nwkChop_ok hc
  have hhdr : nwkHdrlen f = .ok c.off := by rw [nwkHdrlen, hc]; rfl
  refine ⟨partitions_of_coversFrom (nwkChop_covers hc), c.off, f.length - c.off, hhdr, ?_,
    Nat.add_sub_cancel' hend⟩
  rw [nwkPayloadlen, hhdr]
  rfl

end Sys2Proof.Machine
end

section
/-! PROOF. How a command ends that reports a number computed from the effective frame. -/

namespace Sys2Proof.Claims

open Sys2Proof.Machine

/-- A command that reports a number computed from EF, where the computation has the closed form `n` on the frames that
are not cut. -/
theorem numberCommand {i : Instr} {s : State} {number : List Byte → Except ErrorStatus Nat} {cut : List Byte → Prop}
    {n : List Byte → Nat} [DecidablePred cut] (hplain : i.opcode ∈ plainOpcodes) (hreads : i.reads = [.frame])
    (hbody : commandBody i s =
      effectiveFrame s.cfg (s.bytes .frame) >>= fun f => (number f).map scalarEffect)
    (hnumber : ∀ f, number f = if cut f then .error .tooShort else .ok (n f)) :
    ArgumentIsZero i.opcode i s ∧ CapacityChecked i s [.frame] ∧ FcsTooShort i s [.frame] ∧
      ∀ f, HasFrame s f → if cut f then EndsInError i s .tooShort else EndsWithNumber i s (n f) := by
  refine frameCommand hplain hreads hbody fun f _ hexec => ?_
  rw [hnumber] at hexec
  split_ifs at hexec ⊢
  · exact endsInError_of_finish hexec
  · exact endsWithNumber_of_finish hexec

end Sys2Proof.Claims
end

section
/-! PROOF. The APS codec in closed form (`43_aps_codec.md` R136 to R141), its three commands (R143 to R145), and that
the slots partition the frame (R147). -/

namespace Sys2Proof.Machine

open Sys2Proof.Claims

variable {f : List Byte}

/-! ### Which fields are present (R136, R138, R146) -/

/-- The reserved type 3 is read as Data, and no other type is (R146). -/
theorem apsType_eq_zero (afc : Byte) : apsType afc = 0#2 ↔ afcType afc = 0#2 ∨ afcType afc = 3#2 := by
  unfold apsType
  split <;> simp [*]

theorem apsType_eq_two (afc : Byte) : apsType afc = 2#2 ↔ afcType afc = 2#2 := by
  unfold apsType
  split <;> simp [*]

theorem apsHasAddr_eq (f : List Byte) : apsHasAddr (byteAt f 0) = hasAddr f := by
  simp only [apsHasAddr, apsType_eq_zero, apsType_eq_two, Bool.decide_or]
  rfl

theorem apsHasDst_eq (f : List Byte) : apsHasDst (byteAt f 0) = hasDst f := by
  rw [apsHasDst, apsHasAddr_eq]
  rfl

theorem apsHasGroup_eq (f : List Byte) : apsHasGroup (byteAt f 0) = hasGroup f := by
  rw [apsHasGroup, apsHasAddr_eq]
  rfl

/-- The four delivery modes, of which only indirect (1) may lack the source endpoint. -/
theorem delivery_source (m : BitVec 2) (b : Bool) :
    (decide (m ≠ 1#2) || b) = (m = 0#2 || m = 2#2 || m = 3#2 || (m = 1#2 && b)) := by
  revert m b
  decide

theorem apsHasSrc_eq (f : List Byte) : apsHasSrc (byteAt f 0) = hasSrc f := by
  rw [apsHasSrc, apsHasAddr_eq, delivery_source]
  rfl

/-- The source endpoint belongs to the addressing (R136). -/
theorem hasAddr_of_hasSrc (h : hasSrc f = true) : hasAddr f = true := Bool.and_elim_left h

/-- The block number belongs to the extended header (R138). -/
theorem ext_of_hasBlock (h : hasBlock f = true) : ext f = true := Bool.and_elim_left h

/-! ### `aps_chop` -/

/-- Where a field stands that is not present does not matter. -/
theorem fieldIf_congr_off {p : Bool} {off off' w : Nat} (h : p = true → off = off') :
    fieldIf p off w = fieldIf p off' w := by
  cases p
  · rfl
  · rw [h rfl]

/-- The fields are the ranges of SLOT[0..9] (R139), and the header ends where R141 says. -/
def apsChopOf (f : List Byte) : Chop where
  fields := (List.range 10).map fun k => rangeOf (apsSlots f k)
  off := apsHeaderLength f

theorem apsChopOf_getD {k : Nat} (hk : k < 17) :
    (apsChopOf f).fields.getD k Range.absent = rangeOf (apsSlots f k) := by
  interval_cases k <;> rfl

/-- The fields as `aps_chop` takes them one behind the other: profile id and source endpoint stand at fixed distances
from the cluster id, and the block number at one from the APS counter, as they are there only with these. -/
theorem apsChopOf_fields (f : List Byte) : (apsChopOf f).fields =
    [⟨0, 1⟩, rangeOf (fieldIf (hasDst f) 1 1),
      rangeOf (fieldIf (hasGroup f) (1 + ind (hasDst f)) 2),
      rangeOf (fieldIf (hasAddr f) (clusterAt f) 2),
      rangeOf (fieldIf (hasAddr f) (clusterAt f + 2 * ind (hasAddr f)) 2),
      rangeOf (fieldIf (hasSrc f) (clusterAt f + 4 * ind (hasAddr f)) 1),
      rangeOf (fieldIf true (counterAt f) 1),
      rangeOf (fieldIf (ext f) (counterAt f + 1) 1),
      rangeOf (fieldIf (hasBlock f) (counterAt f + 1 + ind (ext f)) 1),
      restOf f (apsHeaderLength f)] := by
  have hprofile : fieldIf (hasAddr f) (clusterAt f + 2 * ind (hasAddr f)) 2 = apsSlots f 4 :=
    fieldIf_congr_off fun h => by rw [h]; rfl
  have hsrc : fieldIf (hasSrc f) (clusterAt f + 4 * ind (hasAddr f)) 1 = apsSlots f 5 :=
    fieldIf_congr_off fun h => by rw [hasAddr_of_hasSrc h]; rfl
  have hblock : fieldIf (hasBlock f) (counterAt f + 1 + ind (ext f)) 1 = apsSlots f 8 :=
    fieldIf_congr_off fun h => by rw [ext_of_hasBlock h]; rfl
  rw [hprofile, hsrc, hblock, restOf_eq]
  rfl

/-- The block number is announced by the extended frame control, which stands behind the APS counter when it is
there (R138). -/
theorem hasBlock_eq (f : List Byte) :
    (ext f && xfcFragmented (byteAt f (rangeOf (fieldIf (ext f) (counterAt f + 1) 1)).off)) = hasBlock f := by
  rw [hasBlock]
  cases ext f <;> rfl

/-- `aps_chop` in closed form (R140). -/
theorem apsChop_eq (f : List Byte) :
    apsChop f = if f.length < 1 ∨ f.length < apsHeaderLength f then .error .tooShort else .ok (apsChopOf f) := by
  have hcluster : clusterAt f = 1 + ind (hasDst f) + 2 * ind (hasGroup f) := rfl
  have hcounter : counterAt f = clusterAt f + 4 * ind (hasAddr f) + ind (hasSrc f) := rfl
  have hsum : apsHeaderLength f = counterAt f + 1 + ind (ext f) + ind (hasBlock f) := rfl
  have hext : afcExt (byteAt f 0) = ext f := rfl
  unfold apsChop
  simp only [apsHasDst_eq, apsHasGroup_eq, apsHasAddr_eq, apsHasSrc_eq, hext]
  by_cases hmin : f.length < 1
  · rw [if_pos hmin, if_pos (.inl hmin)]
  simp only [hmin, false_or, if_false]
  refine takeField_bind (next := 1 + ind (hasDst f)) (Nat.not_lt.mp hmin) (by omega) (by omega) fun hdst => ?_
  refine takeField_bind (next := clusterAt f) hdst (by omega) (by omega) fun hgroup => ?_
  refine takeField_bind (next := clusterAt f + 2 * ind (hasAddr f)) hgroup rfl (by omega) fun hclu => ?_
  refine takeField_bind (next := clusterAt f + 4 * ind (hasAddr f)) hclu (by omega) (by omega) fun hprof => ?_
  refine takeField_bind (next := counterAt f) hprof (by omega) (by omega) fun hsrc => ?_
  refine takeField_bind (next := counterAt f + 1) hsrc rfl (by omega) fun hctr => ?_
  refine takeField_bind (next := counterAt f + 1 + ind (ext f)) hctr (by omega) (by omega) fun hxfc => ?_
  rw [hasBlock_eq]
  refine takeField_bind (next := apsHeaderLength f) hxfc (by omega) le_rfl fun hend => ?_
  rw [if_neg hend.not_gt, ← apsChopOf_fields]
  rfl

/-- `aps_hdrlen` in closed form (R141). -/
theorem apsHdrlen_eq (f : List Byte) : apsHdrlen f =
    if f.length < 1 ∨ f.length < apsHeaderLength f then .error .tooShort else .ok (apsHeaderLength f) := by
  rw [apsHdrlen, apsChop_eq]
  split <;> rfl

/-- `aps_payloadlen` in closed form (R141). -/
theorem apsPayloadlen_eq (f : List Byte) : apsPayloadlen f =
    if f.length < 1 ∨ f.length < apsHeaderLength f then .error .tooShort
    else .ok (f.length - apsHeaderLength f) := by
  rw [apsPayloadlen, apsHdrlen_eq]
  split <;> rfl

/-- Each field of the chop starts where the one before it has ended (R140). -/
theorem apsChop_covers {c : Chop} (h : apsChop f = .ok c) : coversFrom 0 c.fields = some f.length := by
  obtain ⟨-, hend, -⟩ := apsChop_ok h
  unfold apsChop at h
  split at h
  · cases h
  obtain ⟨⟨_, _⟩, hdst, h⟩ := bind_ok h
  obtain ⟨⟨_, _⟩, hgroup, h⟩ := bind_ok h
  obtain ⟨⟨_, _⟩, hcluster, h⟩ := bind_ok h
  obtain ⟨⟨_, _⟩, hprofile, h⟩ := bind_ok h
  obtain ⟨⟨_, _⟩, hsrc, h⟩ := bind_ok h
  obtain ⟨⟨_, _⟩, hcounter, h⟩ := bind_ok h
  obtain ⟨⟨_, _⟩, hxfc, h⟩ := bind_ok h
  obtain ⟨⟨_, _⟩, hblock, h⟩ := bind_ok h
  cases h
  rw [coversFrom_next, takeField_covers hdst, takeField_covers hgroup, takeField_covers hcluster,
    takeField_covers hprofile, takeField_covers hsrc, takeField_covers hcounter, takeField_covers hxfc,
    takeField_covers hblock, coversFrom_restOf hend]

/-! ### APS_HDRLEN, APS_PAYLEN and APS_CHOP -/

/-- Settles O39: the command reports the closed form of `aps_hdrlen`. -/
theorem apsHdrlenResult : Obligations.ApsHdrlenResult := fun _ =>
  numberCommand (i := .apsHdrlen) (by decide) rfl rfl apsHdrlen_eq

/-- Settles O40: the command reports the closed form of `aps_payloadlen`. -/
theorem apsPaylenResult : Obligations.ApsPaylenResult := fun _ =>
  numberCommand (i := .apsPaylen) (by decide) rfl rfl apsPayloadlen_eq

/-- Settles O41: the command ends with the slots of the closed form of `aps_chop`. -/
theorem apsChopResult : Obligations.ApsChopResult := by
  intro s
  refine frameCommand (i := .apsChop) (by decide) rfl rfl fun f _ hexec => ?_
  rw [apsChop_eq] at hexec
  split_ifs at hexec ⊢
  · exact endsInError_of_finish hexec
  · exact endsAs_of_finish_chop hexec fun _ => apsChopOf_getD

/-- Settles O42: the fields cover the frame from 0 to its length, and the header ends within it. -/
theorem apsChopPartitions : Obligations.ApsChopPartitions := by
  intro f c hc
  obtain ⟨-, hend, -⟩ := apsChop_ok hc
  have hhdr : apsHdrlen f = .ok c.off := by rw [apsHdrlen, hc]; rfl
  refine ⟨partitions_of_coversFrom (apsChop_covers hc), c.off, f.length - c.off, hhdr, ?_,
    Nat.add_sub_cancel' hend⟩
  rw [apsPayloadlen, hhdr]
  rfl

end Sys2Proof.Machine
end

section
/-! PROOF. AES-128 (`44_aes.md`): the printed S-box by the field (R153), the cipher on byte lists as the cipher on the
4 x 4 state (R151, R154 to R158), and the command AES_ENC (R160). -/

namespace Sys2Proof.Machine

open Sys2Proof.Claims

variable {s : State} {key block aux : List Byte} {m : Nat → Nat → Byte} {j k n : Nat}

/-! ### The S-box (R152, R153) -/

/-- The inverse of the affine map of R153. -/
def affineInv (y : Byte) : Byte := y.rotateLeft 1 ^^^ y.rotateLeft 3 ^^^ y.rotateLeft 6 ^^^ 0x05#8

theorem affine_affineInv (y : Byte) : affine (affineInv y) = y := by
  revert y
  decide

theorem affineInv_sbox_zero : affineInv (sbox 0#8) = 0#8 := by decide

/-- The bytes behind the affine map are the inverses in the field. -/
theorem fieldMul_affineInv_sbox (b : Byte) (hb : b ≠ 0#8) : fieldMul b (affineInv (sbox b)) = 1#8 := by
  revert b
  decide

/-- Settles O43: taking the affine map back from the table's entry gives the inverse in the field. -/
theorem sboxIsInverseThenAffine : Obligations.SboxIsInverseThenAffine := fun b =>
  ⟨affineInv (sbox b), (affine_affineInv _).symm, fun hb => hb ▸ affineInv_sbox_zero, fieldMul_affineInv_sbox b⟩

/-! ### The 4 x 4 state as a byte list (R151) -/

/-- The bytes of a 4 x 4 state, column by column. -/
def columns (m : Nat → Nat → Byte) : List Byte := (List.range 16).map fun i => m (i % 4) (i / 4)

theorem byteAt_columns {r c : Nat} (hr : r < 4) (hc : c < 4) : byteAt (columns m) (4 * c + r) = m r c := by
  have hi : 4 * c + r < 16 := by omega
  have hmod : (4 * c + r) % 4 = r := by omega
  have hdiv : (4 * c + r) / 4 = c := by omega
  simp [byteAt, columns, hi, hmod, hdiv]

theorem columns_at' (h : block.length = 16) : columns (fun r c => at' block (4 * c + r)) = block := by
  refine List.ext_getElem (by simp [columns, h]) fun i hi hb => ?_
  simp [columns, at', Nat.div_add_mod, hb]

/-! ### Round functions (R155 to R157) -/

theorem subBytes_columns : subBytes (columns m) = columns fun r c => sbox (m r c) := List.map_map

theorem shiftRows_columns : shiftRows (columns m) = columns fun r c => m r ((c + r) % 4) :=
  List.map_congr_left fun _ _ => byteAt_columns (by omega) (by omega)

theorem shiftRows_subBytes_columns : shiftRows (subBytes (columns m)) = columns (shifted m) := by
  rw [subBytes_columns, shiftRows_columns]
  rfl

/-- The two sides differ in the order of the four summands only. -/
theorem mixColumns_columns : mixColumns (columns m) = columns (mixed m) := by
  simp only [columns, mixed, List.range_succ, List.range_zero, List.nil_append, List.cons_append, List.map_cons,
    List.map_nil, mixColumns, Nat.reduceMod, Nat.reduceDiv, Nat.reduceAdd]
  ac_rfl

theorem xorBytes_columns {m' : Nat → Nat → Byte} :
    xorBytes (columns m) (columns m') = columns fun r c => m r c ^^^ m' r c := by
  simp [xorBytes, columns, List.zipWith_map]

/-! ### Key expansion (R154) -/

/-- Word `j` of the expanded key. -/
def keyWord (key : List Byte) (j : Nat) : List Byte := (List.range 4).map (keyByte key j)

/-- Four bytes in a row, one by one. -/
theorem slice_four {a : Nat} (h : a + 4 ≤ key.length) :
    slice key a (a + 4) = (List.range 4).map fun r => at' key (a + r) := by
  refine List.ext_getElem (by simp [slice]; omega) fun r _ hr => ?_
  rw [List.length_map, List.length_range] at hr
  have hin : a + r < key.length := by omega
  simp [slice, at', hin]

theorem keyWords_eq (h : key.length = 16) : keyWords key = (List.range 4).map (keyWord key) := by
  rw [keyWords, slice_four (a := 0) (by omega), slice_four (a := 4) (by omega), slice_four (a := 8) (by omega),
    slice_four (a := 12) (by omega)]
  rfl

theorem keyWord_turn (hj : (j + 4) % 4 = 0) : keyWord key (j + 4) =
    xorBytes (keyWord key j) (xorBytes (subWord (rotWord (keyWord key (j + 3)))) (rcon ((j + 4) / 4))) := by
  simp only [keyWord, keyByte, if_pos hj]
  simp [List.range_succ, xorBytes, subWord, rotWord, rcon]

theorem keyWord_plain (hj : (j + 4) % 4 ≠ 0) :
    keyWord key (j + 4) = xorBytes (keyWord key j) (keyWord key (j + 3)) := by
  simp only [keyWord, keyByte, if_neg hj, xorBytes, List.zipWith_map, List.zipWith_self]

theorem getD_keyWord (hj : j < n) : ((List.range n).map (keyWord key)).getD j [] = keyWord key j := by
  simp [hj]

/-- One turn of the loop of R154 appends the next word. -/
theorem expandStep_keyWord (hj : 4 ≤ j) :
    expandStep ((List.range j).map (keyWord key)) j = (List.range (j + 1)).map (keyWord key) := by
  obtain ⟨j, rfl⟩ := Nat.exists_eq_add_of_le' hj
  simp only [expandStep]
  rw [getD_keyWord (by omega), getD_keyWord (by omega), List.range_succ (n := j + 4), List.map_append,
    List.map_singleton]
  congr 2
  split
  case isTrue hturn => exact (keyWord_turn hturn).symm
  case isFalse hplain => exact (keyWord_plain hplain).symm

theorem expandKey_eq (h : key.length = 16) : expandKey key = (List.range 44).map (keyWord key) := by
  have main (n : Nat) : (List.range' 4 n).foldl expandStep (keyWords key) = (List.range (4 + n)).map (keyWord key) := by
    induction n with
    | zero => exact keyWords_eq h
    | succ n ih =>
      rw [List.range'_1_concat, List.foldl_append, ih]
      exact expandStep_keyWord (Nat.le_add_right 4 n)
  exact main 40

/-- Round key `k` as a 4 x 4 state: column `c` is word `4k + c`. -/
theorem roundKey_eq (h : key.length = 16) (hk : k ≤ 10) :
    roundKey (expandKey key) k = columns fun r c => keyByte key (4 * k + c) r := by
  rw [expandKey_eq h, roundKey, getD_keyWord (by omega), getD_keyWord (by omega), getD_keyWord (by omega),
    getD_keyWord (by omega)]
  rfl

/-! ### The cipher (R158) -/

theorem addRoundKey_columns (h : key.length = 16) (hk : k ≤ 10) : addRoundKey (expandKey key) k (columns m) =
    columns fun r c => m r c ^^^ keyByte key (4 * k + c) r := by
  rw [addRoundKey, roundKey_eq h hk, xorBytes_columns]

theorem addRoundKey_zero (hkey : key.length = 16) (hblock : block.length = 16) :
    addRoundKey (expandKey key) 0 block = columns (cipherState key block 0) := by
  have hadd := addRoundKey_columns (m := fun r c => at' block (4 * c + r)) hkey (Nat.zero_le 10)
  rw [columns_at' hblock] at hadd
  simp only [hadd, Nat.mul_zero, Nat.zero_add]
  rfl

theorem aesRound_columns (h : key.length = 16) (hk : k < 10) :
    aesRound (expandKey key) (columns (cipherState key block k)) (k + 1) = columns (cipherState key block (k + 1)) := by
  rw [aesRound, shiftRows_subBytes_columns, mixColumns_columns, addRoundKey_columns h hk]
  rfl

theorem rounds_columns (hkey : key.length = 16) (hblock : block.length = 16) (hn : n ≤ 10) :
    (List.range' 1 n).foldl (aesRound (expandKey key)) (addRoundKey (expandKey key) 0 block) =
      columns (cipherState key block n) := by
  induction n with
  | zero => exact addRoundKey_zero hkey hblock
  | succ n ih =>
    rw [List.range'_1_concat, List.foldl_append, ih (by omega), Nat.add_comm 1 n, List.foldl_cons, List.foldl_nil,
      aesRound_columns hkey hn]

theorem aesLastRound_columns (h : key.length = 16) :
    aesLastRound (expandKey key) (columns (cipherState key block 9)) = (List.range 16).map (cipherByte key block) := by
  rw [aesLastRound, shiftRows_subBytes_columns, addRoundKey_columns h le_rfl]
  rfl

/-- Settles O44: the list and the 4 x 4 state agree after the first round key, after each round, and at the end. -/
theorem aesIsTheMatrixCipher : Obligations.AesIsTheMatrixCipher := by
  intro key block hkey hblock
  unfold aesEnc
  dsimp only
  rw [rounds_columns hkey hblock (by decide), aesLastRound_columns hkey]

/-! ### AES_ENC (R160) -/

theorem aesEncBody_badKeyLength (h : key.length ≠ 16) : aesEncBody key aux = .error .badKeyLength := if_pos h

theorem aesEncBody_badPayloadLength (hkey : key.length = 16) (haux : aux.length ≠ 16) :
    aesEncBody key aux = .error .badPayloadLength := by
  rw [aesEncBody, if_neg (not_not.mpr hkey), if_pos haux]

theorem aesEncBody_ok (hkey : key.length = 16) (haux : aux.length = 16) :
    aesEncBody key aux = .ok { out := aesEnc key aux } := by
  rw [aesEncBody, if_neg (not_not.mpr hkey), if_neg (not_not.mpr haux)]

theorem exec_aesEnc_defined (hkey : s.value .key = some key) (haux : s.value .aux = some aux) :
    exec .aesEnc s = .next (finish (aesEncBody key aux) s) := by
  rw [exec_defined (i := .aesEnc) rfl (by simp) (by simp [Instr.reads, hkey, haux]), commandBody, State.bytes_eq hkey,
    State.bytes_eq haux]

/-- Settles O45: behind the checks of KEY's and then AUX's length, AES_ENC answers the encrypted block. -/
theorem aesEncResult : Obligations.AesEncResult := by
  intro s
  refine ⟨argumentIsZero_of_plain (i := .aesEnc) (by decide), capacityChecked rfl (by simp [Instr.reads]),
    fun key aux hkey haux => ?_⟩
  have hexec := exec_aesEnc_defined hkey haux
  split
  case isTrue hbad => exact endsInError_of_finish (by rw [hexec, aesEncBody_badKeyLength hbad])
  case isFalse hlen =>
    rw [not_not] at hlen
    split
    case isTrue hbad => exact endsInError_of_finish (by rw [hexec, aesEncBody_badPayloadLength hlen hbad])
    case isFalse hblock =>
      rw [aesEncBody_ok hlen (not_not.mp hblock)] at hexec
      exact endsWithBytes_of_finish hexec (aesEnc_length_le.trans (by omega))

end Sys2Proof.Machine
end

section
/-! PROOF. The CCM* core (`45_ccm_security.md` R165 to R175): counter mode byte by byte and undone by itself, the MIC in
closed form, and decryption after encryption. -/

namespace Sys2Proof.Machine

open Sys2Proof.Claims

variable {key nonce aad msg c d u : List Byte} {i n mic : Nat}

/-! ### Counter mode (R168, R173) -/

/-- The keystream grows by the next encrypted counter block. -/
theorem keystream_succ (key nonce : List Byte) (n : Nat) :
    keystream key nonce (n + 1) = keystream key nonce n ++ aesEnc key (counterBlock nonce (n + 1)) := by
  simp only [keystream, List.range'_1_concat, List.flatMap_append, List.flatMap_singleton, Nat.add_comm 1 n]

/-- Byte `i` of the keystream stands in the counter block of its number (R173). -/
theorem keystream_getElem? (hkey : key.length = 16) (hi : i < 16 * n) :
    (keystream key nonce n)[i]? = (aesEnc key (counterBlock nonce (i / 16 + 1)))[i % 16]? := by
  induction n with
  | zero => exact absurd hi (Nat.not_lt_zero i)
  | succ n ih =>
    rw [keystream_succ]
    rcases Nat.lt_or_ge i (16 * n) with hlt | hge
    · rw [List.getElem?_append_left (hlt.trans_eq (keystream_length hkey n).symm), ih hlt]
    · have hdiv : i / 16 = n := by omega
      have hmod : i - 16 * n = i % 16 := by omega
      rw [List.getElem?_append_right (by rwa [keystream_length hkey]), keystream_length hkey, hdiv, hmod]

/-- Settles O46: a byte of counter mode is the byte of the data and the byte of the keystream at its place. -/
theorem counterModeByByte : Obligations.CounterModeByByte := by
  intro key nonce d i hkey _ hi
  refine ⟨ctr_length hkey, ?_⟩
  have hblock : i % 16 < (aesEnc key (counterBlock nonce (i / 16 + 1))).length :=
    (Nat.mod_lt i (by decide)).trans_eq (aesEnc_length hkey).symm
  have hstream : (keystream key nonce ((d.length + 15) / 16))[i]? =
      some (at' (aesEnc key (counterBlock nonce (i / 16 + 1))) (i % 16)) := by
    rw [keystream_getElem? hkey (by omega), List.getElem?_eq_getElem hblock, at', List.getD_eq_getElem _ _ hblock]
  have hdata : d[i]? = some (at' d i) := by
    rw [List.getElem?_eq_getElem hi, at', List.getD_eq_getElem _ _ hi]
  rw [ctr, xorBytes, List.getElem?_zipWith, List.getElem?_take_of_lt hi, hstream, hdata]
  rfl

/-- The keystream depends on the length of the data only, so it cancels. -/
theorem ctr_ctr (hkey : key.length = 16) : ctr key nonce (ctr key nonce d) = d := by
  conv_lhs => rw [ctr, ctr_length hkey]
  refine xorBytes_cancel _ _ ?_
  rw [List.length_take, keystream_length hkey]
  omega

/-! ### The MIC in closed form (R167, R169 to R173) -/

theorem b0Flags_eq (hm : mic = 4 ∨ mic = 8 ∨ mic = 16) : b0Flags aad.length mic = macFlags aad mic := by
  unfold b0Flags macFlags
  rcases Nat.eq_zero_or_pos aad.length with h | h
  · rcases hm with rfl | rfl | rfl <;> simp [h]
  · rcases hm with rfl | rfl | rfl <;> simp [h, Nat.ne_of_gt h]

theorem pad16_eq (b : List Byte) : pad16 b = padded b := by
  have hfill : (16 - b.length % 16) % 16 = 16 * ((b.length + 15) / 16) - b.length := by omega
  rw [pad16, padded, zeros, hfill]

theorem authBlocks_eq (hm : mic = 4 ∨ mic = 8 ∨ mic = 16) :
    authBlocks nonce aad msg mic = macText nonce aad msg mic := by
  simp only [authBlocks, b0Block, b0Flags_eq hm, aadBlocks, messageBlocks, pad16_eq]
  rfl

theorem foldl_cbcStep (key b : List Byte) (n : Nat) :
    (List.range n).foldl (cbcStep key b) (zeros 16) = macChain key b n := by
  induction n with
  | zero => rfl
  | succ n ih =>
    rw [List.range_succ, List.foldl_append, ih, List.foldl_cons, List.foldl_nil, cbcStep, slice,
      Nat.add_sub_cancel_left]
    rfl

theorem cbcMac_eq (hm : mic = 4 ∨ mic = 8 ∨ mic = 16) :
    cbcMac key nonce aad msg mic = macTag key nonce aad msg mic := by
  simp only [cbcMac, authBlocks_eq hm, foldl_cbcStep]
  rfl

theorem s0_take : (s0 key nonce).take mic = tagMask key nonce mic := rfl

/-! ### Encryption and decryption (R174, R175) -/

/-- `ccm_encrypt` in closed form (R174). -/
theorem ccmEncrypt_eq (hm : mic = 4 ∨ mic = 8 ∨ mic = 16) : ccmEncrypt key nonce aad msg mic =
    ctr key nonce msg ++ xorBytes (macTag key nonce aad msg mic) (tagMask key nonce mic) := by
  rw [ccmEncrypt, cbcMac_eq hm, s0_take]

/-- `ccm_decrypt` in closed form (R175). -/
theorem ccmDecrypt_eq (hu : u.length = mic) (hm : mic = 4 ∨ mic = 8 ∨ mic = 16) : ccmDecrypt key nonce aad c u =
    if xorBytes (tagMask key nonce mic) u = macTag key nonce aad (ctr key nonce c) mic then .ok (ctr key nonce c)
    else .error .authenticationFailure := by
  subst hu
  rw [ccmDecrypt, cbcMac_eq hm, s0_take]

/-- The MIC that encryption appends to the ciphertext (R174). -/
def sealedTag (key nonce aad msg : List Byte) (mic : Nat) : List Byte :=
  xorBytes (cbcMac key nonce aad msg mic) ((s0 key nonce).take mic)

theorem ccmEncrypt_eq_append :
    ccmEncrypt key nonce aad msg mic = ctr key nonce msg ++ sealedTag key nonce aad msg mic := rfl

theorem sealedTag_length (hkey : key.length = 16) (hm : mic ≤ 16) :
    (sealedTag key nonce aad msg mic).length = mic := by
  rw [sealedTag, xorBytes_length, cbcMac_length hkey hm, List.length_take, s0_length hkey]
  omega

theorem ccmEncrypt_length (hkey : key.length = 16) (hm : mic ≤ 16) :
    (ccmEncrypt key nonce aad msg mic).length = msg.length + mic := by
  rw [ccmEncrypt_eq_append, List.length_append, ctr_length hkey, sealedTag_length hkey hm]

/-- The two parts that encryption makes decrypt to the message: the keystream cancels in the ciphertext and `S0` in the
MIC (R184). -/
theorem ccmDecrypt_sealed (hkey : key.length = 16) (hm : mic ≤ 16) :
    ccmDecrypt key nonce aad (ctr key nonce msg) (sealedTag key nonce aad msg mic) = .ok msg := by
  have htag : xorBytes ((s0 key nonce).take mic) (sealedTag key nonce aad msg mic) = cbcMac key nonce aad msg mic := by
    rw [xorBytes_comm]
    refine xorBytes_cancel _ _ ?_
    rw [cbcMac_length hkey hm, List.length_take, s0_length hkey]
    omega
  rw [ccmDecrypt, ctr_ctr hkey, sealedTag_length hkey hm, htag]
  exact if_pos rfl

theorem ccmEncrypt_take (hkey : key.length = 16) :
    (ccmEncrypt key nonce aad msg mic).take msg.length = ctr key nonce msg := by
  rw [ccmEncrypt_eq_append, List.take_left' (ctr_length hkey)]

theorem ccmEncrypt_drop (hkey : key.length = 16) :
    (ccmEncrypt key nonce aad msg mic).drop msg.length = sealedTag key nonce aad msg mic := by
  rw [ccmEncrypt_eq_append, List.drop_left' (ctr_length hkey)]

/-- Settles O47: the cut at the message's length gives back the two parts of the encryption. -/
theorem ccmRoundTrip : Obligations.CcmRoundTrip := by
  intro key nonce aad msg mic hkey _ hm
  refine ⟨ccmEncrypt_length hkey hm, ?_⟩
  rw [ccmEncrypt_take hkey, ccmEncrypt_drop hkey, ccmDecrypt_sealed hkey hm]

end Sys2Proof.Machine
end

section
/-! PROOF. What a command leaves for the next one: the buffers it does not write, CFG, and OUT or the buffer it
replaces. -/

namespace Sys2Proof.Claims

open Sys2Proof.Machine

variable {i : Instr} {s t : State} {b : Buf} {st res : Half} {slots : Vector Slot Config.nslot}
  {bytes out : List Byte}

/-- An `Ok` end with bytes in OUT, as the next command sees it. -/
theorem EndsAs.exists_next (h : EndsAs i s st res slots out) (hl : out.length ≤ 127) :
    ∃ t, exec i s = .next t ∧ t.status = st ∧ t.value .out = some out ∧ Kept [.out] s t := by
  obtain ⟨t, ht, hrec, hkept⟩ := h
  exact ⟨t, ht, hrec.status, hrec.value_out hl, hkept⟩

/-- The next state of an `Ok` end with bytes in OUT. -/
theorem EndsAs.of_next (h : EndsAs i s st res slots out) (ht : exec i s = .next t) (hl : out.length ≤ 127) :
    t.value .out = some out ∧ Kept [.out] s t := by
  obtain ⟨t', ht', -, hout, hkept⟩ := h.exists_next hl
  cases ht.symm.trans ht'
  exact ⟨hout, hkept⟩

/-- An `Ok` end that replaces an operand buffer, as the next command sees it. -/
theorem EndsReplacing.exists_next (h : EndsReplacing i s b bytes) :
    ∃ t, exec i s = .next t ∧ t.value b = some bytes ∧ Kept [b, .out] s t := by
  obtain ⟨t, ht, -, hkept, hval, -⟩ := h
  exact ⟨t, ht, hval, hkept⟩

end Sys2Proof.Claims
end

section
/-! PROOF. The commands CCM_ENC and CCM_DEC (`45_ccm_security.md` R176, R177), and that the second undoes the first
(R184). -/

namespace Sys2Proof.Machine

open Sys2Proof.Claims

variable {s : State} {m : Byte} {mic : Nat} {key nonce aad aux p : List Byte}

/-! ### The bodies in closed form -/

theorem slice_zero_eq_take (b : List Byte) (n : Nat) : slice b 0 n = b.take n := by
  rw [slice, List.drop_zero, Nat.sub_zero]

theorem slice_length_eq_drop (b : List Byte) (n : Nat) : slice b n b.length = b.drop n := by
  rw [slice, ← List.length_drop, List.take_length]

/-- `ccm_enc` in closed form (R176). -/
theorem ccmEncBody_eq (hm : mic = 4 ∨ mic = 8 ∨ mic = 16) : ccmEncBody mic key nonce aad aux =
    if key.length ≠ 16 then .error .badKeyLength
    else if nonce.length ≠ 13 then .error .noNonce
    else if 127 < aux.length + mic then .error .frameTooLong
    else .ok { out := ctr key nonce aux ++ xorBytes (macTag key nonce aad aux mic) (tagMask key nonce mic) } := by
  rw [ccmEncBody, ccmEncrypt_eq hm]

/-- `ccm_dec` in closed form (R177). -/
theorem ccmDecBody_eq (hm : mic = 4 ∨ mic = 8 ∨ mic = 16) : ccmDecBody mic key nonce aad aux =
    let c := aux.take (aux.length - mic)
    let u := aux.drop (aux.length - mic)
    if key.length ≠ 16 then .error .badKeyLength
    else if nonce.length ≠ 13 then .error .noNonce
    else if aux.length < mic then .error .badPayloadLength
    else if xorBytes (tagMask key nonce mic) u = macTag key nonce aad (ctr key nonce c) mic then
      .ok (plaintextEffect (ctr key nonce c))
    else .error .authenticationFailure := by
  rw [ccmDecBody, slice_zero_eq_take, slice_length_eq_drop]
  split
  · rfl
  split
  · rfl
  split
  · rfl
  next hlen =>
  rw [ccmDecrypt_eq (by rw [List.length_drop]; omega) hm]
  dsimp only
  split_ifs <;> rfl

/-! ### The two commands -/

theorem legalMic_iff : legalMic m = true ↔ m = 4#8 ∨ m = 8#8 ∨ m = 16#8 := by
  simp only [legalMic, Bool.or_eq_true, decide_eq_true_eq, or_assoc]

theorem legalMic_false (h4 : m ≠ 4#8) (h8 : m ≠ 8#8) (h16 : m ≠ 16#8) : legalMic m = false := by
  simp only [legalMic, h4, h8, h16, decide_false, Bool.or_false]

theorem toNat_of_legalMic (h : m = 4#8 ∨ m = 8#8 ∨ m = 16#8) : m.toNat = 4 ∨ m.toNat = 8 ∨ m.toNat = 16 := by
  rcases h with rfl | rfl | rfl <;> decide

theorem exec_ccmEnc_defined (hm : legalMic m = true) (hkey : s.value .key = some key)
    (hnonce : s.value .nonce = some nonce) (haad : s.value .aad = some aad) (haux : s.value .aux = some aux) :
    exec (.ccmEnc m) s = .next (finish (ccmEncBody m.toNat key nonce aad aux) s) := by
  rw [exec_defined (i := .ccmEnc m) hm (by simp) (by simp [Instr.reads, hkey, hnonce, haad, haux]), commandBody,
    State.bytes_eq hkey, State.bytes_eq hnonce, State.bytes_eq haad, State.bytes_eq haux]

theorem exec_ccmDec_defined (hm : legalMic m = true) (hkey : s.value .key = some key)
    (hnonce : s.value .nonce = some nonce) (haad : s.value .aad = some aad) (haux : s.value .aux = some aux) :
    exec (.ccmDec m) s = .next (finish (ccmDecBody m.toNat key nonce aad aux) s) := by
  rw [exec_defined (i := .ccmDec m) hm (by simp) (by simp [Instr.reads, hkey, hnonce, haad, haux]), commandBody,
    State.bytes_eq hkey, State.bytes_eq hnonce, State.bytes_eq haad, State.bytes_eq haux]

theorem statusWord_authOk_set : statusWord okCode false true = 0x0050#16 := by decide

/-- An `Ok` end that answers a plaintext sets AUTH_OK. -/
theorem endsAs_of_finish_plaintext {i : Instr} (h : exec i s = .next (finish (.ok (plaintextEffect p)) s))
    (hl : p.length ≤ 127) : EndsAs i s 0x0050#16 0x0000#16 noSlots p := by
  have hends := endsAs_of_finish h rfl hl
  simp only [plaintextEffect, statusWord_authOk_set, slotsOf_nil] at hends
  exact hends

/-- Settles O48: the command ends as the closed form of its body says, and what fits below the bound fits into OUT. -/
theorem ccmEncResult : Obligations.CcmEncResult := by
  intro s m
  refine ⟨decode_encode (.ccmEnc m), fun h4 h8 h16 => endsInError_illegal (legalMic_false h4 h8 h16), fun hm => ?_⟩
  have hlegal := legalMic_iff.mpr hm
  have hmic := toNat_of_legalMic hm
  refine ⟨capacityChecked hlegal (by simp [Instr.reads]), fun key nonce aad aux hkey hnonce haad haux => ?_⟩
  have hexec := exec_ccmEnc_defined hlegal hkey hnonce haad haux
  rw [ccmEncBody_eq hmic] at hexec
  split_ifs at hexec ⊢ with _ _ hlong
  · exact endsInError_of_finish hexec
  · exact endsInError_of_finish hexec
  · exact endsInError_of_finish hexec
  · refine endsWithBytes_of_finish hexec ?_
    rw [← ccmEncrypt_eq hmic]
    exact ccmEncrypt_length_le.trans (by omega)

/-- Settles O49: the command ends as the closed form of its body says, and the plaintext is no longer than AUX. -/
theorem ccmDecResult : Obligations.CcmDecResult := by
  intro s m
  refine ⟨decode_encode (.ccmDec m), fun h4 h8 h16 => endsInError_illegal (legalMic_false h4 h8 h16), fun hm => ?_⟩
  have hlegal := legalMic_iff.mpr hm
  refine ⟨capacityChecked hlegal (by simp [Instr.reads]), fun key nonce aad aux hkey hnonce haad haux => ?_⟩
  have hexec := exec_ccmDec_defined hlegal hkey hnonce haad haux
  have hcap : aux.length ≤ 127 := State.value_length_le haux
  rw [ccmDecBody_eq (toNat_of_legalMic hm)] at hexec
  dsimp only at hexec ⊢
  split_ifs at hexec ⊢
  · exact endsInError_of_finish hexec
  · exact endsInError_of_finish hexec
  · exact endsInError_of_finish hexec
  · exact endsAs_of_finish_plaintext hexec (ctr_length_le.trans ((List.length_take_le _ _).trans (by omega)))
  · exact endsInError_of_finish hexec

/-! ### CCM_DEC undoes CCM_ENC (R184) -/

theorem ccmEncBody_ok (hkey : key.length = 16) (hnonce : nonce.length = 13) (hfit : p.length + mic ≤ 127) :
    ccmEncBody mic key nonce aad p = .ok { out := ccmEncrypt key nonce aad p mic } := by
  rw [ccmEncBody, if_neg (not_not.mpr hkey), if_neg (not_not.mpr hnonce), if_neg (Nat.not_lt.mpr hfit)]

theorem ccmDecBody_ccmEncrypt (hkey : key.length = 16) (hnonce : nonce.length = 13) (hm : mic ≤ 16) :
    ccmDecBody mic key nonce aad (ccmEncrypt key nonce aad p mic) = .ok (plaintextEffect p) := by
  have hlen := ccmEncrypt_length (key := key) (nonce := nonce) (aad := aad) (msg := p) hkey hm
  rw [ccmDecBody, if_neg (not_not.mpr hkey), if_neg (not_not.mpr hnonce), if_neg (by omega), hlen, Nat.add_sub_cancel,
    slice_zero_eq_take, ← hlen, slice_length_eq_drop, ccmEncrypt_take hkey, ccmEncrypt_drop hkey,
    ccmDecrypt_sealed hkey hm]
  rfl

theorem exec_movoa (h : s.value .out = some p) : EndsReplacing .movoa s .aux p :=
  endsReplacing_movesOut rfl (by simp) rfl h

/-- Settles O50: MOVOA brings the encryption to AUX and leaves the other operands, on which CCM_DEC then returns the
plaintext. -/
theorem ccmCommandsRoundTrip : Obligations.CcmCommandsRoundTrip := by
  intro s m key nonce aad p hm hkey hkeyLen hnonce hnonceLen haad haux hfit
  have hlegal := legalMic_iff.mpr hm
  have hmic : m.toNat ≤ 16 := by have := toNat_of_legalMic hm; omega
  have henc := exec_ccmEnc_defined hlegal hkey hnonce haad haux
  rw [ccmEncBody_ok hkeyLen hnonceLen hfit] at henc
  have hout : (ccmEncrypt key nonce aad p m.toNat).length ≤ 127 := ccmEncrypt_length_le.trans hfit
  obtain ⟨t₁, h₁, -, hout₁, hkept₁⟩ := (endsWithBytes_of_finish henc hout).exists_next hout
  obtain ⟨t₂, h₂, haux₂, hkept₂⟩ := (exec_movoa hout₁).exists_next
  have hsame (b : Buf) (hb : b ≠ .aux) (hb' : b ≠ .out) : t₂.value b = s.value b :=
    (hkept₂.value (by simp [hb, hb'])).trans (hkept₁.value (by simpa using hb'))
  have hdec := exec_ccmDec_defined hlegal ((hsame .key (by simp) (by simp)).trans hkey)
    ((hsame .nonce (by simp) (by simp)).trans hnonce) ((hsame .aad (by simp) (by simp)).trans haad) haux₂
  rw [ccmDecBody_ccmEncrypt hkeyLen hnonceLen hmic] at hdec
  have hp : p.length ≤ 127 := by omega
  obtain ⟨t₃, h₃, hstatus, hout₃, -⟩ := (endsAs_of_finish_plaintext hdec hp).exists_next hp
  exact ⟨t₁, t₂, t₃, h₁, h₂, h₃, hstatus, hout₃⟩

end Sys2Proof.Machine
end

section
/-! PROOF. The frame-level security transform (`45_ccm_security.md` R178, R179) and the commands SEC_DECRYPT and
SEC_ENCRYPT (R180, R181). -/

namespace Sys2Proof.Machine

open Sys2Proof.Claims

variable {s : State} {f : List Byte} {x : Effect} {r r' : Ending} {keyLen need : Nat}

/-! ### The common checks (R179) -/

/-- The common checks in their order (R179, `60_exceptions.md` R206), and behind them the rest of the command. -/
def afterChecks (f : List Byte) (keyLen need : Nat) (rest : Ending) : Ending :=
  if f.length < 9 ∨ f.length < macHeaderEnd f then .error .tooShort
  else if sec f = false then .error .unsupportedSecurityLevel
  else if f.length = macHeaderEnd f then .error .badPayloadLength
  else if at' f (macHeaderEnd f) ≠ 0x06#8 then .error .unsupportedSecurityLevel
  else if f.length < macHeaderEnd f + need then .error .badPayloadLength
  else if keyLen ≠ 16 then .error .badKeyLength
  else rest

/-- What the common checks let pass (R179). -/
structure PassesChecks (f : List Byte) (keyLen need : Nat) : Prop where
  length : 9 ≤ f.length
  sec : sec f = true
  level : at' f (macHeaderEnd f) = 0x06#8
  payload : macHeaderEnd f + need ≤ f.length
  key : keyLen = 16

theorem afterChecks_of_passes (h : PassesChecks f keyLen need) (hneed : 0 < need) :
    afterChecks f keyLen need r = r := by
  obtain ⟨hlen, hsec, hlevel, hpayload, hkey⟩ := h
  rw [afterChecks, if_neg (by omega), if_neg (by simp [hsec]), if_neg (by omega), if_neg (not_not.mpr hlevel),
    if_neg (by omega), if_neg (not_not.mpr hkey)]

/-- The rest of the command matters only where the checks pass. -/
theorem afterChecks_congr (h : PassesChecks f keyLen need → r = r') :
    afterChecks f keyLen need r = afterChecks f keyLen need r' := by
  unfold afterChecks
  split_ifs with hlen hsec _ hlevel hpayload hkey
  case neg =>
    exact h ⟨by omega, Bool.eq_true_of_not_eq_false hsec, not_not.mp hlevel, by omega, not_not.mp hkey⟩
  all_goals rfl

/-- An `Ok` end has passed the checks. -/
theorem afterChecks_ok (h : afterChecks f keyLen need r = .ok x) : PassesChecks f keyLen need ∧ r = .ok x := by
  by_cases hp : PassesChecks f keyLen need
  · refine ⟨hp, ?_⟩
    unfold afterChecks at h
    split_ifs at h
    exact h
  · rw [afterChecks_congr (r' := .error .tooShort) fun h => absurd h hp, afterChecks] at h
    split_ifs at h

theorem byteAt_eq_at' (f : List Byte) (i : Nat) : byteAt f i = at' f i := rfl

/-- `sec_parse` in closed form (R179): what goes on from `H` stands behind the checks. -/
theorem secParse_bind (k : Nat → Ending) :
    secParse f keyLen need >>= k = afterChecks f keyLen need (k (macHeaderEnd f)) := by
  rw [secParse, afterChecks, macAddr_eq]
  by_cases hmin : f.length < 9
  · rw [if_pos hmin, if_pos (.inl hmin)]
    rfl
  have hfixed : ¬ f.length < 3 := by omega
  simp only [hmin, hfixed, false_or, if_false]
  by_cases hend : f.length < macHeaderEnd f
  · rw [if_pos hend, if_pos hend]
    rfl
  have hempty : f.length - macHeaderEnd f = 0 ↔ f.length = macHeaderEnd f := by omega
  have hneed : f.length - macHeaderEnd f < need ↔ f.length < macHeaderEnd f + need := by omega
  rw [if_neg hend, if_neg hend]
  change (if _ then _ else _ : Except ErrorStatus Nat) >>= k = _
  simp only [fcfSec_macFcf, Bool.not_eq_true', macAddrOf_off, byteAt_eq_at', hempty, hneed]
  split_ifs <;> rfl

/-- The nonce of a frame that passes the checks with a whole security header in its payload (R180, R181). -/
theorem secNonce_eq (h : PassesChecks f keyLen need) (hneed : 6 ≤ need) :
    secNonce f = if sam f ≠ 3#2 then .error .noNonce else .ok (nonceBytes f (macHeaderEnd f)) := by
  have hlen := h.length
  have hpayload := h.payload
  rw [secNonce, macNonce_eq, if_neg (by omega), if_neg (by simp [h.sec]), if_neg (by omega)]
  by_cases hsam : sam f ≠ 3#2
  · rw [if_pos hsam, if_pos (.inl hsam)]
    rfl
  · rw [if_neg hsam, if_neg (by rw [not_or]; exact ⟨hsam, by omega⟩)]
    rfl

theorem secAad_eq (f : List Byte) (h : Nat) : secAad f h = f.take (h + 6) := slice_zero_eq_take f _

/-! ### The bodies in closed form -/

/-- `sec_decrypt` in closed form (R180). -/
theorem secDecryptBody_eq (f key : List Byte) : secDecryptBody f key =
    afterChecks f key.length 15
      (if sam f ≠ 3#2 then .error .noNonce
      else (ccmDecrypt key (nonceBytes f (macHeaderEnd f)) (f.take (macHeaderEnd f + 6))
        ((f.drop (macHeaderEnd f + 6)).take (f.length - 8 - (macHeaderEnd f + 6)))
        (f.drop (f.length - 8))).map plaintextEffect) := by
  rw [secDecryptBody, secParse_bind]
  refine afterChecks_congr fun h => ?_
  rw [secNonce_eq h (by decide), secAad_eq, slice_length_eq_drop]
  split <;> rfl

/-- `sec_encrypt` in closed form (R181). -/
theorem secEncryptBody_eq (f aux key : List Byte) : secEncryptBody f aux key =
    afterChecks f key.length 6
      (if aux.length = 0 then .error .badPayloadLength
      else if 127 < macHeaderEnd f + 6 + aux.length + 8 then .error .frameTooLong
      else if sam f ≠ 3#2 then .error .noNonce
      else .ok { out := ccmEncrypt key (nonceBytes f (macHeaderEnd f)) (f.take (macHeaderEnd f + 6)) aux 8 }) := by
  rw [secEncryptBody, secParse_bind]
  refine afterChecks_congr fun h => ?_
  rw [secNonce_eq h (by decide), secAad_eq]
  split
  · rfl
  split
  · rfl
  split <;> rfl

/-! ### The two commands -/

/-- A command behind the common checks ends with the status of the first check that fails, and as the rest says where
none does. -/
theorem endsBehindChecks {i : Instr} {rest : Prop}
    (hexec : exec i s = .next (finish (afterChecks f keyLen need r) s))
    (hrest : PassesChecks f keyLen need → exec i s = .next (finish r s) → rest) :
    if f.length < 9 ∨ f.length < macHeaderEnd f then EndsInError i s .tooShort
    else if sec f = false then EndsInError i s .unsupportedSecurityLevel
    else if f.length = macHeaderEnd f then EndsInError i s .badPayloadLength
    else if at' f (macHeaderEnd f) ≠ 0x06#8 then EndsInError i s .unsupportedSecurityLevel
    else if f.length < macHeaderEnd f + need then EndsInError i s .badPayloadLength
    else if keyLen ≠ 16 then EndsInError i s .badKeyLength
    else rest := by
  unfold afterChecks at hexec
  split_ifs at hexec ⊢ with hlen hsec _ hlevel hpayload hkey
  case neg =>
    exact hrest ⟨by omega, Bool.eq_true_of_not_eq_false hsec, not_not.mp hlevel, by omega, not_not.mp hkey⟩ hexec
  all_goals exact endsInError_of_finish hexec

theorem exec_secDecrypt_defined {key : List Byte} (hf : HasFrame s f) (hkey : s.value .key = some key) :
    exec .secDecrypt s = .next (finish (secDecryptBody f key) s) := by
  have ⟨fr, hfr, _⟩ := hf
  rw [exec_defined (i := .secDecrypt) rfl (by simp) (by simp [Instr.reads, hfr, hkey]), commandBody,
    effectiveFrame_eq hf, State.bytes_eq hkey]
  rfl

theorem exec_secEncrypt_defined {aux key : List Byte} (hf : HasFrame s f) (haux : s.value .aux = some aux)
    (hkey : s.value .key = some key) :
    exec .secEncrypt s = .next (finish (secEncryptBody f aux key) s) := by
  have ⟨fr, hfr, _⟩ := hf
  rw [exec_defined (i := .secEncrypt) rfl (by simp) (by simp [Instr.reads, hfr, haux, hkey]), commandBody,
    effectiveFrame_eq hf, State.bytes_eq haux, State.bytes_eq hkey]
  rfl

/-- Settles O51: the command ends as the closed form of its body says, and the plaintext is no longer than the
frame. -/
theorem secDecryptResult : Obligations.SecDecryptResult := by
  intro s
  refine ⟨argumentIsZero_of_plain (i := .secDecrypt) (by decide), capacityChecked rfl (by simp [Instr.reads]),
    fcsTooShort rfl (by simp) (by simp [Instr.reads]) (by simp) rfl, fun f key hf hkey => ?_⟩
  have hcap : f.length ≤ 127 := hf.length_le
  have hexec := exec_secDecrypt_defined hf hkey
  rw [secDecryptBody_eq] at hexec
  refine endsBehindChecks hexec fun hp hexec => ?_
  have hpayload := hp.payload
  split
  case isTrue hsam => exact endsInError_of_finish (by rw [hexec, if_pos hsam])
  case isFalse hsam =>
    rw [if_neg hsam, ccmDecrypt_eq (mic := 8) (by rw [List.length_drop]; omega) (by decide)] at hexec
    split
    case isTrue hmac =>
      rw [if_pos hmac] at hexec
      refine endsAs_of_finish_plaintext hexec (ctr_length_le.trans ?_)
      rw [List.length_take, List.length_drop]
      omega
    case isFalse hmac => exact endsInError_of_finish (by rw [hexec, if_neg hmac]; rfl)

/-- Settles O52: the command ends as the closed form of its body says, and what fits below the bound fits into OUT. -/
theorem secEncryptResult : Obligations.SecEncryptResult := by
  intro s
  refine ⟨argumentIsZero_of_plain (i := .secEncrypt) (by decide), capacityChecked rfl (by simp [Instr.reads]),
    fcsTooShort rfl (by simp) (by simp [Instr.reads]) (by simp) rfl, fun f aux key hf haux hkey => ?_⟩
  have hexec := exec_secEncrypt_defined hf haux hkey
  rw [secEncryptBody_eq] at hexec
  refine endsBehindChecks hexec fun _ hexec => ?_
  split
  case isTrue hempty => exact endsInError_of_finish (by rw [hexec, if_pos hempty])
  case isFalse hempty =>
    rw [if_neg hempty] at hexec
    split
    case isTrue hlong => exact endsInError_of_finish (by rw [hexec, if_pos hlong])
    case isFalse hfit =>
      rw [if_neg hfit] at hexec
      split
      case isTrue hsam => exact endsInError_of_finish (by rw [hexec, if_pos hsam])
      case isFalse hsam =>
        rw [if_neg hsam] at hexec
        rw [← ccmEncrypt_eq (by decide)]
        exact endsWithBytes_of_finish hexec (ccmEncrypt_length_le.trans (by omega))

end Sys2Proof.Machine
end

section
/-! PROOF. A frame sealed by SEC_ENCRYPT, MOVOA, SPLICE and MOVOF decrypts to its plaintext (`45_ccm_security.md` R183,
R184): the sealed frame keeps the header and the preamble, so it passes the same checks with the same nonce. -/

namespace Sys2Proof.Machine

open Sys2Proof.Claims

variable {i : Instr} {b : Buf} {s t : State} {f g key p o : List Byte} {x : Effect} {r : Ending} {k n : Nat}

/-! ### Commands that have ended `Ok` -/

theorem finish_code_ok (h : (finish r s).code = okCode) : ∃ x, r = .ok x := by
  cases r with
  | ok x => exact ⟨x, rfl⟩
  | error e => exact absurd (raise_code.symm.trans h) ErrorStatus.code_ne_ok

/-- A command that has ended `Ok` has found each operand defined. -/
theorem operand_of_ok (he : exec i s = .next t) (hok : t.code = okCode) (hb : b ∈ i.reads) :
    ∃ v, s.value b = some v := by
  rcases exec_eq_next he with ⟨hr, -⟩ | ⟨-, r, hv, rfl⟩
  · exact absurd hr (ne_reset_of_reads hb)
  · obtain ⟨x, rfl⟩ := finish_code_ok hok
    exact ⟨_, (verdict_ok_ok hv).1 b hb⟩

/-! ### The sealed frame -/

/-- Header and preamble, and behind them the ciphertext and its MIC (R183). -/
def sealedFrame (f p key : List Byte) : List Byte :=
  f.take (macHeaderEnd f + 6) ++ ccmEncrypt key (nonceBytes f (macHeaderEnd f)) (f.take (macHeaderEnd f + 6)) p 8

/-- What SEC_ENCRYPT has checked when it ends `Ok`, and what it answers (R181). -/
theorem secEncryptBody_ok (h : secEncryptBody f p key = .ok x) :
    PassesChecks f key.length 6 ∧ p.length ≠ 0 ∧ macHeaderEnd f + 6 + p.length + 8 ≤ 127 ∧ sam f = 3#2 ∧
      x = { out := ccmEncrypt key (nonceBytes f (macHeaderEnd f)) (f.take (macHeaderEnd f + 6)) p 8 } := by
  rw [secEncryptBody_eq] at h
  obtain ⟨hpass, h⟩ := afterChecks_ok h
  split_ifs at h with hempty hlong hsam
  cases h
  exact ⟨hpass, hempty, Nat.not_lt.mp hlong, not_not.mp hsam, rfl⟩

theorem at'_take_append (hn : n ≤ f.length) (hk : k < n) : at' (f.take n ++ o) k = at' f k := by
  have hlen : k < (f.take n).length := by rw [List.length_take]; omega
  simp only [at', List.getD_eq_getElem?_getD, List.getElem?_append_left hlen, List.getElem?_take_of_lt hk]

/-- The addressing modes stand in the first two bytes (R100). -/
theorem macHeaderEnd_congr (h : ∀ k < 2, at' g k = at' f k) : macHeaderEnd g = macHeaderEnd f := by
  have hdam : dam g = dam f := congrArg (BitVec.extractLsb' 2 2) (h 1 (by decide))
  have hsam : sam g = sam f := congrArg (BitVec.extractLsb' 6 2) (h 1 (by decide))
  have hintra : intra g = intra f := congrArg (BitVec.getLsbD · 6) (h 0 (by decide))
  simp only [macHeaderEnd, dstWidth, hasSrcPan, srcWidth, hdam, hsam, hintra]

/-- The nonce stands in front of the sixth byte behind the header (R109). -/
theorem nonceBytes_congr (h : ∀ k < n + 6, at' g k = at' f k) : nonceBytes g n = nonceBytes f n := by
  simp (disch := omega) only [nonceBytes, h]

/-- What the checks and the nonce look at stands in the header and the preamble (R179). -/
theorem passesChecks_congr (h : ∀ k < macHeaderEnd f + 6, at' g k = at' f k) (hpass : PassesChecks f k 6)
    (hlen : macHeaderEnd f + 15 ≤ g.length) : PassesChecks g k 15 := by
  have hend : macHeaderEnd g = macHeaderEnd f := macHeaderEnd_congr fun k hk => h k (by omega)
  exact ⟨by omega, by rw [sec, h 0 (by omega)]; exact hpass.sec, by rw [hend, h _ (by omega)]; exact hpass.level,
    by omega, hpass.key⟩

/-- SEC_DECRYPT takes a sealed frame apart where SEC_ENCRYPT and SPLICE put it together. -/
theorem secDecryptBody_sealedFrame (hpass : PassesChecks f key.length 6) (hsam : sam f = 3#2) (hp : p.length ≠ 0) :
    secDecryptBody (sealedFrame f p key) key = .ok (plaintextEffect p) := by
  have hhead : (f.take (macHeaderEnd f + 6)).length = macHeaderEnd f + 6 := List.length_take_of_le hpass.payload
  have hsame : ∀ k < macHeaderEnd f + 6, at' (sealedFrame f p key) k = at' f k := fun k hk =>
    at'_take_append hpass.payload hk
  have hlen : (sealedFrame f p key).length = macHeaderEnd f + 6 + (p.length + 8) := by
    rw [sealedFrame, List.length_append, hhead, ccmEncrypt_length hpass.key (by decide)]
  have hend : macHeaderEnd (sealedFrame f p key) = macHeaderEnd f := macHeaderEnd_congr fun k hk => hsame k (by omega)
  have hsam' : sam (sealedFrame f p key) = 3#2 := by rw [sam, hsame 1 (by omega)]; exact hsam
  have haad : (sealedFrame f p key).take (macHeaderEnd f + 6) = f.take (macHeaderEnd f + 6) := List.take_left' hhead
  have hpayload : (sealedFrame f p key).drop (macHeaderEnd f + 6) =
      ccmEncrypt key (nonceBytes f (macHeaderEnd f)) (f.take (macHeaderEnd f + 6)) p 8 := List.drop_left' hhead
  have htag : (sealedFrame f p key).drop (macHeaderEnd f + 6 + p.length) =
      sealedTag key (nonceBytes f (macHeaderEnd f)) (f.take (macHeaderEnd f + 6)) p 8 := by
    rw [← List.drop_drop, hpayload, ccmEncrypt_drop hpass.key]
  have hstart : (sealedFrame f p key).length - 8 = macHeaderEnd f + 6 + p.length := by omega
  have hcut : macHeaderEnd f + 6 + p.length - (macHeaderEnd f + 6) = p.length := Nat.add_sub_cancel_left _ _
  rw [secDecryptBody_eq, afterChecks_of_passes (passesChecks_congr hsame hpass (by omega)) (by decide),
    if_neg (not_not.mpr hsam'), hend, nonceBytes_congr hsame, hstart, hcut, haad, hpayload, htag,
    ccmEncrypt_take hpass.key, ccmDecrypt_sealed hpass.key (by decide)]
  rfl

/-! ### The four commands and SEC_DECRYPT -/

theorem exec_movof (h : s.value .out = some o) : EndsReplacing .movof s .frame o :=
  endsReplacing_movesOut rfl (by simp) rfl h

/-- MOVOA, SPLICE and MOVOF put OUT behind the first bytes of FRAME, and leave CFG and KEY. -/
theorem exec_assemble (hfr : s.value .frame = some f) (hout : s.value .out = some o) (hn : n ≤ f.length)
    (hfit : n + o.length ≤ 127) :
    ∃ t₂ t₃ t₄, exec .movoa s = .next t₂ ∧ exec (.splice (BitVec.ofNat 8 n)) t₂ = .next t₃ ∧
      exec .movof t₃ = .next t₄ ∧ t₄.value .frame = some (f.take n ++ o) ∧ t₄.cfg = s.cfg ∧
      t₄.value .key = s.value .key := by
  obtain ⟨t₂, h₂, haux, hkept₂⟩ := (exec_movoa hout).exists_next
  have hcount : (BitVec.ofNat 8 n).toNat = n := toNat_ofNat_frameLength (by omega) (by decide)
  have hsplice := exec_splice_fits (n := BitVec.ofNat 8 n) ((hkept₂.value (by simp)).trans hfr) haux (by omega)
    (by omega)
  rw [hcount] at hsplice
  have hjoin : (f.take n ++ o).length ≤ 127 := by rw [List.length_append, List.length_take]; omega
  obtain ⟨t₃, h₃, -, hout₃, hkept₃⟩ := hsplice.exists_next hjoin
  obtain ⟨t₄, h₄, hframe, hkept₄⟩ := (exec_movof hout₃).exists_next
  exact ⟨t₂, t₃, t₄, h₂, h₃, h₄, hframe, hkept₄.cfg.trans (hkept₃.cfg.trans hkept₂.cfg),
    (hkept₄.value (by simp)).trans ((hkept₃.value (by simp)).trans (hkept₂.value (by simp)))⟩

/-- FRAME is its own effective frame without FCS_PRESENT (`00_scope.md` R14). -/
theorem hasFrame_of_value (hfr : s.value .frame = some f) (hcfg : s.cfg.getLsbD 0 = false) : HasFrame s f :=
  ⟨f, hfr, by rw [hcfg]; rfl⟩

/-- Settles O53: SEC_ENCRYPT has passed its checks, the next three commands make the sealed frame, and SEC_DECRYPT takes
it apart. -/
theorem sealedFrameDecrypts : Obligations.SealedFrameDecrypts := by
  intro s t₁ f p hcfg hfr haux he hok
  obtain ⟨key, hkey⟩ := operand_of_ok (b := .key) he hok (by simp [Instr.reads])
  have hexec := exec_secEncrypt_defined (hasFrame_of_value hfr hcfg) haux hkey
  cases he.symm.trans hexec
  obtain ⟨x, hx⟩ := finish_code_ok hok
  obtain ⟨hpass, hp, hfit, hsam, rfl⟩ := secEncryptBody_ok hx
  rw [hx] at hexec
  have hlen := ccmEncrypt_length (nonce := nonceBytes f (macHeaderEnd f)) (aad := f.take (macHeaderEnd f + 6))
    (msg := p) hpass.key (show 8 ≤ 16 by decide)
  obtain ⟨hout, hkept₁⟩ := (endsWithBytes_of_finish hexec (by omega)).of_next hexec (by omega)
  obtain ⟨t₂, t₃, t₄, h₂, h₃, h₄, hframe, hcfg₄, hkey₄⟩ :=
    exec_assemble ((hkept₁.value (by simp)).trans hfr) hout hpass.payload (by omega)
  have hdec := exec_secDecrypt_defined
    (hasFrame_of_value hframe (by rw [hcfg₄, hkept₁.cfg, hcfg]))
    (hkey₄.trans ((hkept₁.value (by simp)).trans hkey))
  rw [← sealedFrame, secDecryptBody_sealedFrame hpass hsam hp] at hdec
  have hplain : p.length ≤ 127 := by omega
  obtain ⟨t₅, h₅, hstatus, hout₅, -⟩ := (endsAs_of_finish_plaintext hdec hplain).exists_next hplain
  rw [hx]
  exact ⟨_, t₂, t₃, t₄, t₅, hout, h₂, h₃, h₄, hframe, h₅, hstatus, hout₅⟩

end Sys2Proof.Machine
end

section
/-! PROOF. The frame check sequence (`46_fcs.md` R191): the nibble algorithm and the bit-serial form as shifts of a
16-bit word through the polynomial; the three commands (R192 to R194) and the laws (R195) from the fact that a shift
loses nothing. -/

namespace Sys2Proof.Machine

open Sys2Proof.Claims

variable {crc x y z : Half} {c : Byte} {d t fr : List Byte} {i n : Nat} {s : State}

/-! ### The shift through the polynomial -/

/-- The bit-serial CRC on a zero bit: the word moves down by one place, through the polynomial 0x8408. -/
def crcShift (x : Half) : Half := crcBit x false

theorem crcShift_of_even (h : x.getLsbD 0 = false) : crcShift x = x >>> 1 := by
  rw [crcShift, crcBit, h]
  rfl

theorem crcShift_of_odd (h : x.getLsbD 0 = true) : crcShift x = (x >>> 1) ^^^ 0x8408#16 := by
  rw [crcShift, crcBit, h]
  rfl

@[simp] theorem crcShift_zero : crcShift 0#16 = 0#16 := rfl

/-- Two polynomials that are both shifted in cancel. -/
theorem crcShift_xor : crcShift (x ^^^ y) = crcShift x ^^^ crcShift y := by
  have hbit : (x ^^^ y).getLsbD 0 = (x.getLsbD 0 ^^ y.getLsbD 0) := BitVec.getLsbD_xor
  cases hx : x.getLsbD 0 <;> cases hy : y.getLsbD 0 <;> rw [hx, hy] at hbit
  case false.false =>
    rw [crcShift_of_even hbit, crcShift_of_even hx, crcShift_of_even hy, BitVec.ushiftRight_xor_distrib]
  case false.true =>
    rw [crcShift_of_odd hbit, crcShift_of_even hx, crcShift_of_odd hy, BitVec.ushiftRight_xor_distrib,
      BitVec.xor_assoc]
  case true.false =>
    rw [crcShift_of_odd hbit, crcShift_of_odd hx, crcShift_of_even hy, BitVec.ushiftRight_xor_distrib]
    ac_rfl
  case true.true =>
    rw [crcShift_of_even hbit, crcShift_of_odd hx, crcShift_of_odd hy, BitVec.ushiftRight_xor_distrib]
    calc x >>> 1 ^^^ y >>> 1 = x >>> 1 ^^^ y >>> 1 ^^^ (0x8408#16 ^^^ 0x8408#16) := by
          rw [BitVec.xor_self, BitVec.xor_zero]
      _ = x >>> 1 ^^^ 0x8408#16 ^^^ (y >>> 1 ^^^ 0x8408#16) := by ac_rfl

/-- The polynomial has bit 15, which no shifted word has. -/
theorem crcShift_eq_zero (h : crcShift x = 0#16) : x = 0#16 := by
  cases hx : x.getLsbD 0 with
  | false =>
    rw [crcShift_of_even hx] at h
    ext i hi
    cases i with
    | zero => simpa using hx
    | succ i => simpa [Nat.add_comm 1 i, BitVec.getLsbD_eq_getElem hi] using congrArg (·.getLsbD i) h
  | true =>
    rw [crcShift_of_odd hx] at h
    simpa using congrArg (·.getLsbD 15) h

theorem crcShift_injective : Function.Injective crcShift := by
  intro x y h
  rw [← BitVec.xor_eq_zero_iff]
  exact crcShift_eq_zero (by rw [crcShift_xor, h, BitVec.xor_self])

/-- A data bit enters at the low end of the word. -/
theorem crcBit_eq_crcShift (crc : Half) (b : Bool) :
    crcBit crc b = crcShift (crc ^^^ (BitVec.ofBool b).setWidth 16) := by
  cases b with
  | false => rw [show (BitVec.ofBool false).setWidth 16 = 0#16 from rfl, BitVec.xor_zero, crcShift]
  | true =>
    have hone : crcShift 1#16 = 0x8408#16 := rfl
    rw [show (BitVec.ofBool true).setWidth 16 = 1#16 from rfl, crcShift_xor, hone]
    cases h : crc.getLsbD 0 with
    | false => rw [crcShift_of_even h, crcBit, h]; rfl
    | true => rw [crcShift_of_odd h, BitVec.xor_assoc, BitVec.xor_self, BitVec.xor_zero, crcBit, h]; rfl

/-! ### Several shifts -/

theorem crcShift_iterate_xor (n : Nat) (x y : Half) :
    crcShift^[n] (x ^^^ y) = crcShift^[n] x ^^^ crcShift^[n] y := by
  induction n generalizing x y with
  | zero => rfl
  | succ n ih => rw [Function.iterate_succ_apply, crcShift_xor, ih]; rfl

/-- A word that stands `n` places up comes down unchanged. -/
theorem crcShift_iterate_shiftLeft (h : z.toNat * 2 ^ n < 2 ^ 16) : crcShift^[n] (z <<< n) = z := by
  induction n with
  | zero => simp
  | succ n ih =>
    rw [Nat.pow_succ, ← Nat.mul_assoc] at h
    have hup : (z <<< n).toNat = z.toNat * 2 ^ n := by
      rw [BitVec.toNat_shiftLeft, Nat.shiftLeft_eq, Nat.mod_eq_of_lt (by omega)]
    have hdown : crcShift (z <<< n <<< 1) = z <<< n := by
      rw [crcShift_of_even (by simp)]
      apply BitVec.eq_of_toNat_eq
      rw [BitVec.toNat_ushiftRight, BitVec.toNat_shiftLeft, hup, Nat.shiftLeft_eq, Nat.shiftRight_eq_div_pow]
      omega
    rw [Function.iterate_succ_apply, BitVec.shiftLeft_add, hdown, ih (by omega)]

/-- What enters after `n` shifts may enter before them, `n` places up. -/
theorem crcShift_iterate_xor_shiftLeft (x : Half) (h : z.toNat * 2 ^ n < 2 ^ 16) :
    crcShift^[n] x ^^^ z = crcShift^[n] (x ^^^ z <<< n) := by
  rw [crcShift_iterate_xor, crcShift_iterate_shiftLeft h]

/-! ### The nibble algorithm (R191) -/

/-- The low nibble of a word, in the low bits of a word. -/
def lowNibble (x : Half) : Half := (x.setWidth 4).setWidth 16

theorem toNat_lowNibble (x : Half) : (lowNibble x).toNat = x.toNat % 16 := by
  rw [lowNibble, BitVec.toNat_setWidth, BitVec.toNat_setWidth]
  omega

theorem and_eq_lowNibble (x : Half) : x &&& 0xF#16 = lowNibble x := by
  apply BitVec.eq_of_toNat_eq
  rw [toNat_lowNibble, BitVec.toNat_and]
  exact Nat.and_two_pow_sub_one_eq_mod x.toNat 4

theorem lowNibble_of_lt (h : x.toNat < 16) : lowNibble x = x :=
  BitVec.eq_of_toNat_eq ((toNat_lowNibble x).trans (Nat.mod_eq_of_lt h))

theorem lowNibble_lowNibble (x : Half) : lowNibble (lowNibble x) = lowNibble x :=
  lowNibble_of_lt (by rw [toNat_lowNibble]; omega)

theorem lowNibble_xor (x y : Half) : lowNibble (x ^^^ y) = lowNibble x ^^^ lowNibble y := by
  rw [lowNibble, BitVec.setWidth_xor, BitVec.setWidth_xor, lowNibble, lowNibble]

theorem lowNibble_ushiftRight (x : Half) : lowNibble x >>> 4 = 0#16 := by
  apply BitVec.eq_of_toNat_eq
  rw [BitVec.toNat_ushiftRight, toNat_lowNibble, Nat.shiftRight_eq_div_pow, BitVec.toNat_ofNat]
  omega

theorem lowNibble_xor_rest (x : Half) : lowNibble x ^^^ (x >>> 4) <<< 4 = x := by
  ext i hi
  rcases Nat.lt_or_ge i 4 with h | h
  · simp [lowNibble, h, BitVec.getLsbD_eq_getElem hi]
  · simp [lowNibble, Nat.not_lt.mpr h, Nat.add_sub_cancel' h, hi]

theorem toNat_ushiftRight_four_lt (x : Half) : (x >>> 4).toNat * 2 ^ 4 < 2 ^ 16 := by
  rw [BitVec.toNat_ushiftRight, Nat.shiftRight_eq_div_pow]
  omega

/-- The product of R191 is four shifts of a nibble. -/
theorem lowNibble_mul (x : Half) : lowNibble x * 0x1081#16 = crcShift^[4] (lowNibble x) := by
  rw [lowNibble]
  generalize x.setWidth 4 = q
  revert q
  decide

/-- A nibble enters the word, and four shifts follow. -/
theorem crcNibble_eq (crc v : Half) : crcNibble crc v = crcShift^[4] (crc ^^^ lowNibble v) := by
  have hlow : lowNibble (crc ^^^ v) = lowNibble (crc ^^^ lowNibble v) := by
    rw [lowNibble_xor, lowNibble_xor, lowNibble_lowNibble]
  have hrest : crc >>> 4 = (crc ^^^ lowNibble v) >>> 4 := by
    rw [BitVec.ushiftRight_xor_distrib, lowNibble_ushiftRight, BitVec.xor_zero]
  rw [crcNibble, and_eq_lowNibble, lowNibble_mul, hlow, hrest, BitVec.xor_comm,
    crcShift_iterate_xor_shiftLeft _ (toNat_ushiftRight_four_lt _), lowNibble_xor_rest]

/-- A byte enters the word, and eight shifts follow: the high nibble may enter with the low one. -/
theorem crcByte_eq (crc : Half) (c : Byte) : crcByte crc c = crcShift^[8] (crc ^^^ c.setWidth 16) := by
  have hhigh : lowNibble (c.setWidth 16 >>> 4) = c.setWidth 16 >>> 4 := by
    refine lowNibble_of_lt ?_
    rw [BitVec.toNat_ushiftRight, BitVec.toNat_setWidth, Nat.shiftRight_eq_div_pow]
    omega
  calc crcByte crc c
      = crcShift^[4] (crcShift^[4] (crc ^^^ lowNibble (c.setWidth 16)) ^^^ c.setWidth 16 >>> 4) := by
        rw [crcByte, crcNibble_eq, crcNibble_eq, BitVec.zeroExtend, hhigh]
    _ = crcShift^[8] (crc ^^^ lowNibble (c.setWidth 16) ^^^ (c.setWidth 16 >>> 4) <<< 4) := by
        rw [crcShift_iterate_xor_shiftLeft _ (toNat_ushiftRight_four_lt _), ← Function.iterate_add_apply]
    _ = crcShift^[8] (crc ^^^ c.setWidth 16) := by rw [BitVec.xor_assoc, lowNibble_xor_rest]

/-! ### The bit-serial form (R191) -/

/-- The low `n + 1` bits of a byte are its low `n` bits and bit `n`. -/
theorem setWidth_succ_eq_xor (c : Byte) (n : Nat) : (c.setWidth (n + 1)).setWidth 16 =
    (c.setWidth n).setWidth 16 ^^^ (BitVec.ofBool (c.getLsbD n)).setWidth 16 <<< n := by
  ext i hi
  rcases Nat.lt_trichotomy i n with h | rfl | h
  · simp [h, Nat.lt_succ_of_lt h]
  · simp
  · simp [Nat.not_lt.mpr h.le, show ¬ i < n + 1 by omega, show i - n ≠ 0 by omega]

/-- The low `n` bits of a byte enter one by one, or together before `n` shifts. -/
theorem foldl_crcBit_range (hn : n ≤ 16) : ((List.range n).map fun i => c.getLsbD i).foldl crcBit crc =
    crcShift^[n] (crc ^^^ (c.setWidth n).setWidth 16) := by
  induction n with
  | zero => rw [BitVec.of_length_zero (x := c.setWidth 0)]; exact BitVec.xor_zero.symm
  | succ n ih =>
    have hplace : ((BitVec.ofBool (c.getLsbD n)).setWidth 16).toNat * 2 ^ n < 2 ^ 16 := by
      rw [BitVec.toNat_setWidth, BitVec.toNat_ofBool, Nat.mod_eq_of_lt ((Bool.toNat_le _).trans_lt (by decide))]
      calc (c.getLsbD n).toNat * 2 ^ n ≤ 1 * 2 ^ n := Nat.mul_le_mul_right _ (Bool.toNat_le _)
        _ < 2 ^ 16 := by rw [Nat.one_mul]; exact Nat.pow_lt_pow_right (by decide) hn
    rw [List.range_succ, List.map_append, List.foldl_append, ih (by omega), List.map_singleton, List.foldl_cons,
      List.foldl_nil, crcBit_eq_crcShift, crcShift_iterate_xor_shiftLeft _ hplace, BitVec.xor_assoc,
      ← setWidth_succ_eq_xor, Function.iterate_succ_apply']

theorem crcByte_eq_foldl_crcBit (crc : Half) (c : Byte) : crcByte crc c = (bitsOf [c]).foldl crcBit crc := by
  rw [bitsOf, List.flatMap_singleton, foldl_crcBit_range (by decide), BitVec.setWidth_eq, crcByte_eq]

theorem crcFrom_eq_foldl_crcBit (crc : Half) (d : List Byte) : crcFrom crc d = (bitsOf d).foldl crcBit crc := by
  induction d generalizing crc with
  | nil => rfl
  | cons c d ih =>
    have hbits : bitsOf (c :: d) = bitsOf [c] ++ bitsOf d := List.flatMap_append (xs := [c])
    rw [hbits, List.foldl_append, ← crcByte_eq_foldl_crcBit, ← ih]
    rfl

/-- Settles O54: byte by byte, both forms are eight shifts of the word that the byte has entered. -/
theorem fcsIsBitSerialCrc : Obligations.FcsIsBitSerialCrc := fun d => by
  rw [fcs, crcFrom_eq_foldl_crcBit]
  rfl

/-! ### Frames and start values -/

theorem crcFrom_append (crc : Half) (d d' : List Byte) : crcFrom crc (d ++ d') = crcFrom (crcFrom crc d) d' :=
  List.foldl_append

/-- A difference of the words is still there after any bytes. -/
theorem crcFrom_injective (d : List Byte) : Function.Injective (crcFrom · d) := by
  induction d with
  | nil => exact fun _ _ h => h
  | cons c d ih =>
    intro x y h
    have hbyte : crcByte x c = crcByte y c := ih h
    rw [crcByte_eq, crcByte_eq] at hbyte
    exact (BitVec.xor_left_inj _).mp (crcShift_injective.iterate 8 hbyte)

theorem crcByte_byte_injective (crc : Half) : Function.Injective (crcByte crc) := by
  intro c c' h
  rw [crcByte_eq, crcByte_eq] at h
  have hwide := (BitVec.xor_right_inj _).mp (crcShift_injective.iterate 8 h)
  simpa using congrArg (BitVec.setWidth 8) hwide

/-- A change of one byte changes the CRC. -/
theorem crcFrom_set_ne (hi : i < d.length) (h : c ≠ d[i]) : crcFrom crc (d.set i c) ≠ crcFrom crc d := by
  intro heq
  rw [List.set_eq_take_append_cons_drop, if_pos hi, crcFrom_append] at heq
  conv at heq => rhs; rw [← List.take_append_drop i d, crcFrom_append, List.drop_eq_getElem_cons hi]
  exact h (crcByte_byte_injective _ (crcFrom_injective (d.drop (i + 1)) heq))

theorem crcFrom_zeros (n : Nat) : crcFrom 0#16 (List.replicate n 0x00#8) = 0#16 := by
  induction n with
  | zero => rfl
  | succ n ih => exact ih

theorem append_eq_xor (b a : Byte) : (b ++ a : Half) = a.setWidth 16 ^^^ b.setWidth 16 <<< 8 := by
  refine BitVec.eq_of_getLsbD_eq fun i hi => ?_
  rw [BitVec.getLsbD_append]
  rcases Nat.lt_or_ge i 8 with h | h
  · simp [h, hi]
  · simp [Nat.not_lt.mpr h, hi, BitVec.getLsbD_of_ge a i h]

/-- Two bytes enter the word together, and sixteen shifts follow. -/
theorem crcFrom_pair (crc : Half) (a b : Byte) : crcFrom crc [a, b] = crcShift^[16] (crc ^^^ (b ++ a)) := by
  have hplace : (b.setWidth 16 : Half).toNat * 2 ^ 8 < 2 ^ 16 := by
    rw [BitVec.toNat_setWidth]
    omega
  calc crcFrom crc [a, b] = crcShift^[8] (crcShift^[8] (crc ^^^ a.setWidth 16) ^^^ b.setWidth 16) := by
        rw [← crcByte_eq, ← crcByte_eq]
        rfl
    _ = crcShift^[16] (crc ^^^ (b ++ a)) := by
        rw [crcShift_iterate_xor_shiftLeft _ hplace, ← Function.iterate_add_apply, BitVec.xor_assoc, ← append_eq_xor]

theorem crcFrom_pair_eq_zero_iff (crc : Half) (a b : Byte) : crcFrom crc [a, b] = 0#16 ↔ crc = b ++ a := by
  have hzero : crcShift^[16] 0#16 = 0#16 := Function.iterate_fixed crcShift_zero 16
  rw [crcFrom_pair, ← hzero, (crcShift_injective.iterate 16).eq_iff, BitVec.xor_eq_zero_iff]

/-! ### The FCS of a frame -/

theorem fcs_length (d : List Byte) : (fcs d).length = 2 := rfl

theorem highByte_append_lowByte (x : Half) : (highByte x ++ lowByte x : Half) = x := by
  have hjoin : (highByte x ++ lowByte x : Half) = x.extractLsb' 0 16 :=
    BitVec.extractLsb'_append_extractLsb'_eq_extractLsb' rfl
  rw [hjoin, BitVec.extractLsb'_eq_self]

theorem fcs_eq_pair_iff {a b : Byte} : fcs d = [a, b] ↔ crcFrom 0#16 d = b ++ a := by
  constructor
  case mp =>
    intro h
    obtain ⟨hlow, hhigh⟩ := List.cons_eq_cons.mp h
    rw [← hlow, ← List.head_eq_of_cons_eq hhigh]
    exact (highByte_append_lowByte _).symm
  case mpr =>
    intro h
    rw [fcs, h, lowByte, highByte, BitVec.extractLsb'_append_eq_right, BitVec.extractLsb'_append_eq_left]

theorem fcs_eq_zero_iff : fcs d = [0x00#8, 0x00#8] ↔ crcFrom 0#16 d = 0#16 := fcs_eq_pair_iff

/-- Behind the bytes before them, two bytes bring the FCS to 00 00 exactly when they are the FCS. -/
theorem fcs_append_eq_zero_iff (ht : t.length = 2) : fcs (d ++ t) = [0x00#8, 0x00#8] ↔ fcs d = t := by
  obtain ⟨a, b, rfl⟩ := List.length_eq_two.mp ht
  rw [fcs_eq_zero_iff, crcFrom_append, crcFrom_pair_eq_zero_iff, fcs_eq_pair_iff]

/-- The last two bytes of a frame are its FCS exactly when the FCS of the whole frame is 00 00 (R193). -/
theorem fcs_take_eq_drop_iff (h : 2 ≤ fr.length) :
    fcs (fr.take (fr.length - 2)) = fr.drop (fr.length - 2) ↔ fcs fr = [0x00#8, 0x00#8] := by
  rw [← fcs_append_eq_zero_iff (by rw [List.length_drop]; omega), List.take_append_drop]

theorem fcs_append_fcs (d : List Byte) : fcs (d ++ fcs d) = [0x00#8, 0x00#8] :=
  (fcs_append_eq_zero_iff (fcs_length d)).mpr rfl

/-- One byte changed in a frame with its FCS leaves no FCS of 00 00. -/
theorem fcs_set_ne_zero (hi : i < d.length) (h : c ≠ d[i]) (hd : fcs d = [0x00#8, 0x00#8]) :
    fcs (d.set i c) ≠ [0x00#8, 0x00#8] := fun hset =>
  crcFrom_set_ne hi h ((fcs_eq_zero_iff.mp hset).trans (fcs_eq_zero_iff.mp hd).symm)

theorem fcs_zeros_append (n : Nat) (d : List Byte) : fcs (List.replicate n 0x00#8 ++ d) = fcs d := by
  rw [fcs, crcFrom_append, crcFrom_zeros, fcs]

/-! ### FCS_CALC (R192) -/

/-- Settles O55: FCS_CALC answers the two bytes of the FCS. -/
theorem fcsCalcResult : Obligations.FcsCalcResult := fun s =>
  ⟨argumentIsZero_of_plain (i := .fcsCalc) (by decide), capacityChecked rfl (by simp [Instr.reads]), fun fr hfr => by
    have hexec := exec_defined (i := .fcsCalc) (s := s) rfl (by simp) (by simp [Instr.reads, hfr])
    rw [commandBody, State.bytes_eq hfr] at hexec
    exact endsWithBytes_of_finish hexec (by rw [fcs_length]; decide)⟩

/-! ### FCS_CHECK (R193) -/

theorem exec_fcsCheck_defined (hfr : s.value .frame = some fr) :
    exec .fcsCheck s = .next (finish (fcsCheckBody fr) s) := by
  rw [exec_defined (i := .fcsCheck) rfl (by simp) (by simp [Instr.reads, hfr]), commandBody, State.bytes_eq hfr]

theorem fcsCheckBody_tooShort (h : fr.length < 2) : fcsCheckBody fr = .error .tooShort := if_pos h

theorem fcsCheckBody_ok (h : 2 ≤ fr.length) : fcsCheckBody fr =
    .ok { crcOk := decide (fcs (fr.take (fr.length - 2)) = fr.drop (fr.length - 2)) } := by
  rw [fcsCheckBody, if_neg (Nat.not_lt.mpr h), fcsMatches, slice_zero_eq_take, slice_length_eq_drop]

theorem statusWord_crcOk_decide (p : Prop) [Decidable p] :
    statusWord okCode (decide p) false = if p then 0x0030#16 else 0x0010#16 := by
  split
  case isTrue h => rw [decide_eq_true h]; rfl
  case isFalse h => rw [decide_eq_false h]; rfl

/-- FCS_CHECK on a frame of at least 2 bytes ends `Ok`, with the comparison in CRC_OK. -/
theorem endsAs_fcsCheck (hfr : s.value .frame = some fr) (h : 2 ≤ fr.length) :
    EndsAs .fcsCheck s (if fcs (fr.take (fr.length - 2)) = fr.drop (fr.length - 2) then 0x0030#16 else 0x0010#16)
      0x0000#16 noSlots [] := by
  have hexec := exec_fcsCheck_defined hfr
  rw [fcsCheckBody_ok h] at hexec
  have hends := endsAs_of_finish hexec rfl (Nat.zero_le _)
  simp only [statusWord_crcOk_decide, slotsOf_nil] at hends
  exact hends

/-- The same, by the FCS of the whole frame. -/
theorem endsAs_fcsCheck_whole (hfr : s.value .frame = some fr) (h : 2 ≤ fr.length) :
    EndsAs .fcsCheck s (if fcs fr = [0x00#8, 0x00#8] then 0x0030#16 else 0x0010#16) 0x0000#16 noSlots [] := by
  simpa only [fcs_take_eq_drop_iff h] using endsAs_fcsCheck hfr h

/-- Settles O56: behind the check of the length, FCS_CHECK compares the last two bytes with the FCS of the others. -/
theorem fcsCheckResult : Obligations.FcsCheckResult := by
  intro s
  refine ⟨argumentIsZero_of_plain (i := .fcsCheck) (by decide), capacityChecked rfl (by simp [Instr.reads]),
    fun fr hfr => ?_⟩
  split
  case isTrue hshort => exact endsInError_of_finish (by rw [exec_fcsCheck_defined hfr, fcsCheckBody_tooShort hshort])
  case isFalse hlen =>
    rw [Nat.not_lt] at hlen
    exact ⟨fcs_take_eq_drop_iff hlen, endsAs_fcsCheck hfr hlen⟩

/-! ### FCS_APPEND (R194) -/

theorem exec_fcsAppend_defined (hfr : s.value .frame = some fr) :
    exec .fcsAppend s = .next (finish (fcsAppendBody fr) s) := by
  rw [exec_defined (i := .fcsAppend) rfl (by simp) (by simp [Instr.reads, hfr]), commandBody, State.bytes_eq hfr]

theorem fcsAppendBody_frameTooLong (h : 125 < fr.length) : fcsAppendBody fr = .error .frameTooLong := if_pos h

theorem fcsAppendBody_fits (h : fr.length ≤ 125) : fcsAppendBody fr = .ok { out := fr ++ fcs fr } :=
  if_neg (Nat.not_lt.mpr h)

/-- Settles O57: behind the check of the length, FCS_APPEND answers FRAME and its FCS. -/
theorem fcsAppendResult : Obligations.FcsAppendResult := by
  intro s
  refine ⟨argumentIsZero_of_plain (i := .fcsAppend) (by decide), capacityChecked rfl (by simp [Instr.reads]),
    fun fr hfr => ?_⟩
  have hexec := exec_fcsAppend_defined hfr
  split
  case isTrue hlong => exact endsInError_of_finish (by rw [hexec, fcsAppendBody_frameTooLong hlong])
  case isFalse hfits =>
    rw [Nat.not_lt] at hfits
    rw [fcsAppendBody_fits hfits] at hexec
    exact endsWithBytes_of_finish hexec (by rw [List.length_append, fcs_length]; omega)

/-! ### The laws (R195) -/

theorem xor_bit_ne {k : Nat} (c : Byte) (hk : k < 8) : c ^^^ (1#8 <<< k) ≠ c := by
  intro h
  have hbit := congrArg (·.getLsbD k) h
  simp [hk] at hbit

/-- Settles O58: FCS_CHECK asks for an FCS of 00 00, which a frame with its FCS has and loses by the change of a
byte; zero bytes leave the start value 0 as it is. -/
theorem fcsLaws : Obligations.FcsLaws := by
  refine ⟨fun s d _ hfr => ?_, fcs_append_fcs, fun s d i k hi hk hfr => ?_, fcs_zeros_append⟩
  case refine_1 =>
    have hends := endsAs_fcsCheck_whole hfr (by rw [List.length_append, fcs_length]; omega)
    rwa [if_pos (fcs_append_fcs d)] at hends
  case refine_2 =>
    have hin : i < (d ++ fcs d).length := by rwa [List.length_append, fcs_length]
    have hat : at' (d ++ fcs d) i = (d ++ fcs d)[i] := List.getD_eq_getElem _ _ hin
    have hends := endsAs_fcsCheck_whole hfr (by rw [List.length_set, List.length_append, fcs_length]; omega)
    rwa [if_neg (fcs_set_ne_zero hin (hat ▸ xor_bit_ne _ hk) (fcs_append_fcs d))] at hends

end Sys2Proof.Machine
end

section
/-! PROOF. How a command word ends (`60_exceptions.md` R200 to R211): with which statuses, with what left as it was, and
that it ends at all once each operand buffer is defined or above its capacity. -/

namespace Sys2Proof.Machine

open Sys2Proof.Claims

variable {s t : State} {b : Buf} {i : Instr} {r : Ending} {e : ErrorStatus} {w : Half} {f key aux frame : List Byte}

/-! ### The three ends of a command word -/

/-- A command word that answers a next state has reset the block or ended as some body says, an illegal word with
`IllegalCommand`; the effect of an `Ok` end is bounded. -/
theorem executeWord_eq_next (h : executeWord w s = .next t) :
    t = s.resetBlock ∨ ∃ r : Ending, (∀ x, r = .ok x → x.bounded) ∧ t = finish r s := by
  rcases executeWord_cases w s with ⟨i, -, hi⟩ | ⟨-, hi⟩ <;> rw [hi] at h
  · rcases exec_eq_next h with ⟨-, ht⟩ | ⟨-, r, hv, ht⟩
    · exact .inl ht
    · exact .inr ⟨r, fun x hx => verdict_bounded (hx ▸ hv), ht⟩
  · cases h
    exact .inr ⟨.error .illegalCommand, by simp, rfl⟩

theorem resetBlock_code : s.resetBlock.code = okCode := rfl

theorem finish_code_error (h : (finish r s).code ≠ okCode) : ∃ e, r = .error e := by
  cases r with
  | ok x => exact absurd complete_code h
  | error e => exact ⟨e, rfl⟩

/-- A status other than `Ok` comes from the one error end, whatever the word. -/
theorem executeWord_eq_raise (h : executeWord w s = .next t) (hc : t.code ≠ okCode) : ∃ e, t = raise e s := by
  rcases executeWord_eq_next h with rfl | ⟨r, -, rfl⟩
  · exact absurd resetBlock_code hc
  · obtain ⟨e, rfl⟩ := finish_code_error hc
    exact ⟨e, rfl⟩

theorem statusWord_done (c : BitVec 4) (x y : Bool) : (statusWord c x y).getLsbD 4 = true := by
  revert c x y; decide

@[simp] theorem raise_done : (raise e s).done = true := statusWord_done _ _ _

/-- Settles O10: such an end is `raise`, which writes the cleared record and nothing else. -/
theorem errorsHaveNoPartialEffects : Obligations.ErrorsHaveNoPartialEffects := by
  intro w s t h hc
  obtain ⟨e, rfl⟩ := executeWord_eq_raise h hc
  have hkept : Kept [.out] s (raise e s) := raise_endsWith.2
  exact ⟨rfl, raise_done, raise_crcOk, raise_authOk, raise_result, fun k hk => slot_slotsOf raise_slots hk,
    raise_outLen, hkept, fun b hb => hkept.value (by simpa using hb)⟩

/-! ### Every word ends -/

/-- The capacity check stands before the refusal (assumption log 3). -/
theorem within_of_verdict_error (h : verdict i s = .error b) : s.anyOverCapacity i.reads = false := by
  unfold verdict at h
  split at h
  · cases h
  split at h
  · cases h
  next hover => simpa using hover

/-- The operand buffer a refusal names is not above its capacity. -/
theorem overCapacity_of_verdict_error (h : verdict i s = .error b) (hout : b ≠ .out) : s.overCapacity b = false := by
  by_contra hover
  have hlt : b.cap < (s.len b).toNat := by simpa [State.overCapacity] using hover
  have hany : s.anyOverCapacity i.reads = true := anyOverCapacity_iff.mpr ⟨b, (verdict_error h).1, hout, hlt⟩
  rw [within_of_verdict_error h] at hany
  cases hany

/-- A command is not refused when each operand buffer is defined or above its capacity, and OUT is defined. -/
theorem exec_ends (i : Instr) (hops : ∀ b, b ≠ .out → s.overCapacity b = true ∨ (s.value b).isSome = true)
    (hout : (s.value .out).isSome = true) : ∃ t, exec i s = .next t := by
  by_cases hr : i = .reset
  · exact ⟨_, hr ▸ exec_reset⟩
  rw [exec_eq_conclude hr]
  cases hv : verdict i s with
  | ok r => exact ⟨_, conclude_ok⟩
  | error b =>
    exfalso
    have hnone : s.value b = none := (verdict_error hv).2
    by_cases hb : b = .out
    · subst hb; simp [hnone] at hout
    · simpa [hnone, overCapacity_of_verdict_error hv hb] using hops b hb

theorem executeWord_ends (w : Half) (hops : ∀ b, b ≠ .out → s.overCapacity b = true ∨ (s.value b).isSome = true)
    (hout : (s.value .out).isSome = true) : ∃ t, executeWord w s = .next t := by
  rcases executeWord_cases w s with ⟨i, -, hi⟩ | ⟨-, hi⟩ <;> rw [hi]
  · exact exec_ends i hops hout
  · exact ⟨_, rfl⟩

/-- Whatever the state, an end leaves a code of R201 and a defined OUT. -/
theorem executeWord_code_out (h : executeWord w s = .next t) :
    t.code ∈ producedCodes ∧ (t.value .out).isSome = true := by
  rcases executeWord_eq_next h with rfl | ⟨e | x, hx, rfl⟩
  · exact ⟨by rw [resetBlock_code]; decide, by rw [resetBlock_value]; rfl⟩
  · exact ⟨by rw [finish_error, raise_code]; exact e.code_mem_produced, by rw [finish_error, raise_value_out]; rfl⟩
  · exact ⟨by rw [finish_ok, complete_code]; decide, by rw [finish_ok, complete_value_out (hx x rfl)]; rfl⟩

/-- Settles O11: the only answer without a status is the refusal, and these states have no operand to refuse. -/
theorem everyWordEnds : Obligations.EveryWordEnds := by
  intro w s hops hout
  obtain ⟨t, ht⟩ := executeWord_ends w hops hout
  exact ⟨t, ht, executeWord_code_out ht⟩

/-! ### The statuses of each body -/

theorem nwkHdrlen_error (h : nwkHdrlen f = .error e) : e = .tooShort := nwkChop_error (map_error h)

theorem nwkPayloadlen_error (h : nwkPayloadlen f = .error e) : e = .tooShort := nwkHdrlen_error (map_error h)

theorem apsHdrlen_error (h : apsHdrlen f = .error e) : e = .tooShort := apsChop_error (map_error h)

theorem apsPayloadlen_error (h : apsPayloadlen f = .error e) : e = .tooShort := apsHdrlen_error (map_error h)

/-- A codec command ends in an error with `TooShort` only, when its codec function does. -/
theorem codecBody_error {α : Type} {codec : List Byte → Except ErrorStatus α} {effect : α → Effect} {cfg : Half}
    (hcodec : ∀ f, codec f = .error e → e = .tooShort)
    (h : (effectiveFrame cfg frame >>= fun f => (codec f).map effect) = .error e) : e = .tooShort := by
  rcases bind_error h with hef | ⟨f, -, hmap⟩
  · exact effectiveFrame_error hef
  · exact hcodec f (map_error hmap)

theorem narrow_error {slot : Slot} (h : narrow slot frame = .error e) : e = .tooShort := by
  unfold narrow at h
  split at h <;> cases h
  rfl

theorem splice_error {n : Nat} (h : splice n frame aux = .error e) : e = .tooShort ∨ e = .frameTooLong := by
  unfold splice at h
  split at h
  · cases h; exact .inl rfl
  split at h <;> cases h
  exact .inr rfl

theorem aesEncBody_error (h : aesEncBody key aux = .error e) : e = .badKeyLength ∨ e = .badPayloadLength := by
  unfold aesEncBody at h
  split at h
  · cases h; exact .inl rfl
  split at h <;> cases h
  exact .inr rfl

theorem ccmEncBody_error {mic : Nat} {nonce aad : List Byte} (h : ccmEncBody mic key nonce aad aux = .error e) :
    e = .badKeyLength ∨ e = .noNonce ∨ e = .frameTooLong := by
  unfold ccmEncBody at h
  split at h
  · cases h; exact .inl rfl
  split at h
  · cases h; exact .inr (.inl rfl)
  split at h <;> cases h
  exact .inr (.inr rfl)

theorem ccmDecBody_error {mic : Nat} {nonce aad : List Byte} (h : ccmDecBody mic key nonce aad aux = .error e) :
    e = .badKeyLength ∨ e = .noNonce ∨ e = .badPayloadLength ∨ e = .authenticationFailure := by
  unfold ccmDecBody at h
  split at h
  · cases h; exact .inl rfl
  split at h
  · cases h; exact .inr (.inl rfl)
  split at h
  · cases h; exact .inr (.inr (.inl rfl))
  · exact .inr (.inr (.inr (ccmDecrypt_error (map_error h))))

theorem fcsCheckBody_error (h : fcsCheckBody frame = .error e) : e = .tooShort := by
  unfold fcsCheckBody at h
  split at h <;> cases h
  rfl

theorem fcsAppendBody_error (h : fcsAppendBody frame = .error e) : e = .frameTooLong := by
  unfold fcsAppendBody at h
  split at h <;> cases h
  rfl

/-- SEC_ENCRYPT checks no MIC, so `AuthenticationFailure` is not among its statuses (R181). -/
theorem secEncryptBody_error (h : secEncryptBody f aux key = .error e) :
    e ∈ [ErrorStatus.tooShort, .badPayloadLength, .unsupportedSecurityLevel, .badKeyLength, .frameTooLong,
      .noNonce] := by
  unfold secEncryptBody at h
  rcases bind_error h with hparse | ⟨_, -, h⟩
  · exact List.mem_append_left [ErrorStatus.frameTooLong, .noNonce] (secParse_error hparse)
  split at h
  · cases h; decide
  split at h
  · cases h; decide
  rcases bind_error h with hnonce | ⟨_, -, h⟩
  · rcases secNonce_error hnonce with rfl | rfl <;> decide
  · cases h

/-! ### The row of each command (R202) -/

theorem illegalCommand_mem_mayEndWith (i : Instr) : ErrorStatus.illegalCommand ∈ i.mayEndWith := by
  cases i <;> simp [Instr.mayEndWith]

/-- The row of a command marks `FrameTooLong` when the command reads an operand buffer. -/
theorem frameTooLong_mem_mayEndWith (hb : b ∈ i.reads) (hout : b ≠ .out) :
    ErrorStatus.frameTooLong ∈ i.mayEndWith := by
  cases i <;> simp_all [Instr.reads, Instr.mayEndWith]

/-- The row of SEC_DECRYPT marks every status. -/
theorem mem_mayEndWith_secDecrypt (e : ErrorStatus) : e ∈ Instr.secDecrypt.mayEndWith := by
  cases e <;> decide

/-- A body ends with the statuses of its command's row. -/
theorem commandBody_error (h : commandBody i s = .error e) : e ∈ i.mayEndWith := by
  cases i <;> simp only [commandBody] at h
  case nop | reset | movof | movoa | fcsCalc => cases h
  case macHdrlen => cases codecBody_error (fun _ => macHdrlen_error) h; decide
  case macPaylen => cases codecBody_error (fun _ => macPayloadlen_error) h; decide
  case macChop => cases codecBody_error (fun _ => macChop_error) h; decide
  case macNonce => cases codecBody_error (fun _ => macNonce_error) h; decide
  case nwkHdrlen => cases codecBody_error (fun _ => nwkHdrlen_error) h; decide
  case nwkPaylen => cases codecBody_error (fun _ => nwkPayloadlen_error) h; decide
  case nwkChop => cases codecBody_error (fun _ => nwkChop_error) h; decide
  case apsHdrlen => cases codecBody_error (fun _ => apsHdrlen_error) h; decide
  case apsPaylen => cases codecBody_error (fun _ => apsPayloadlen_error) h; decide
  case apsChop => cases codecBody_error (fun _ => apsChop_error) h; decide
  case narrow => cases narrow_error h; exact .head _
  case splice => rcases splice_error h with rfl | rfl <;> simp [Instr.mayEndWith]
  case aesEnc => rcases aesEncBody_error h with rfl | rfl <;> decide
  case ccmEnc => rcases ccmEncBody_error h with rfl | rfl | rfl <;> simp [Instr.mayEndWith]
  case ccmDec => rcases ccmDecBody_error h with rfl | rfl | rfl | rfl <;> simp [Instr.mayEndWith]
  case secDecrypt => exact mem_mayEndWith_secDecrypt e
  case secEncrypt =>
    have hsub : [ErrorStatus.tooShort, .badPayloadLength, .unsupportedSecurityLevel, .badKeyLength, .frameTooLong,
      .noNonce] ⊆ Instr.secEncrypt.mayEndWith := by decide
    rcases bind_error h with hef | ⟨_, -, h⟩
    · cases effectiveFrame_error hef; decide
    · exact hsub (secEncryptBody_error h)
  case fcsCheck => cases fcsCheckBody_error h; decide
  case fcsAppend => cases fcsAppendBody_error h; decide

/-- The error of a verdict stands in the command's row, that of the checks before the body included. -/
theorem mem_mayEndWith_of_verdict (h : verdict i s = .ok (.error e)) : e ∈ i.mayEndWith := by
  unfold verdict at h
  split at h
  · cases h; exact illegalCommand_mem_mayEndWith i
  split at h
  next hover =>
    cases h
    obtain ⟨b, hb, hout, -⟩ := anyOverCapacity_iff.mp hover
    exact frameTooLong_mem_mayEndWith hb hout
  split at h
  · cases h
  · injection h with h
    exact commandBody_error h

/-- Settles O14: RESET and an `Ok` end leave CODE 0, and an error end leaves the code of its verdict. -/
theorem statusesOfEachCommand : Obligations.StatusesOfEachCommand := by
  intro i s t he
  rcases exec_eq_next he with ⟨-, rfl⟩ | ⟨-, e | x, hv, rfl⟩
  · exact .inl resetBlock_code
  · exact .inr ⟨e, mem_mayEndWith_of_verdict hv, raise_code⟩
  · exact .inl complete_code

end Sys2Proof.Machine
end
